-- ==== Sys2Proof/Word.lean ====
section
/-! DEFINITION. The word types of the register file and the memory spaces, and storing a natural
in them (00_scope.md R11; 10_state.md R22, R24, R25). -/

namespace Sys2Proof

/-- One byte of a memory space (10_state.md R53). -/
abbrev Byte := BitVec 8

/-- A host-visible register (10_state.md R22). -/
abbrev Word := BitVec 32

/-- A hidden working register of 17 bits (10_state.md R24, R25). -/
abbrev Count := BitVec 17

/-- A natural as a byte (00_scope.md R12). -/
abbrev toByte (n : Nat) : Byte := BitVec.ofNat 8 n

/-- A natural stored in a 32-bit register. The rules show that every value they store fits
(92_eei_decisions.md D19); log entry 13 says what happens to one that would not. -/
abbrev toWord (n : Nat) : Word := BitVec.ofNat 32 n

/-- A natural stored in a 17-bit hidden register; log entry 13. -/
abbrev toCount (n : Nat) : Count := BitVec.ofNat 17 n

end Sys2Proof
end

