-- ==== Sys2Proof/Config.lean ====
section
/-! DEFINITION. What is fixed for a machine: the two kinds of unit, the five memory spaces, the bit
splits and their presets, the platform's capacities, and the free contents of unwritten memory. -/

namespace Sys2Proof

/-- The two hardware units (10_state.md R20). -/
inductive UnitId where
  | dec
  | enc
deriving DecidableEq, Repr

/-- The five byte-addressed memory spaces (10_state.md R53). -/
inductive Space where
  | dsrc
  | dout
  | esrc
  | ebm
  | efs
deriving DecidableEq, Repr

/-- The split of the 16-bit packed field: `O = offsetBits`, `L = lengthBits` (00_scope.md R7). -/
structure Split where
  offsetBits : Nat
  lengthBits : Nat
deriving DecidableEq, Repr

/-- Preset `V11_5` (00_scope.md R9). -/
def Split.v11_5 : Split := ⟨11, 5⟩

/-- Preset `V13_3` (00_scope.md R9). -/
def Split.v13_3 : Split := ⟨13, 3⟩

/-- How many bytes of each space the platform backs (00_scope.md R10). The spec makes these
parameters of the model; the model holds them in State, where no step changes them (log entry 3). -/
structure Platform where
  dsrcCap : Nat
  doutCap : Nat
  esrcCap : Nat
  ebmCap : Nat
  efsCap : Nat
deriving DecidableEq, Repr

/-- The default capacities of 00_scope.md R10. -/
def Platform.default : Platform where
  dsrcCap := 2 ^ 32
  doutCap := 2 ^ 32
  esrcCap := 2 ^ 32
  ebmCap := 2 ^ 29
  efsCap := 2 ^ 32

/-- FREE VALUE. What a byte that nothing has written since a reset holds: the spec gives it "some
value, unknown, stable until written" (10_state.md R57, 20_memory.md R78). The first argument counts
the resets so far. Nothing can be proved of it (log entry 4). -/
opaque Config.resetByte : Nat → Space → Nat → Byte

end Sys2Proof
end

