-- ==== Sys2Proof/Syntax.lean ====
section
/-! DEFINITION. The instructions: one constructor for each row of spec/opcode_table.json. -/

namespace Sys2Proof

/-- The two operations of the stream, the second under each preset as a row of its own, and the
three host commands (30_encoding.md R102, R113). The operands of a back-reference are the decoded
ones, not minus one, as in the listing notation `REF <offset>,<length>` (30_encoding.md R111). -/
inductive Instr where
  /-- `LIT`: emits one byte (30_encoding.md R96; 41_decoder.md R156). -/
  | lit (value : Byte)
  /-- `REF`, the generic row for any split (30_encoding.md R97; 41_decoder.md R157, R158). -/
  | ref (offset length : Nat)
  /-- `REF.V11_5`: `REF` under `O = 11`, `L = 5` (00_scope.md R9). -/
  | refV11_5 (offset length : Nat)
  /-- `REF.V13_3`: `REF` under `O = 13`, `L = 3` (00_scope.md R9). -/
  | refV13_3 (offset length : Nat)
  /-- `DEC.START_BLOCK` (42_host_commands.md R193). -/
  | decStartBlock
  /-- `DEC.START_SECTION` (42_host_commands.md R194). -/
  | decStartSection
  /-- `ENC.START` (42_host_commands.md R200). -/
  | encStart
deriving DecidableEq, Repr

end Sys2Proof
end

