-- ==== Sys2Proof/WellFormed.lean ====
section
/-! DEFINITION. Which instructions can be assembled under a split (30_encoding.md R99, R101, R111). -/

namespace Sys2Proof

/-- `O + L = 16` (00_scope.md R8, 30_encoding.md R99). -/
def Split.valid (sp : Split) : Bool :=
  decide (sp.offsetBits + sp.lengthBits = 16)

/-- The domain of `Pack`: `1 <= offset <= 2^O` and `1 <= length <= 2^L` (30_encoding.md R101). -/
def Split.admits (sp : Split) (offset length : Nat) : Bool :=
  decide (1 ≤ offset ∧ offset ≤ 2 ^ sp.offsetBits ∧ 1 ≤ length ∧ length ≤ 2 ^ sp.lengthBits)

/-- The two observed variants have rows of their own (log entry 9). -/
def Split.isPreset (sp : Split) : Bool :=
  decide (sp = Split.v11_5 ∨ sp = Split.v13_3)

/-- An instruction that has words under the split: a back-reference needs operands in `Pack`'s
domain and the row that belongs to the split. -/
def Instr.wellFormed (sp : Split) : Instr → Bool
  | .lit _ => true
  | .ref offset length => sp.valid && !sp.isPreset && sp.admits offset length
  | .refV11_5 offset length => decide (sp = Split.v11_5) && sp.admits offset length
  | .refV13_3 offset length => decide (sp = Split.v13_3) && sp.admits offset length
  | .decStartBlock => true
  | .decStartSection => true
  | .encStart => true

end Sys2Proof
end

