-- ==== Sys2Proof/Decode.lean ====
section
/-! DEFINITION. Byte order, the packed field, decoding and encoding (30_encoding.md). -/

namespace Sys2Proof

/-- `LE16` (00_scope.md R12, 20_memory.md R62). -/
def le16 (b0 b1 : Byte) : Nat :=
  b0.toNat + 256 * b1.toNat

/-- `LE32` (00_scope.md R12, 20_memory.md R61). -/
def le32 (b0 b1 b2 b3 : Byte) : Nat :=
  b0.toNat + 2 ^ 8 * b1.toNat + 2 ^ 16 * b2.toNat + 2 ^ 24 * b3.toNat

/-- `le16`, the inverse: two bytes, least significant first (00_scope.md R12). -/
def le16Bytes (v : Nat) : List Byte :=
  [toByte v, toByte (v / 256)]

/-- `le32`, the inverse: four bytes, least significant first (00_scope.md R12). -/
def le32Bytes (v : Nat) : List Byte :=
  [toByte v, toByte (v / 2 ^ 8), toByte (v / 2 ^ 16), toByte (v / 2 ^ 24)]

/-- `offset = (field >> L) + 1` (30_encoding.md R100). -/
def unpackOffset (l field : Nat) : Nat :=
  (field >>> l) + 1

/-- `length = (field & (2^L - 1)) + 1` (30_encoding.md R100). -/
def unpackLength (l field : Nat) : Nat :=
  (field &&& (2 ^ l - 1)) + 1

/-- `Pack(offset, length) = ((offset - 1) << L) | (length - 1)` (30_encoding.md R101). -/
def packField (l offset length : Nat) : Nat :=
  ((offset - 1) <<< l) ||| (length - 1)

/-- An entry is 1 byte when the control bit is 0 and 2 bytes when it is 1 (30_encoding.md R98). -/
def entryLength (ctrl : Bool) : Nat :=
  if ctrl then 2 else 1

/-- What an instruction is decoded from: an operation's control bit with the field-stream bytes from
its entry on (30_encoding.md R91), or a value written to a unit's `CTRL` (30_encoding.md R113). -/
inductive Fetched where
  | operation (ctrl : Bool) (bytes : List Byte)
  | command (u : UnitId) (value : Word)
deriving DecidableEq, Repr

/-- Why nothing is decoded. -/
inductive DecodeReject where
  /-- The field stream ends before the entry does (41_decoder.md R156, R157). -/
  | truncatedEntry
  /-- A reserved command value (30_encoding.md R110). -/
  | reservedCommand
deriving DecidableEq, Repr

/-- A back-reference under a split: the row of the split's preset, or the generic row. -/
def refInstr (sp : Split) (offset length : Nat) : Instr :=
  if sp = Split.v11_5 then .refV11_5 offset length
  else if sp = Split.v13_3 then .refV13_3 offset length
  else .ref offset length

/-- An operation and the field-stream bytes after its entry (30_encoding.md R96, R97, R98, R102). -/
def decodeOperation (sp : Split) (ctrl : Bool) (bytes : List Byte) :
    Except DecodeReject (Instr × List Byte) :=
  match ctrl, bytes with
  | false, value :: rest => .ok (.lit value, rest)
  | true, b0 :: b1 :: rest =>
    let field := le16 b0 b1
    .ok (refInstr sp (unpackOffset sp.lengthBits field) (unpackLength sp.lengthBits field), rest)
  | _, _ => .error .truncatedEntry

/-- A command: the whole 32-bit value is the opcode (30_encoding.md R113, R110). -/
def decodeCommand (u : UnitId) (value : Word) : Except DecodeReject Instr :=
  match u with
  | .dec =>
    if value = 0x00000001#32 then .ok .decStartBlock
    else if value = 0x00000002#32 then .ok .decStartSection
    else .error .reservedCommand
  | .enc =>
    if value = 0x00000001#32 then .ok .encStart
    else .error .reservedCommand

/-- The decoder, total on what can be fetched. -/
def decode (sp : Split) : Fetched → Except DecodeReject (Instr × List Byte)
  | .operation ctrl bytes => decodeOperation sp ctrl bytes
  | .command u value => (decodeCommand u value).map fun i => (i, [])

/-- The operation word of a table row as what the hardware stores (30_encoding.md R102): 9 bits of
`LIT`, 17 bits of `REF`, each in whole bytes, else a command for `DEC.CTRL` (log entries 9, 10). -/
def tableFetched (nbits w : Nat) : Option Fetched :=
  if nbits ≤ 16 then
    if w < 2 ^ 9 then some (.operation (w.testBit 8) [toByte w]) else none
  else if nbits ≤ 24 then
    if w < 2 ^ 17 then some (.operation (w.testBit 16) (le16Bytes w)) else none
  else
    if w < 2 ^ 32 then some (.command .dec (toWord w)) else none

/-- The decoder on a row of spec/opcode_table.json, under the split of the reset configuration
(log entries 9, 10). The whole word must be one instruction. -/
def decodeTableWord (nbits w : Nat) : Option Instr :=
  match tableFetched nbits w with
  | none => none
  | some f =>
    match decode Split.v11_5 f with
    | .ok (i, []) => some i
    | _ => none

/-- The control bit and the entry bytes of a back-reference (30_encoding.md R97, R101). -/
def encodeRef (sp : Split) (offset length : Nat) : Fetched :=
  .operation true (le16Bytes (packField sp.lengthBits offset length))

/-- The encoder: an instruction's words under a split (30_encoding.md R96, R97, R101, R113). -/
def encode (sp : Split) : Instr → Fetched
  | .lit value => .operation false [value]
  | .ref offset length => encodeRef sp offset length
  | .refV11_5 offset length => encodeRef sp offset length
  | .refV13_3 offset length => encodeRef sp offset length
  | .decStartBlock => .command .dec 0x00000001#32
  | .decStartSection => .command .dec 0x00000002#32
  | .encStart => .command .enc 0x00000001#32

end Sys2Proof
end

