-- ==== Sys2Proof/Machine/State.lean ====
section
/-! DEFINITION. The state of the machine: both units, the platform, and the agents' pending turns
(10_state.md R21, R30, R42, R53, R54, R55), and the state after reset (R57). -/

namespace Sys2Proof.Machine

/-- `STATUS.STATE` (10_state.md R23). -/
inductive RunState where
  | idle
  | busy
  | done
  | error
deriving DecidableEq, Repr

/-- The error kinds (60_exceptions.md R220). `STATUS.ERR = 0` is the absence of one. -/
inductive ErrorKind where
  | truncatedInput
  | invalidBackReference
  | truncatedStream
  | configMismatch
  | capacity
  | underfill
deriving DecidableEq, Repr

/-- `DEC.CFG.FRAMING` (10_state.md R33). -/
inductive Framing where
  | prefixed
  | unprefixed
deriving DecidableEq, Repr

/-- `DEC.MODE` (10_state.md R54). -/
inductive RunMode where
  | block
  | sectioned
deriving DecidableEq, Repr

/-- `DEC.PHASE` (10_state.md R54). -/
inductive DecPhase where
  | halt
  | begin_
  | op
  | lit
  | ref
  | copy
deriving DecidableEq, Repr

/-- `ENC.PHASE` (10_state.md R55). -/
inductive EncPhase where
  | halt
  | begin_
  | pos
  | scan
  | emit
  | flush
deriving DecidableEq, Repr

/-- A memory space's written bytes in canonical form: addresses strictly rising. An address that is
not listed has not been written since the last reset (10_state.md R53, R57; log entry 4). -/
abbrev Memory := List Host.Cell

/-- The writable fields of `DEC.CFG`; its reserved bits hold nothing (10_state.md R33). -/
structure DecCfg where
  offsetBits : BitVec 8
  lengthBits : BitVec 8
  framing : Framing
  strict : Bool
deriving DecidableEq, Repr

/-- The writable fields of `ENC.CFG` (10_state.md R45). -/
structure EncCfg where
  offsetBits : BitVec 8
  lengthBits : BitVec 8
deriving DecidableEq, Repr

/-- The decoder unit: registers, hidden registers, spaces (10_state.md R24, R30 to R41, R53, R54). -/
structure Dec where
  runState : RunState
  err : Option ErrorKind
  underfill : Bool
  cfg : DecCfg
  window : Word
  srcLen : Word
  uncompSize : Word
  opCount : Word
  bmBase : Word
  bmLen : Word
  fsBase : Word
  fsLen : Word
  opIdx : Word
  fsPos : Word
  outPos : Word
  errPos : Word
  phase : DecPhase
  mode : RunMode
  ctrlSr : Byte
  curOffset : Count
  curRemain : Count
  dsrc : Memory
  dout : Memory
deriving DecidableEq, Repr

/-- The encoder unit: registers, hidden registers, spaces (10_state.md R25, R42 to R50, R53, R55). -/
structure Enc where
  runState : RunState
  err : Option ErrorKind
  cfg : EncCfg
  window : Word
  minMatch : Word
  inLen : Word
  uncompSize : Word
  opCount : Word
  bmLen : Word
  fsLen : Word
  pos : Word
  phase : EncPhase
  cap : Count
  dmax : Count
  scanD : Count
  bestLen : Count
  bestOff : Count
  bmAcc : Byte
  esrc : Memory
  ebm : Memory
  efs : Memory
deriving DecidableEq, Repr

/-- The host's four moves (42_host_commands.md R190). -/
inductive HostMove where
  | regRead (u : UnitId) (offset : Nat)
  | regWrite (u : UnitId) (offset : Nat) (value : Word)
  | memRead (sp : Space) (addr : Nat)
  | memWrite (sp : Space) (addr : Nat) (value : Byte)
deriving DecidableEq, Repr

/-- What can happen next: a unit's step, a move of the host, or the reset event
(00_scope.md R17, 10_state.md R57; log entry 1). -/
inductive Turn where
  | dec
  | enc
  | host (m : HostMove)
  | reset
deriving DecidableEq, Repr

/-- The machine. `plat`, `agenda`, `returned` and `epoch` are the model's own (INVENTORY.md, State). -/
structure State where
  /-- The decoder unit. -/
  dec : Dec
  /-- The encoder unit. -/
  enc : Enc
  /-- The capacities, the same in every state of a machine (00_scope.md R10; log entry 3). -/
  plat : Platform
  /-- The turns still to be taken, next first (log entry 1). -/
  agenda : List Turn
  /-- What the host's reads returned, newest first (42_host_commands.md R192; log entry 8). -/
  returned : List Word
  /-- How many resets have happened; the free contents of unwritten bytes depend on it (log entry 4). -/
  epoch : Nat
deriving DecidableEq, Repr

/-- Why the machine stops. No state that meets the model's invariant has a step that faults. -/
inductive Fault where
  /-- Raised by every load and store of a unit or the host at an address the platform does not back
  (00_scope.md R10, 10_state.md R53). Safe: log entry 5. -/
  | unbackedAddress (sp : Space) (addr : Nat)
  /-- Raised by a unit's turn when it is BUSY in phase HALT, for which no step is given
  (41_decoder.md R154, 40_encoder.md R131). Safe: log entry 14. -/
  | busyWithoutStep (u : UnitId)
deriving DecidableEq, Repr

/-- Why a step has no meaning. -/
inductive Refusal where
  /-- An instruction that has no meaning yet. No arm of exec answers it. Safe. -/
  | notModelled (mnemonic : String)
  /-- Raised by a host memory move on a space of a BUSY unit, which the spec gives no meaning
  (70_reset_and_hazards.md R256, R258, R259; 20_memory.md R77). Safe: log entry 6. -/
  | hostMoveOnBusySpace (sp : Space)
deriving DecidableEq, Repr

/-- What a step or a meaning answers. -/
abbrev Result := Host.Outcome State Fault Refusal

/-- The registers of `DEC` after reset (10_state.md R57), with the given spaces. -/
def Dec.resetWith (dsrc dout : Memory) : Dec where
  runState := .idle
  err := none
  underfill := false
  cfg := { offsetBits := 11, lengthBits := 5, framing := .prefixed, strict := false }
  window := 2048
  srcLen := 0
  uncompSize := 0
  opCount := 0
  bmBase := 0
  bmLen := 0
  fsBase := 0
  fsLen := 0
  opIdx := 0
  fsPos := 0
  outPos := 0
  errPos := 0
  phase := .halt
  mode := .block
  ctrlSr := 0
  curOffset := 0
  curRemain := 0
  dsrc := dsrc
  dout := dout

/-- The registers of `ENC` after reset (10_state.md R57), with the given spaces. -/
def Enc.resetWith (esrc ebm efs : Memory) : Enc where
  runState := .idle
  err := none
  cfg := { offsetBits := 11, lengthBits := 5 }
  window := 2048
  minMatch := 3
  inLen := 0
  uncompSize := 0
  opCount := 0
  bmLen := 0
  fsLen := 0
  pos := 0
  phase := .halt
  cap := 0
  dmax := 0
  scanD := 0
  bestLen := 0
  bestOff := 0
  bmAcc := 0
  esrc := esrc
  ebm := ebm
  efs := efs

/-- The machine right after power-on: every register as 10_state.md R57 says, no byte written, the
default capacities, no turn pending. -/
def State.reset : State where
  dec := Dec.resetWith [] []
  enc := Enc.resetWith [] [] []
  plat := Platform.default
  agenda := []
  returned := []
  epoch := 0

end Sys2Proof.Machine
end

