-- ==== Sys2Proof/Machine/Ops.lean ====
section
/-! DEFINITION. The named operations: memory spaces (20_memory.md), loads and stores, taking an
error and clearing it (00_scope.md R15; 60_exceptions.md R228, R232). -/

namespace Sys2Proof.Machine

/-- The byte last written at an address, if any was. -/
def Memory.lookup : Memory → Nat → Option Byte
  | [], _ => none
  | (a, b) :: rest, x => if a = x then some b else Memory.lookup rest x

/-- Writes a byte and keeps the canonical form. -/
def Memory.write : Memory → Nat → Byte → Memory
  | [], x, v => [(x, v)]
  | (a, b) :: rest, x, v =>
    if x < a then (x, v) :: (a, b) :: rest
    else if x = a then (x, v) :: rest
    else (a, b) :: Memory.write rest x v

/-- The canonical form: addresses strictly rising and of 32 bits (10_state.md R53). -/
abbrev Memory.wf (m : Memory) : Prop :=
  m.Pairwise (fun c d => c.1 < d.1) ∧ ∀ c ∈ m, c.1 < 2 ^ 32

/-- `for j in 0 .. n - 1: MemWrite(S, j, 1, 0x00)` (42_host_commands.md R195, line 5). -/
def Memory.zeroFill (m : Memory) (n : Nat) : Memory :=
  (List.range n).foldl (fun m j => m.write j 0) m

/-- The state with another decoder unit. -/
def State.setDec (s : State) (d : Dec) : State := { s with dec := d }

/-- The state with another encoder unit. -/
def State.setEnc (s : State) (e : Enc) : State := { s with enc := e }

/-- The state with other pending turns. -/
def State.setAgenda (s : State) (ts : List Turn) : State := { s with agenda := ts }

/-- The unit a space is private to (10_state.md R53). -/
def spaceOwner : Space → UnitId
  | .dsrc => .dec
  | .dout => .dec
  | .esrc => .enc
  | .ebm => .enc
  | .efs => .enc

/-- The capacity of a space (00_scope.md R10). -/
def platformCap (p : Platform) : Space → Nat
  | .dsrc => p.dsrcCap
  | .dout => p.doutCap
  | .esrc => p.esrcCap
  | .ebm => p.ebmCap
  | .efs => p.efsCap

/-- A space's written bytes. -/
def State.mem (s : State) : Space → Memory
  | .dsrc => s.dec.dsrc
  | .dout => s.dec.dout
  | .esrc => s.enc.esrc
  | .ebm => s.enc.ebm
  | .efs => s.enc.efs

/-- The state with other bytes in one space. -/
def State.setMem (s : State) (sp : Space) (m : Memory) : State :=
  match sp with
  | .dsrc => { s with dec := { s.dec with dsrc := m } }
  | .dout => { s with dec := { s.dec with dout := m } }
  | .esrc => { s with enc := { s.enc with esrc := m } }
  | .ebm => { s with enc := { s.enc with ebm := m } }
  | .efs => { s with enc := { s.enc with efs := m } }

/-- Reading one byte: what was last written there, or the unknown content a byte nothing has written
holds (20_memory.md R70, R78; log entry 4). -/
def State.byteAt (s : State) (sp : Space) (a : Nat) : Byte :=
  match (s.mem sp).lookup a with
  | some b => b
  | none => Config.resetByte s.epoch sp a

/-- The platform backs the address, and it is an address of 32 bits (10_state.md R53). -/
def State.backed (s : State) (sp : Space) (a : Nat) : Bool :=
  decide (a < platformCap s.plat sp ∧ a < 2 ^ 32)

/-- A unit's run state (10_state.md R23). -/
def State.runStateOf (s : State) : UnitId → RunState
  | .dec => s.dec.runState
  | .enc => s.enc.runState

/-- `MemRead(S, a, 1)` (00_scope.md R14), going on with the byte. -/
def load (sp : Space) (a : Nat) (s : State) (k : Byte → Result) : Result :=
  if s.backed sp a then k (s.byteAt sp a) else .fault (.unbackedAddress sp a)

/-- `MemWrite(S, a, 1, v)` (00_scope.md R14), going on with the state after it. -/
def store (sp : Space) (a : Nat) (v : Byte) (s : State) (k : State → Result) : Result :=
  if s.backed sp a then k (s.setMem sp ((s.mem sp).write a v)) else .fault (.unbackedAddress sp a)

/-- Successive bytes, in ascending address order (20_memory.md R63). -/
def loadBytes (sp : Space) (a : Nat) (s : State) : Nat → (List Byte → Result) → Result
  | 0, k => k []
  | n + 1, k => load sp a s fun b => loadBytes sp (a + 1) s n fun bs => k (b :: bs)

/-- TAKING AN ERROR: `raise <Kind>(p)` in unit `u` (00_scope.md R15, 60_exceptions.md R228). `ENC` has
no `ERR_POS` (42_host_commands.md R201), so `p` is of no effect there. -/
def raise (u : UnitId) (kind : ErrorKind) (p : Nat) (s : State) : State :=
  match u with
  | .dec => s.setDec
      { s.dec with runState := .error, err := some kind, phase := .halt, errPos := toWord p }
  | .enc => s.setEnc { s.enc with runState := .error, err := some kind, phase := .halt }

/-- LEAVING AN ERROR: there is no return from one; a new START clears `ERR`, `UNDERFILL` and
`ERR_POS` and begins a run from its first step (60_exceptions.md R232; 42_host_commands.md R193, R194,
R200, R205). -/
def startRun (u : UnitId) (mode : RunMode) (s : State) : State :=
  match u with
  | .dec => s.setDec
      { s.dec with
        runState := .busy, err := none, underfill := false
        errPos := 0, opIdx := 0, fsPos := 0, outPos := 0
        mode := mode, phase := .begin_ }
  | .enc => s.setEnc
      { s.enc with
        runState := .busy, err := none
        uncompSize := 0, opCount := 0, bmLen := 0, fsLen := 0, pos := 0
        phase := .begin_ }

/-- A memory less its bytes from address `n` on. -/
def Memory.keepBelow (m : Memory) (n : Nat) : Memory :=
  m.filter fun c => decide (c.1 < n)

/-- How many bytes of `DOUT`, from address 0, the run in progress has written: past `BEGIN` all of the
output, by the zero-fill (42_host_commands.md R195); without a run, none (10_state.md R54). -/
def Dec.doutWritten (d : Dec) : Nat :=
  match d.phase with
  | .halt => 0
  | .begin_ => 0
  | .op => d.uncompSize.toNat
  | .lit => d.uncompSize.toNat
  | .ref => d.uncompSize.toNat
  | .copy => d.uncompSize.toNat

/-- A run of the encoder is in progress and past `BEGIN` (10_state.md R55). -/
def Enc.emitting (e : Enc) : Bool :=
  match e.phase with
  | .halt => false
  | .begin_ => false
  | .pos => true
  | .scan => true
  | .emit => true
  | .flush => true

/-- How many bytes of `EFS`, from address 0, the run in progress has written (40_encoder.md R126, R127). -/
def Enc.efsWritten (e : Enc) : Nat :=
  if e.emitting then e.fsLen.toNat else 0

/-- How many bytes of `EBM`, from address 0, the run in progress has written: the completed bitmap bytes
(40_encoder.md R128). -/
def Enc.ebmWritten (e : Enc) : Nat :=
  if e.emitting then e.opCount.toNat / 8 else 0

/-- The reset event: every register as after power-on; the spaces unspecified, that is unwritten in a new
epoch, but for what a run that it abandons had written to its output spaces (10_state.md R57,
70_reset_and_hazards.md R251, R252; log entry 15). -/
def resetEvent (s : State) : State :=
  { s with
    dec := Dec.resetWith [] (s.dec.dout.keepBelow s.dec.doutWritten)
    enc := Enc.resetWith [] (s.enc.ebm.keepBelow s.enc.ebmWritten)
      (s.enc.efs.keepBelow s.enc.efsWritten)
    epoch := s.epoch + 1 }

end Sys2Proof.Machine
end

