-- ==== Sys2Proof/Machine/Operands.lean ====
section
/-! DEFINITION. Operand forms and register words: the split in `CFG`, the configuration check, the
control bit, the entry of an operation, the match search, and the words a host sees (10_state.md). -/

namespace Sys2Proof.Machine

/-- `ceil8(n) = (n + 7) div 8` (00_scope.md R11). -/
def ceil8 (n : Nat) : Nat :=
  (n + 7) / 8

/-- The split the decoder unit unpacks by (00_scope.md R7). -/
def Dec.split (d : Dec) : Split :=
  ⟨d.cfg.offsetBits.toNat, d.cfg.lengthBits.toNat⟩

/-- The split the encoder unit packs by (00_scope.md R7). -/
def Enc.split (e : Enc) : Split :=
  ⟨e.cfg.offsetBits.toNat, e.cfg.lengthBits.toNat⟩

/-- `CfgValid(O, L, W)` on naturals (00_scope.md R8, 42_host_commands.md R197). -/
def cfgValid (sp : Split) (w : Nat) : Bool :=
  decide (sp.offsetBits + sp.lengthBits = 16 ∧ w ≤ 2 ^ sp.offsetBits)

/-- `ctrl(i)` as bit `i mod 8` of the byte it lies in, least significant first (20_memory.md R65). -/
def ctrlBit (b : Byte) (i : Nat) : Bool :=
  b.getLsbD (i % 8)

/-- `MemRead(S, a, 4)` (00_scope.md R14, 20_memory.md R61). -/
def load32 (sp : Space) (a : Nat) (s : State) (k : Nat → Result) : Result :=
  load sp a s fun b0 => load sp (a + 1) s fun b1 => load sp (a + 2) s fun b2 =>
    load sp (a + 3) s fun b3 => k (le32 b0 b1 b2 b3)

/-- `MatchLen(input, i, pos, cap)` over `ESRC` (40_encoder.md R122). -/
def matchLen (s : State) (i pos : Nat) : Nat → Nat
  | 0 => 0
  | cap + 1 =>
    if s.byteAt .esrc i = s.byteAt .esrc pos then matchLen s (i + 1) (pos + 1) cap + 1 else 0

/-- The host's view of `DEC.CFG`; bits [31:18] read 0 (10_state.md R33). -/
def DecCfg.toWord (c : DecCfg) : Word :=
  BitVec.ofNat 32 (c.offsetBits.toNat + 2 ^ 8 * c.lengthBits.toNat
    + (match c.framing with | .prefixed => 0 | .unprefixed => 2 ^ 16)
    + (if c.strict then 2 ^ 17 else 0))

/-- A host write to `DEC.CFG`: the writable fields take the value's bits, the reserved bits are
dropped (42_host_commands.md R191, 10_state.md R33). -/
def DecCfg.ofWord (v : Word) : DecCfg where
  offsetBits := v.extractLsb' 0 8
  lengthBits := v.extractLsb' 8 8
  framing := if v.getLsbD 16 then .unprefixed else .prefixed
  strict := v.getLsbD 17

/-- The host's view of `ENC.CFG`; bits [31:16] read 0 (10_state.md R45). -/
def EncCfg.toWord (c : EncCfg) : Word :=
  BitVec.ofNat 32 (c.offsetBits.toNat + 2 ^ 8 * c.lengthBits.toNat)

/-- A host write to `ENC.CFG` (42_host_commands.md R191, 10_state.md R45). -/
def EncCfg.ofWord (v : Word) : EncCfg where
  offsetBits := v.extractLsb' 0 8
  lengthBits := v.extractLsb' 8 8

end Sys2Proof.Machine
end

