-- ==== Sys2Proof/Machine/Flags.lean ====
section
/-! DEFINITION. The status flags: the codes of `STATE` and `ERR`, the `STATUS` words, and the
under-fill flag (10_state.md R23, R28, R32, R44; 60_exceptions.md R220). -/

namespace Sys2Proof.Machine

/-- `STATUS.STATE`, two bits (10_state.md R23). -/
def runStateCode : RunState → Nat
  | .idle => 0
  | .busy => 1
  | .done => 2
  | .error => 3

/-- `STATUS.ERR`, three bits (60_exceptions.md R220). -/
def errorCode : Option ErrorKind → Nat
  | none => 0
  | some .truncatedInput => 1
  | some .invalidBackReference => 2
  | some .truncatedStream => 3
  | some .configMismatch => 4
  | some .capacity => 5
  | some .underfill => 6

/-- The word of `DEC.STATUS`: `STATE` in [1:0], `ERR` in [6:4], `UNDERFILL` in [8], all other bits 0
(10_state.md R32). -/
def Dec.status (d : Dec) : Word :=
  BitVec.ofNat 32 (runStateCode d.runState + 2 ^ 4 * errorCode d.err + (if d.underfill then 2 ^ 8 else 0))

/-- The word of `ENC.STATUS` (10_state.md R44). -/
def Enc.status (e : Enc) : Word :=
  BitVec.ofNat 32 (runStateCode e.runState + 2 ^ 4 * errorCode e.err)

/-- `UNDERFILL` at the end of the operations (10_state.md R28, 41_decoder.md R160). -/
def Dec.underfilled (d : Dec) : Bool :=
  decide (d.outPos ≠ d.uncompSize)

end Sys2Proof.Machine
end

