-- ==== Sys2Proof/Machine/Encoder.lean ====
section
/-! DEFINITION. The encoder unit's steps (40_encoder.md R126 to R136; 42_host_commands.md R201). -/

namespace Sys2Proof.Machine

/-- `AppendControlBit(c)` (40_encoder.md R128), going on with the state after it. -/
def appendControlBit (c : Bool) (s : State) (k : State → Result) : Result :=
  let e := s.enc
  let acc := e.bmAcc ||| (BitVec.ofNat 8 c.toNat <<< (e.opCount.toNat % 8))
  let counted (s : State) (acc : Byte) : State :=
    s.setEnc { s.enc with bmAcc := acc, opCount := toWord (s.enc.opCount.toNat + 1) }
  if e.opCount.toNat % 8 = 7 then
    store .ebm (e.opCount.toNat / 8) acc s fun s => k (counted s 0)
  else k (counted s acc)

/-- `EMIT.LIT` (40_encoder.md R126). -/
def emitLit (s : State) (k : State → Result) : Result :=
  load .esrc s.enc.pos.toNat s fun v =>
  store .efs s.enc.fsLen.toNat v s fun s =>
  appendControlBit false
    (s.setEnc
      { s.enc with
        fsLen := toWord (s.enc.fsLen.toNat + 1)
        pos := toWord (s.enc.pos.toNat + 1) }) k

/-- `EMIT.REF` (40_encoder.md R127). -/
def emitRef (s : State) (k : State → Result) : Result :=
  let field := packField s.enc.split.lengthBits s.enc.bestOff.toNat s.enc.bestLen.toNat
  store .efs s.enc.fsLen.toNat (toByte (field % 256)) s fun s =>
  store .efs (s.enc.fsLen.toNat + 1) (toByte (field / 256)) s fun s =>
  appendControlBit true
    (s.setEnc
      { s.enc with
        fsLen := toWord (s.enc.fsLen.toNat + 2)
        pos := toWord (s.enc.pos.toNat + s.enc.bestLen.toNat) }) k

/-- Step `BEGIN` (40_encoder.md R132) with its checks (42_host_commands.md R201). -/
def encBegin (s : State) : Result :=
  let e := s.enc
  let n := e.inLen.toNat
  if !cfgValid e.split e.window.toNat || decide (e.minMatch.toNat < 2) then
    .next (raise .enc .configMismatch 0 s)
  else if s.plat.esrcCap < n ∨ s.plat.efsCap < n ∨ s.plat.ebmCap < ceil8 n then
    .next (raise .enc .capacity 0 s)
  else
    .next (s.setEnc
      { e with
        pos := 0, opCount := 0, fsLen := 0, bmLen := 0, uncompSize := 0, bmAcc := 0
        phase := .pos })

/-- Step `POS` (40_encoder.md R133). -/
def encPos (s : State) : Result :=
  let e := s.enc
  if e.pos = e.inLen then .next (s.setEnc { e with phase := .flush })
  else
    .next (s.setEnc
      { e with
        cap := toCount (min (2 ^ e.split.lengthBits) (e.inLen.toNat - e.pos.toNat))
        dmax := toCount (min e.pos.toNat e.window.toNat)
        bestLen := 0, bestOff := 0, scanD := 1
        phase := .scan })

/-- Step `SCAN`: one candidate offset, nearest first (40_encoder.md R134). The last byte a comparison
can reach is at `POS + CAP - 1` (R122). -/
def encScan (s : State) : Result :=
  let e := s.enc
  if e.dmax.toNat < e.scanD.toNat ∨ e.bestLen = e.cap then
    .next (s.setEnc { e with phase := .emit })
  else
    let last := e.pos.toNat + e.cap.toNat - 1
    if s.backed .esrc last then
      let m := matchLen s (e.pos.toNat - e.scanD.toNat) e.pos.toNat e.cap.toNat
      let e := if e.bestLen.toNat < m then
        { e with bestLen := toCount m, bestOff := e.scanD } else e
      .next (s.setEnc { e with scanD := toCount (e.scanD.toNat + 1) })
    else .fault (.unbackedAddress .esrc last)

/-- Step `EMIT` (40_encoder.md R135). -/
def encEmit (s : State) : Result :=
  let again (s : State) : Result := .next (s.setEnc { s.enc with phase := .pos })
  if s.enc.minMatch.toNat ≤ s.enc.bestLen.toNat then emitRef s again else emitLit s again

/-- Step `FLUSH` (40_encoder.md R136). -/
def encFlush (s : State) : Result :=
  let n := s.enc.opCount.toNat
  let finish (s : State) : Result :=
    .next (s.setEnc
      { s.enc with
        bmLen := toWord (ceil8 n)
        uncompSize := s.enc.inLen
        bmAcc := 0
        runState := .done
        phase := .halt })
  if n % 8 ≠ 0 then store .ebm (n / 8) s.enc.bmAcc s finish else finish s

end Sys2Proof.Machine
end

