-- ==== Sys2Proof/Machine/Commands.lean ====
section
/-! DEFINITION. The meanings of the host commands (42_host_commands.md R193, R194, R200, R205). -/

namespace Sys2Proof.Machine

/-- A START command: begins a run unless one is in progress, when nothing happens
(42_host_commands.md R191, R205). -/
def startUnlessBusy (u : UnitId) (mode : RunMode) (s : State) : Result :=
  if s.runStateOf u = .busy then .next s else .next (startRun u mode s)

/-- `START_BLOCK` (42_host_commands.md R193). -/
def execDecStartBlock (s : State) : Result :=
  startUnlessBusy .dec .block s

/-- `START_SECTION` (42_host_commands.md R194). -/
def execDecStartSection (s : State) : Result :=
  startUnlessBusy .dec .sectioned s

/-- `START` of the encoder (42_host_commands.md R200); it has no mode. -/
def execEncStart (s : State) : Result :=
  startUnlessBusy .enc .block s

end Sys2Proof.Machine
end

