-- ==== Sys2Proof/Machine/Decoder.lean ====
section
/-! DEFINITION. The decoder unit: the meanings of `LIT` and `REF` and the steps around them
(41_decoder.md; 42_host_commands.md R195, R196). -/

namespace Sys2Proof.Machine

/-- The `DSRC` address of the next entry, `FS_BASE + FS_POS` (41_decoder.md R162). -/
def Dec.entryAddr (d : Dec) : Nat :=
  d.fsBase.toNat + d.fsPos.toNat

/-- The field stream has fewer than `n` bytes left (41_decoder.md R156, R157). -/
def Dec.entryMissing (d : Dec) (n : Nat) : Bool :=
  decide (d.fsLen.toNat < d.fsPos.toNat + n)

/-- `raise TruncatedStream(FS_BASE + FS_POS)` (41_decoder.md R156, R157). -/
def raiseEntryMissing (s : State) : State :=
  raise .dec .truncatedStream s.dec.entryAddr s

/-- `LIT` (41_decoder.md R156). -/
def execLit (value : Byte) (s : State) : Result :=
  if s.dec.entryMissing 1 then .next (raiseEntryMissing s)
  else
    store .dout s.dec.outPos.toNat value s fun s =>
      .next (s.setDec
        { s.dec with
          outPos := toWord (s.dec.outPos.toNat + 1)
          fsPos := toWord (s.dec.fsPos.toNat + 1)
          opIdx := toWord (s.dec.opIdx.toNat + 1)
          phase := .op })

/-- What every row of `REF` does with its unpacked operands: the rest of step `REF`
(41_decoder.md R157). The copy itself is step `COPY`, one byte a step (R158; log entry 12). -/
def beginCopy (offset length : Nat) (s : State) : Result :=
  if s.dec.entryMissing 2 then .next (raiseEntryMissing s)
  else
    .next (s.setDec
      { s.dec with
        curOffset := toCount offset
        curRemain := toCount length
        fsPos := toWord (s.dec.fsPos.toNat + 2)
        phase := .copy })

/-- `REF` (41_decoder.md R157). -/
def execRef (offset length : Nat) (s : State) : Result :=
  beginCopy offset length s

/-- `REF.V11_5`: "Same semantics as REF" (spec/opcode_table.json; 41_decoder.md R157). -/
def execRefV11_5 (offset length : Nat) (s : State) : Result :=
  beginCopy offset length s

/-- `REF.V13_3`: "Same semantics as REF" (spec/opcode_table.json; 41_decoder.md R157). -/
def execRefV13_3 (offset length : Nat) (s : State) : Result :=
  beginCopy offset length s

/-- Step `COPY`: one byte of a back-reference (41_decoder.md R158). -/
def decCopy (s : State) : Result :=
  let d := s.dec
  if d.uncompSize.toNat ≤ d.outPos.toNat ∨ d.outPos.toNat < d.curOffset.toNat then
    .next (raise .dec .invalidBackReference (d.fsBase.toNat + d.fsPos.toNat - 2) s)
  else
    load .dout (d.outPos.toNat - d.curOffset.toNat) s fun v =>
    store .dout d.outPos.toNat v s fun s =>
      let remain := s.dec.curRemain.toNat - 1
      let d := { s.dec with
        outPos := toWord (s.dec.outPos.toNat + 1)
        curRemain := toCount remain }
      if remain = 0 then
        .next (s.setDec { d with opIdx := toWord (d.opIdx.toNat + 1), phase := .op })
      else .next (s.setDec d)

/-- `Finish` (41_decoder.md R160). -/
def decFinish (s : State) : Result :=
  let short := s.dec.underfilled
  let s := s.setDec { s.dec with underfill := short }
  if s.dec.cfg.strict && short then
    .next (raise .dec .underfill s.dec.entryAddr s)
  else
    .next (s.setDec { s.dec with runState := .done, phase := .halt })

/-- The second half of step `OP`: the next control bit out of `CTRL_SR` (41_decoder.md R155). -/
def shiftControlBit (s : State) : State :=
  s.setDec
    { s.dec with
      ctrlSr := s.dec.ctrlSr >>> 1
      phase := if ctrlBit s.dec.ctrlSr 0 then .ref else .lit }

/-- Step `OP`: the stop tests and the control-bit fetch (41_decoder.md R155). -/
def decOp (s : State) : Result :=
  let d := s.dec
  if d.opIdx = d.opCount ∨ d.uncompSize.toNat ≤ d.outPos.toNat then decFinish s
  else if d.opIdx.toNat % 8 = 0 then
    let at_ := d.opIdx.toNat / 8
    if d.bmLen.toNat ≤ at_ then
      .next (raise .dec .truncatedStream (d.bmBase.toNat + at_) s)
    else
      load .dsrc (d.bmBase.toNat + at_) s fun b =>
        .next (shiftControlBit (s.setDec { s.dec with ctrlSr := b }))
  else .next (shiftControlBit s)

/-- Lines 4 to 6 of step `BEGIN`: the output's capacity, the zero-fill, on to `OP`
(42_host_commands.md R195). -/
def openOutput (s : State) : Result :=
  if s.plat.doutCap < s.dec.uncompSize.toNat then .next (raise .dec .capacity 0 s)
  else
    .next (s.setDec
      { s.dec with
        dout := s.dec.dout.zeroFill s.dec.uncompSize.toNat
        phase := .op })

/-- `ParseSection` (42_host_commands.md R196), going on where it raises nothing. A register written
before a `raise` keeps its new value. -/
def parseSection (s : State) (k : State → Result) : Result :=
  let srcLen := s.dec.srcLen.toNat
  if srcLen < 8 then .next (raise .dec .truncatedInput 0 s)
  else
    load32 .dsrc 0 s fun uncomp =>
    load32 .dsrc 4 s fun n =>
    let s := s.setDec { s.dec with uncompSize := toWord uncomp, opCount := toWord n }
    let m := ceil8 n
    if srcLen < 8 + m then .next (raise .dec .truncatedInput 8 s)
    else
      let s := s.setDec { s.dec with bmBase := 8, bmLen := toWord m }
      match s.dec.cfg.framing with
      | .prefixed =>
        if srcLen < 12 + m then .next (raise .dec .truncatedInput (8 + m) s)
        else
          load32 .dsrc (8 + m) s fun size =>
          if srcLen < 12 + m + size then .next (raise .dec .truncatedInput (12 + m) s)
          else k (s.setDec { s.dec with fsBase := toWord (12 + m), fsLen := toWord size })
      | .unprefixed =>
        k (s.setDec { s.dec with fsBase := toWord (8 + m), fsLen := toWord (srcLen - (8 + m)) })

/-- Line 3 of step `BEGIN` in a `START_BLOCK` run: both windows inside `[0, SRC_LEN)`
(42_host_commands.md R195). -/
def checkWindows (s : State) (k : State → Result) : Result :=
  let d := s.dec
  if d.srcLen.toNat < d.bmBase.toNat + d.bmLen.toNat then
    .next (raise .dec .truncatedInput d.bmBase.toNat s)
  else if d.srcLen.toNat < d.fsBase.toNat + d.fsLen.toNat then
    .next (raise .dec .truncatedInput d.fsBase.toNat s)
  else k s

/-- Step `BEGIN` (42_host_commands.md R195). -/
def decBegin (s : State) : Result :=
  if !cfgValid s.dec.split s.dec.window.toNat then .next (raise .dec .configMismatch 0 s)
  else if s.plat.dsrcCap < s.dec.srcLen.toNat then .next (raise .dec .capacity 0 s)
  else
    match s.dec.mode with
    | .sectioned => parseSection s openOutput
    | .block => checkWindows s openOutput

end Sys2Proof.Machine
end

