-- ==== Sys2Proof/Machine/Dispatch.lean ====
section
/-! DEFINITION. One arm for each instruction. -/

namespace Sys2Proof.Machine

def exec (i : Instr) (s : State) : Host.Outcome State Fault Refusal :=
  match i with
  | .lit value => Sys2Proof.Machine.execLit value s
  | .ref offset length => Sys2Proof.Machine.execRef offset length s
  | .refV11_5 offset length => Sys2Proof.Machine.execRefV11_5 offset length s
  | .refV13_3 offset length => Sys2Proof.Machine.execRefV13_3 offset length s
  | .decStartBlock => Sys2Proof.Machine.execDecStartBlock s
  | .decStartSection => Sys2Proof.Machine.execDecStartSection s
  | .encStart => Sys2Proof.Machine.execEncStart s

end Sys2Proof.Machine
end

