-- ==== Sys2Proof/Machine/HostPort.lean ====
section
/-! DEFINITION. The host's four moves: register access and memory access (42_host_commands.md R190,
R191, R192; 10_state.md R30, R42; 20_memory.md R77). -/

namespace Sys2Proof.Machine

/-- `RegRead(DEC, offset)` (10_state.md R30, 42_host_commands.md R192). -/
def Dec.regRead (d : Dec) : Nat → Word
  | 0x04 => d.status
  | 0x08 => d.cfg.toWord
  | 0x0C => d.window
  | 0x10 => d.srcLen
  | 0x14 => d.uncompSize
  | 0x18 => d.opCount
  | 0x1C => d.bmBase
  | 0x20 => d.bmLen
  | 0x24 => d.fsBase
  | 0x28 => d.fsLen
  | 0x2C => d.opIdx
  | 0x30 => d.fsPos
  | 0x34 => d.outPos
  | 0x38 => d.errPos
  | _ => 0

/-- `RegRead(ENC, offset)` (10_state.md R42, 42_host_commands.md R192). -/
def Enc.regRead (e : Enc) : Nat → Word
  | 0x04 => e.status
  | 0x08 => e.cfg.toWord
  | 0x0C => e.window
  | 0x10 => e.minMatch
  | 0x14 => e.inLen
  | 0x18 => e.uncompSize
  | 0x1C => e.opCount
  | 0x20 => e.bmLen
  | 0x24 => e.fsLen
  | 0x28 => e.pos
  | _ => 0

/-- A host write to the `RW` registers of `DEC`; every other offset keeps everything
(10_state.md R30, 42_host_commands.md R191). -/
def Dec.regWrite (d : Dec) (value : Word) : Nat → Dec
  | 0x08 => { d with cfg := DecCfg.ofWord value }
  | 0x0C => { d with window := value }
  | 0x10 => { d with srcLen := value }
  | 0x14 => { d with uncompSize := value }
  | 0x18 => { d with opCount := value }
  | 0x1C => { d with bmBase := value }
  | 0x20 => { d with bmLen := value }
  | 0x24 => { d with fsBase := value }
  | 0x28 => { d with fsLen := value }
  | _ => d

/-- A host write to the `RW` registers of `ENC` (10_state.md R42, 42_host_commands.md R191). -/
def Enc.regWrite (e : Enc) (value : Word) : Nat → Enc
  | 0x08 => { e with cfg := EncCfg.ofWord value }
  | 0x0C => { e with window := value }
  | 0x10 => { e with minMatch := value }
  | 0x14 => { e with inLen := value }
  | _ => e

/-- The offset of `CTRL` in both units (10_state.md R30, R42). -/
def ctrlOffset : Nat := 0x00

/-- `RegRead(U, offset)` (42_host_commands.md R192). -/
def State.regRead (s : State) (u : UnitId) (offset : Nat) : Word :=
  match u with
  | .dec => s.dec.regRead offset
  | .enc => s.enc.regRead offset

/-- The state after a write to a register that is not `CTRL`. -/
def State.regWrite (s : State) (u : UnitId) (offset : Nat) (value : Word) : State :=
  match u with
  | .dec => s.setDec (s.dec.regWrite value offset)
  | .enc => s.setEnc (s.enc.regWrite value offset)

/-- The host keeps a value it read (log entry 8). -/
def State.giveBack (s : State) (v : Word) : State :=
  { s with returned := v :: s.returned }

/-- `RegWrite(U, offset, value)`: nothing while the unit is BUSY; a command at `CTRL`, reserved values
ignored; else the register (42_host_commands.md R191, 30_encoding.md R110). -/
def hostRegWrite (u : UnitId) (offset : Nat) (value : Word) (s : State) : Result :=
  if s.runStateOf u = .busy then .next s
  else if offset = ctrlOffset then
    match decodeCommand u value with
    | .ok i => exec i s
    | .error _ => .next s
  else .next (s.regWrite u offset value)

/-- A move of the host (42_host_commands.md R190). A memory move on a space of a BUSY unit is refused
(70_reset_and_hazards.md R256, R258, R259; log entry 6). -/
def hostMove (m : HostMove) (s : State) : Result :=
  match m with
  | .regRead u offset => .next (s.giveBack (s.regRead u offset))
  | .regWrite u offset value => hostRegWrite u offset value s
  | .memRead sp addr =>
    if s.runStateOf (spaceOwner sp) = .busy then .refused (.hostMoveOnBusySpace sp)
    else load sp addr s fun b => .next (s.giveBack (b.setWidth 32))
  | .memWrite sp addr value =>
    if s.runStateOf (spaceOwner sp) = .busy then .refused (.hostMoveOnBusySpace sp)
    else store sp addr value s .next

end Sys2Proof.Machine
end

