-- ==== Sys2Proof/Machine/Sequencer.lean ====
section
/-! DEFINITION. The sequencers: which step a unit takes, fetching and running an operation, and whose
turn it is (00_scope.md R17; 41_decoder.md R154; 40_encoder.md R131). -/

namespace Sys2Proof.Machine

/-- Steps `LIT` and `REF`: the operation whose control bit step `OP` has fetched. Its entry is checked
for, loaded and decoded under the split in `CFG`, and the instruction runs (41_decoder.md R156, R157).
The decoder rejects an entry only for being short. -/
def runOperation (ctrl : Bool) (s : State) : Result :=
  if s.dec.entryMissing (entryLength ctrl) then .next (raiseEntryMissing s)
  else
    loadBytes .dsrc s.dec.entryAddr s (entryLength ctrl) fun bytes =>
      match decodeOperation s.dec.split ctrl bytes with
      | .ok (i, _) => exec i s
      | .error _ => .next (raiseEntryMissing s)

/-- A turn of `DEC`: its step when it is BUSY, else nothing (41_decoder.md R154; log entries 14, 17). -/
def decTurn (s : State) : Result :=
  match s.dec.runState with
  | .busy =>
    match s.dec.phase with
    | .halt => .fault (.busyWithoutStep .dec)
    | .begin_ => decBegin s
    | .op => decOp s
    | .lit => runOperation false s
    | .ref => runOperation true s
    | .copy => decCopy s
  | _ => .next s

/-- A turn of `ENC`: its step when it is BUSY, else nothing (40_encoder.md R131; log entries 14, 17). -/
def encTurn (s : State) : Result :=
  match s.enc.runState with
  | .busy =>
    match s.enc.phase with
    | .halt => .fault (.busyWithoutStep .enc)
    | .begin_ => encBegin s
    | .pos => encPos s
    | .scan => encScan s
    | .emit => encEmit s
    | .flush => encFlush s
  | _ => .next s

/-- One atomic step of one agent (00_scope.md R17). -/
def takeTurn : Turn → State → Result
  | .dec, s => decTurn s
  | .enc, s => encTurn s
  | .host m, s => hostMove m s
  | .reset, s => .next (resetEvent s)

/-- With no turn pending a BUSY unit goes on, `DEC` before `ENC`; when neither is BUSY nothing
happens (log entry 1). -/
def idleTurn (s : State) : Result :=
  if s.dec.runState = .busy then decTurn s else encTurn s

/-- The machine's step: the next pending turn, or, with none pending, the units' own. -/
def machineStep (s : State) : Result :=
  match s.agenda with
  | [] => idleTurn s
  | t :: rest => takeTurn t (s.setAgenda rest)

/-- A natural stored in a register unless the register already holds more. -/
def atLeast (w : Word) (n : Nat) : Word :=
  if w.toNat < n then toWord n else w

/-- The state in which `DEC` is about to run the operation with this control bit and entry: its bytes
at `FS_BASE + FS_POS`, the phase step `OP` leaves, and the ranges of 10_state.md R58 (log entry 11). -/
def placeOperation (ctrl : Bool) (entry : List Byte) (s : State) : State :=
  let d := s.dec
  let stored := (List.range entry.length).foldl
    (fun m j => m.write (d.entryAddr + j) (entry.getD j 0)) d.dsrc
  let fsLen := atLeast d.fsLen (d.fsPos.toNat + entry.length)
  { s with
    agenda := .dec :: s.agenda
    dec := { d with
      runState := .busy
      phase := if ctrl then .ref else .lit
      dsrc := stored
      fsLen := fsLen
      srcLen := atLeast d.srcLen (d.fsBase.toNat + fsLen.toNat)
      opCount := atLeast d.opCount (d.opIdx.toNat + 1)
      uncompSize := atLeast d.uncompSize (d.outPos.toNat + 1) } }

/-- A table word where the next step fetches its instruction: an operation's entry in the field
stream, a command as the host's next move (log entry 11). -/
def placeFetchWord (s : State) (nbits w : Nat) : State :=
  match tableFetched nbits w with
  | some (.operation ctrl bytes) => placeOperation ctrl bytes s
  | some (.command u value) =>
    s.setAgenda (.host (.regWrite u ctrlOffset value) :: s.agenda)
  | none => s

end Sys2Proof.Machine
end

