-- ==== Sys2Proof/Machine/Step.lean ====
section
/-! DEFINITION. The machine's step, and placing an instruction where the step fetches its next one. -/

namespace Sys2Proof.Machine

/-- One step: one atomic step of one agent (00_scope.md R17). -/
def step (s : State) : Host.Outcome State Fault Refusal :=
  machineStep s

/-- `s` with a table word placed so that the next step runs it (log entry 11). -/
def State.withFetchWord (s : State) (nbits w : Nat) : State :=
  placeFetchWord s nbits w

end Sys2Proof.Machine
end

