-- ==== Sys2Proof/Machine/Reference.lean ====
section
/-! DEFINITION. The whole-run functions the steps compute, and the block they exchange: `Compress`
(40_encoder.md R121), `Decode` (41_decoder.md R151), the block and its serialized forms
(30_encoding.md R90, R91, R104 to R107, R111). No step of the machine calls them. -/

namespace Sys2Proof.Machine

/-- A `CompressedBlock` (30_encoding.md R90). -/
structure Block where
  uncompSize : Nat
  opCount : Nat
  bitmap : List Byte
  fields : List Byte
deriving DecidableEq, Repr

/-- An operation of a listing (30_encoding.md R111). -/
inductive Operation where
  | lit (value : Byte)
  | ref (offset length : Nat)
deriving DecidableEq, Repr

/-- The control bit (30_encoding.md R102). -/
def Operation.ctrl : Operation → Bool
  | .lit _ => false
  | .ref _ _ => true

/-- The entry under a split (30_encoding.md R96, R97, R101). -/
def Operation.entry (l : Nat) : Operation → List Byte
  | .lit value => [value]
  | .ref offset length => le16Bytes (packField l offset length)

/-- Bits packed into bytes, bit `i` in bit `i mod 8` of byte `i div 8`, the last byte padded with zero
bits (30_encoding.md R92, 20_memory.md R65). -/
def bitmapByte (bits : List Bool) (k : Nat) : Byte :=
  toByte ((List.range 8).foldl (fun acc j => acc + (bits.getD (8 * k + j) false).toNat * 2 ^ j) 0)

/-- The bitmap of a stream of control bits (30_encoding.md R92). -/
def bitmapOf (bits : List Bool) : List Byte :=
  (List.range (ceil8 bits.length)).map (bitmapByte bits)

/-- Assembling a listing (30_encoding.md R111). -/
def assemble (l uncompSize : Nat) (ops : List Operation) : Block where
  uncompSize := uncompSize
  opCount := ops.length
  bitmap := bitmapOf (ops.map Operation.ctrl)
  fields := (ops.map (Operation.entry l)).flatten

/-- `MatchLen(input, i, pos, cap)` (40_encoder.md R122). -/
def refMatchLen (input : List Byte) (i pos : Nat) : Nat → Nat
  | 0 => 0
  | cap + 1 =>
    if input[i]? = input[pos]? then refMatchLen input (i + 1) (pos + 1) cap + 1 else 0

/-- The cap at a position (40_encoder.md R123). -/
def refCap (input : List Byte) (l pos : Nat) : Nat :=
  min (2 ^ l) (input.length - pos)

/-- The match lengths of the candidates `d = 1 .. min(pos, W)`, nearest first (40_encoder.md R123). -/
def refCandidates (input : List Byte) (l w pos : Nat) : List (Nat × Nat) :=
  (List.range (min pos w)).map fun k =>
    (refMatchLen input (pos - (k + 1)) pos (refCap input l pos), k + 1)

/-- `BestMatch` as (length, offset): the longest, and the smallest offset that attains it; (0, 0) when
nothing matches (40_encoder.md R124). -/
def bestMatch (input : List Byte) (l w pos : Nat) : Nat × Nat :=
  let cands := refCandidates input l w pos
  let r := (cands.map Prod.fst).foldl max 0
  if r = 0 then (0, 0)
  else
    match cands.find? (fun c => c.1 = r) with
    | some c => c
    | none => (0, 0)

/-- The operation chosen at a position and the number of input bytes it covers (40_encoder.md R125). -/
def greedyOp (input : List Byte) (l w minm pos : Nat) : Operation × Nat :=
  let (r, d) := bestMatch input l w pos
  if minm ≤ r then (.ref d r, r) else (.lit (input.getD pos 0), 1)

/-- The loop of `Compress` from a position on; `fuel` bounds the rounds, each of which advances
(40_encoder.md R121, R143). -/
def greedyOps (input : List Byte) (l w minm : Nat) : (fuel pos : Nat) → List Operation
  | 0, _ => []
  | fuel + 1, pos =>
    if pos < input.length then
      let (o, n) := greedyOp input l w minm pos
      o :: greedyOps input l w minm fuel (pos + n)
    else []

/-- `Compress(input, O, L, W, MINM)` (40_encoder.md R121); only `L` of the split is used. -/
def compress (input : List Byte) (l w minm : Nat) : Block :=
  assemble l input.length (greedyOps input l w minm input.length 0)

/-- What `Decode` yields (41_decoder.md R151). -/
inductive DecodeResult where
  | ok (out : List Byte) (produced : Nat) (underfill : Bool)
  | err (kind : ErrorKind)
deriving DecidableEq, Repr

/-- The copy loop of `Decode`: `none` is `InvalidBackReference` (41_decoder.md R151). -/
def copyLoop (uncomp off : Nat) : (cnt : Nat) → (out : List Byte) → (o : Nat) → Option (List Byte × Nat)
  | 0, out, o => some (out, o)
  | cnt + 1, out, o =>
    if uncomp ≤ o ∨ o < off then none
    else copyLoop uncomp off cnt (out.set o (out.getD (o - off) 0)) (o + 1)

/-- The end of `Decode` (41_decoder.md R151, last two lines). -/
def decodeEnd (strict : Bool) (uncomp : Nat) (out : List Byte) (o : Nat) : DecodeResult :=
  if strict && decide (o ≠ uncomp) then .err .underfill
  else .ok out o (decide (o ≠ uncomp))

/-- The loop of `Decode` with `left` operations to go (41_decoder.md R151). -/
def decodeLoop (l : Nat) (strict : Bool) (uncomp : Nat) (bm fs : List Byte) :
    (left op fp o : Nat) → (out : List Byte) → DecodeResult
  | 0, _, _, o, out => decodeEnd strict uncomp out o
  | left + 1, op, fp, o, out =>
    if uncomp ≤ o then decodeEnd strict uncomp out o
    else
      match bm[op / 8]? with
      | none => .err .truncatedStream
      | some b =>
        match ctrlBit b op with
        | false =>
          match fs[fp]? with
          | none => .err .truncatedStream
          | some v => decodeLoop l strict uncomp bm fs left (op + 1) (fp + 1) (o + 1) (out.set o v)
        | true =>
          match fs[fp]?, fs[fp + 1]? with
          | some b0, some b1 =>
            let field := le16 b0 b1
            match copyLoop uncomp (unpackOffset l field) (unpackLength l field) out o with
            | none => .err .invalidBackReference
            | some (out, o) => decodeLoop l strict uncomp bm fs left (op + 1) (fp + 2) o out
          | _, _ => .err .truncatedStream

/-- `Decode(O, L, strict, uncomp, n, bm, fs)` (41_decoder.md R151); only `L` of the split is used. -/
def decodeBlock (l : Nat) (strict : Bool) (b : Block) : DecodeResult :=
  decodeLoop l strict b.uncompSize b.bitmap b.fields b.opCount 0 0 0 (List.replicate b.uncompSize 0)

/-- `Serialize` (30_encoding.md R106; layouts R104, R105). -/
def serialize (b : Block) (framing : Framing) : List Byte :=
  le32Bytes b.uncompSize ++ le32Bytes b.opCount ++ b.bitmap ++
    (match framing with
      | .prefixed => le32Bytes b.fields.length
      | .unprefixed => []) ++ b.fields

/-- The control bit of operation `i` of a block; bits the bitmap does not have read 0
(20_memory.md R65). -/
def Block.ctrl (b : Block) (i : Nat) : Bool :=
  ctrlBit (b.bitmap.getD (i / 8) 0) i

/-- Where the entry of operation `i` starts (30_encoding.md R91). -/
def Block.entryPos (b : Block) : Nat → Nat
  | 0 => 0
  | i + 1 => b.entryPos i + entryLength (b.ctrl i)

/-- Disassembling operation `i` (30_encoding.md R111: R91 followed by R100). -/
def Block.operation (l : Nat) (b : Block) (i : Nat) : Operation :=
  let fp := b.entryPos i
  let b0 := b.fields.getD fp 0
  match b.ctrl i with
  | false => .lit b0
  | true =>
    let field := le16 b0 (b.fields.getD (fp + 1) 0)
    .ref (unpackOffset l field) (unpackLength l field)

/-- The bytes an operation produces. -/
def Operation.produces : Operation → Nat
  | .lit _ => 1
  | .ref _ length => length

/-- How many bytes operations `0` to `i - 1` produce (30_encoding.md R107). -/
def Block.outPos (l : Nat) (b : Block) : Nat → Nat
  | 0 => 0
  | i + 1 => b.outPos l i + (b.operation l i).produces

/-- A back-reference reaches no further back than what is there (30_encoding.md R107). -/
def Operation.reaches (produced : Nat) : Operation → Bool
  | .lit _ => true
  | .ref offset _ => decide (offset ≤ produced)

/-- A well-formed block for a configuration (30_encoding.md R107). -/
def Block.wellFormed (l : Nat) (b : Block) : Prop :=
  b.bitmap.length = ceil8 b.opCount
  ∧ (∀ i, b.opCount ≤ i → b.ctrl i = false)
  ∧ b.fields.length = b.entryPos b.opCount
  ∧ (∀ i < b.opCount, (b.operation l i).reaches (b.outPos l i) = true)
  ∧ b.outPos l b.opCount = b.uncompSize

/-- The bytes `S[a .. a+n]` of a space (00_scope.md R12). -/
def State.slice (s : State) (sp : Space) (a n : Nat) : List Byte :=
  (List.range n).map fun j => s.byteAt sp (a + j)

/-- The block the descriptor registers describe (30_encoding.md R90, 10_state.md R38, R39). -/
def State.decBlock (s : State) : Block where
  uncompSize := s.dec.uncompSize.toNat
  opCount := s.dec.opCount.toNat
  bitmap := s.slice .dsrc s.dec.bmBase.toNat s.dec.bmLen.toNat
  fields := s.slice .dsrc s.dec.fsBase.toNat s.dec.fsLen.toNat

/-- The block the encoder delivers (30_encoding.md R90, 42_host_commands.md R202). -/
def State.encBlock (s : State) : Block where
  uncompSize := s.enc.uncompSize.toNat
  opCount := s.enc.opCount.toNat
  bitmap := s.slice .ebm 0 s.enc.bmLen.toNat
  fields := s.slice .efs 0 s.enc.fsLen.toNat

end Sys2Proof.Machine
end

