-- ==== Sys2Proof/Safety.lean ====
section
/-! DEFINITION. What claims about runs are stated in: legal platforms, the invariants of the two units
(10_state.md R54, R55, R58), the end of a run (60_exceptions.md R229). -/

namespace Sys2Proof.Machine

/-- The ranges of the capacities (00_scope.md R10). -/
abbrev platformLegal (p : Platform) : Prop :=
  p.dsrcCap ≤ 2 ^ 32 ∧ p.doutCap ≤ 2 ^ 32 ∧ p.esrcCap ≤ 2 ^ 32 ∧ p.ebmCap ≤ 2 ^ 29 ∧ p.efsCap ≤ 2 ^ 32

/-- A space is in canonical form and lists only bytes the platform backs. -/
abbrev State.spaceOk (s : State) (sp : Space) : Prop :=
  (s.mem sp).wf ∧ ∀ c ∈ s.mem sp, c.1 < platformCap s.plat sp

/-- All five spaces. -/
abbrev State.spacesOk (s : State) : Prop :=
  s.spaceOk .dsrc ∧ s.spaceOk .dout ∧ s.spaceOk .esrc ∧ s.spaceOk .ebm ∧ s.spaceOk .efs

/-- `PHASE = HALT` exactly when `STATE != BUSY`; `ERR != 0` exactly when `STATE = ERROR`;
`UNDERFILL` only after a run (10_state.md R54, R32, R28). -/
abbrev Dec.statusOk (d : Dec) : Prop :=
  (d.phase = .halt ↔ d.runState ≠ .busy) ∧ (d.err = none ↔ d.runState ≠ .error) ∧
  (d.underfill = true → d.runState = .done ∨ d.runState = .error)

/-- The cursors are 0 until step `BEGIN` has been taken (42_host_commands.md R193, R194). -/
abbrev Dec.beginOk (d : Dec) : Prop :=
  d.phase = .begin_ → d.opIdx = 0 ∧ d.fsPos = 0 ∧ d.outPos = 0 ∧ d.errPos = 0

/-- The decoder is in phase `OP`, `LIT`, `REF` or `COPY` (10_state.md R58). -/
abbrev Dec.running (d : Dec) : Prop :=
  d.phase = .op ∨ d.phase = .lit ∨ d.phase = .ref ∨ d.phase = .copy

/-- What step `BEGIN` has checked and nothing changes during a run: the configuration, the capacities
and the two windows (10_state.md R58; 42_host_commands.md R195). -/
abbrev State.decExtentsOk (s : State) : Prop :=
  cfgValid s.dec.split s.dec.window.toNat = true
  ∧ s.dec.srcLen.toNat ≤ s.plat.dsrcCap
  ∧ s.dec.uncompSize.toNat ≤ s.plat.doutCap
  ∧ s.dec.bmBase.toNat + s.dec.bmLen.toNat ≤ s.dec.srcLen.toNat
  ∧ s.dec.fsBase.toNat + s.dec.fsLen.toNat ≤ s.dec.srcLen.toNat

/-- The ranges of the cursors (10_state.md R24, R58). -/
abbrev Dec.cursorsOk (d : Dec) : Prop :=
  d.opIdx.toNat ≤ d.opCount.toNat ∧ d.fsPos.toNat ≤ d.fsLen.toNat
  ∧ d.outPos.toNat ≤ d.uncompSize.toNat
  ∧ (d.phase = .lit ∨ d.phase = .ref ∨ d.phase = .copy → d.opIdx.toNat < d.opCount.toNat)
  ∧ (d.phase = .lit ∨ d.phase = .ref → d.outPos.toNat < d.uncompSize.toNat)

/-- The back-reference in flight (10_state.md R58, R26). -/
abbrev Dec.copyOk (d : Dec) : Prop :=
  d.phase = .copy →
    1 ≤ d.curRemain.toNat ∧ d.curRemain.toNat ≤ 2 ^ d.split.lengthBits
    ∧ 1 ≤ d.curOffset.toNat ∧ d.curOffset.toNat ≤ 2 ^ d.split.offsetBits
    ∧ 2 ≤ d.fsPos.toNat

/-- How many bits of the current bitmap byte have left `CTRL_SR` (10_state.md R54). -/
def Dec.bitsUsed (d : Dec) : Nat :=
  d.opIdx.toNat % 8 + (if d.phase = .op then 0 else 1)

/-- `CTRL_SR` holds the unused control bits of the current bitmap byte (10_state.md R54). -/
abbrev State.ctrlSrOk (s : State) : Prop :=
  ¬(s.dec.phase = .op ∧ s.dec.opIdx.toNat % 8 = 0) →
    s.dec.opIdx.toNat / 8 < s.dec.bmLen.toNat
    ∧ s.dec.ctrlSr = s.byteAt .dsrc (s.dec.bmBase.toNat + s.dec.opIdx.toNat / 8) >>> s.dec.bitsUsed

/-- The output past the cursor is zero (10_state.md R58). -/
abbrev State.tailZero (s : State) : Prop :=
  ∀ j < s.dec.uncompSize.toNat, s.dec.outPos.toNat ≤ j → s.byteAt .dout j = 0

/-- The decoder's invariant (10_state.md R32, R54, R58). -/
abbrev State.decOk (s : State) : Prop :=
  s.dec.statusOk ∧ s.dec.beginOk
  ∧ (s.dec.running → s.decExtentsOk ∧ s.dec.cursorsOk ∧ s.dec.copyOk ∧ s.ctrlSrOk ∧ s.tailZero)

/-- `PHASE = HALT` exactly when `STATE != BUSY`; `ERR != 0` exactly when `STATE = ERROR`
(10_state.md R55, R32, R44). -/
abbrev Enc.statusOk (e : Enc) : Prop :=
  (e.phase = .halt ↔ e.runState ≠ .busy) ∧ (e.err = none ↔ e.runState ≠ .error)

/-- The counters are 0 until step `BEGIN` has been taken (42_host_commands.md R200). -/
abbrev Enc.beginOk (e : Enc) : Prop :=
  e.phase = .begin_ → e.pos = 0 ∧ e.opCount = 0 ∧ e.fsLen = 0

/-- `UNCOMP_SIZE` and `BM_LEN` are 0 while `BUSY` (10_state.md R49). -/
abbrev Enc.resultsOk (e : Enc) : Prop :=
  e.runState = .busy → e.uncompSize = 0 ∧ e.bmLen = 0

/-- The encoder is past `BEGIN`. -/
abbrev Enc.running (e : Enc) : Prop :=
  e.phase = .pos ∨ e.phase = .scan ∨ e.phase = .emit ∨ e.phase = .flush

/-- What step `BEGIN` has checked (42_host_commands.md R201). -/
abbrev State.encExtentsOk (s : State) : Prop :=
  cfgValid s.enc.split s.enc.window.toNat = true ∧ 2 ≤ s.enc.minMatch.toNat
  ∧ s.enc.inLen.toNat ≤ s.plat.esrcCap ∧ s.enc.inLen.toNat ≤ s.plat.efsCap
  ∧ ceil8 s.enc.inLen.toNat ≤ s.plat.ebmCap

/-- The ranges of the counters (10_state.md R25, R58); the pending control bits fill `BM_ACC` from
bit 0 up, and `FLUSH` is entered at the end of the input (40_encoder.md R128, R133). -/
abbrev Enc.countersOk (e : Enc) : Prop :=
  e.pos.toNat ≤ e.inLen.toNat ∧ e.fsLen.toNat ≤ e.pos.toNat ∧ e.opCount.toNat ≤ e.pos.toNat
  ∧ e.bmAcc.toNat < 2 ^ (e.opCount.toNat % 8)
  ∧ (e.phase = .flush → e.pos = e.inLen)

/-- The length of the match at offset `d` behind the cursor (40_encoder.md R122, R124). -/
def State.matchAt (s : State) (d : Nat) : Nat :=
  matchLen s (s.enc.pos.toNat - d) s.enc.pos.toNat s.enc.cap.toNat

/-- (`BEST_LEN`, `BEST_OFF`) is the best of the first `n` offsets: the longest match, the smallest
offset among equally long ones, and (0, 0) when nothing matches (40_encoder.md R124, R134). -/
abbrev State.bestAmong (s : State) (n : Nat) : Prop :=
  (∀ d, d ≤ n → 1 ≤ d → s.matchAt d ≤ s.enc.bestLen.toNat)
  ∧ (∀ d, d < s.enc.bestOff.toNat → 1 ≤ d → s.matchAt d < s.enc.bestLen.toNat)
  ∧ (s.enc.bestLen.toNat = 0 → s.enc.bestOff.toNat = 0)
  ∧ (s.enc.bestLen.toNat ≠ 0 →
      1 ≤ s.enc.bestOff.toNat ∧ s.enc.bestOff.toNat ≤ n
      ∧ s.matchAt s.enc.bestOff.toNat = s.enc.bestLen.toNat)

/-- `CAP` and `DMAX` in phases `SCAN` and `EMIT` (10_state.md R25; 40_encoder.md R123). -/
abbrev Enc.limitsOk (e : Enc) : Prop :=
  e.phase = .scan ∨ e.phase = .emit →
    e.pos.toNat < e.inLen.toNat
    ∧ e.cap.toNat = min (2 ^ e.split.lengthBits) (e.inLen.toNat - e.pos.toNat)
    ∧ e.dmax.toNat = min e.pos.toNat e.window.toNat

/-- The search so far, and the search when it is over (40_encoder.md R124, R134). -/
abbrev State.searchOk (s : State) : Prop :=
  s.enc.limitsOk
  ∧ (s.enc.phase = .scan →
    1 ≤ s.enc.scanD.toNat ∧ s.enc.scanD.toNat ≤ s.enc.dmax.toNat + 1
    ∧ s.bestAmong (s.enc.scanD.toNat - 1))
  ∧ (s.enc.phase = .emit → s.bestAmong s.enc.dmax.toNat)

/-- The encoder's invariant (10_state.md R25, R49, R55, R58). -/
abbrev State.encOk (s : State) : Prop :=
  s.enc.statusOk ∧ s.enc.beginOk ∧ s.enc.resultsOk
  ∧ (s.enc.running → s.encExtentsOk ∧ s.enc.countersOk ∧ s.searchOk)

/-- The machine's invariant: it holds after reset and every step keeps it. -/
abbrev State.Inv (s : State) : Prop :=
  platformLegal s.plat ∧ s.spacesOk ∧ s.decOk ∧ s.encOk

/-- A run of the unit has ended, or none has begun (60_exceptions.md R229). -/
def State.atRest (s : State) (u : UnitId) : Prop :=
  s.runStateOf u ≠ .busy

/-- The next turn is `DEC`'s, and it is BUSY: pending, or by default. -/
def State.decMoves (s : State) : Prop :=
  s.dec.runState = .busy ∧ (s.agenda = [] ∨ ∃ rest, s.agenda = .dec :: rest)

/-- The next turn is `ENC`'s, and it is BUSY: pending, or by default. -/
def State.encMoves (s : State) : Prop :=
  s.enc.runState = .busy ∧
    ((s.agenda = [] ∧ s.dec.runState ≠ .busy) ∨ ∃ rest, s.agenda = .enc :: rest)

/-- The state the turn is taken in: the agenda less the turn. -/
def State.popped (s : State) : State :=
  s.setAgenda s.agenda.tail

/-- Every byte of memory reads as before, but for the `n` bytes of a space from `a` on. -/
def State.onlyBytes (s t : State) (sp : Space) (a n : Nat) : Prop :=
  ∀ sp' x, (sp' ≠ sp ∨ x < a ∨ a + n ≤ x) → t.byteAt sp' x = s.byteAt sp' x

/-- Every byte of memory reads as before. -/
def State.sameMemory (s t : State) : Prop :=
  ∀ sp x, t.byteAt sp x = s.byteAt sp x

/-- The registers after a decoder error: only `STATUS`, `PHASE` and `ERR_POS` change
(60_exceptions.md R228). -/
def Dec.failed (d : Dec) (kind : ErrorKind) (p : Nat) : Dec :=
  { d with runState := .error, err := some kind, phase := .halt, errPos := toWord p }

/-- The registers after an encoder error; there is no `ERR_POS` (42_host_commands.md R201). -/
def Enc.failed (e : Enc) (kind : ErrorKind) : Enc :=
  { e with runState := .error, err := some kind, phase := .halt }

/-- The little-endian word at an address of a space (20_memory.md R61). -/
def State.wordAt (s : State) (sp : Space) (a : Nat) : Nat :=
  le32 (s.byteAt sp a) (s.byteAt sp (a + 1)) (s.byteAt sp (a + 2)) (s.byteAt sp (a + 3))

/-- The packed field at the field-stream cursor (20_memory.md R62). -/
def State.fieldAtCursor (s : State) : Nat :=
  le16 (s.byteAt .dsrc s.dec.entryAddr) (s.byteAt .dsrc (s.dec.entryAddr + 1))

/-- The checks that `BEGIN` makes before it looks at the block: a valid configuration and a backed
extent (42_host_commands.md R195, lines 1 and 2). -/
abbrev State.beginPasses (s : State) : Prop :=
  s.dec.cfg.offsetBits.toNat + s.dec.cfg.lengthBits.toNat = 16
  ∧ s.dec.window.toNat ≤ 2 ^ s.dec.cfg.offsetBits.toNat
  ∧ s.dec.srcLen.toNat ≤ s.plat.dsrcCap

/-- The offsets of the `RW` registers (10_state.md R30, R42). -/
def rwOffsets : UnitId → List Nat
  | .dec => [0x08, 0x0C, 0x10, 0x14, 0x18, 0x1C, 0x20, 0x24, 0x28]
  | .enc => [0x08, 0x0C, 0x10, 0x14]

/-- The bits of a register that hold something: 18 of `DEC.CFG`, 16 of `ENC.CFG`, 32 of the others
(10_state.md R33, R45). -/
def fieldMask : UnitId → Nat → Word
  | .dec, 0x08 => 0x0003FFFF#32
  | .enc, 0x08 => 0x0000FFFF#32
  | _, _ => 0xFFFFFFFF#32

/-- Every register has the value of the reset table: what the host can read, and what is hidden
(10_state.md R57), with 0 at `CTRL` and at every offset that is no register (R30, R42; log entry 7). -/
def State.registersReset (t : State) : Prop :=
  (∀ o, t.regRead .dec o = if o = 0x08 then 0x0000050B#32 else if o = 0x0C then 2048#32 else 0#32)
  ∧ (∀ o, t.regRead .enc o =
      if o = 0x08 then 0x0000050B#32 else if o = 0x0C then 2048#32
      else if o = 0x10 then 3#32 else 0#32)
  ∧ t.dec.runState = .idle ∧ t.enc.runState = .idle
  ∧ t.dec.phase = .halt ∧ t.enc.phase = .halt ∧ t.dec.mode = .block
  ∧ t.dec.ctrlSr = 0 ∧ t.dec.curOffset = 0 ∧ t.dec.curRemain = 0
  ∧ t.enc.cap = 0 ∧ t.enc.dmax = 0 ∧ t.enc.scanD = 0 ∧ t.enc.bestLen = 0 ∧ t.enc.bestOff = 0
  ∧ t.enc.bmAcc = 0

/-- Nothing outside `DEC` has changed: not the other unit, not a pending turn, nothing of the model's
own. -/
def State.onlyDec (s t : State) : Prop :=
  t.enc = s.enc ∧ t.plat = s.plat ∧ t.agenda = s.agenda ∧ t.returned = s.returned ∧ t.epoch = s.epoch

/-- Nothing outside `ENC` has changed. -/
def State.onlyEnc (s t : State) : Prop :=
  t.dec = s.dec ∧ t.plat = s.plat ∧ t.agenda = s.agenda ∧ t.returned = s.returned ∧ t.epoch = s.epoch

end Sys2Proof.Machine
end

