-- ==== Sys2Proof/Certificates/Slice0/Obligations.lean ====
section
/-! DEFINITION. The statements for the provers, in the spec's order: encodings, fetching, the two
operations, the steps of the decoder, the commands and registers, the encoder, reset, the invariant,
and the whole runs. `s.popped` is the state a turn is taken in; a field of `t` that the right-hand side
takes from `t` itself is described by the clause on bytes that follows. -/

open Sys2Proof Sys2Proof.Machine

/-! Encodings (30_encoding.md). -/

/-- Words written out bit by bit from R96, R97, R102 and R113 decode to what they stand for; table rows
are read under the reset split (log entries 9 and 10). -/
def Obligations.WrittenOutWordsDecode : Prop :=
  decodeTableWord 16 0b001011010 = some (.lit 0x5A)
  ∧ decodeTableWord 24 0b10000000001000101 = some (.refV11_5 3 6)
  ∧ decode Split.v13_3 (.operation true [0b00010101, 0b00000000]) = .ok (.refV13_3 3 6, [])
  ∧ decode ⟨8, 8⟩ (.operation true [0b00000101, 0b00000010]) = .ok (.ref 3 6, [])
  ∧ decodeTableWord 32 1 = some .decStartBlock
  ∧ decodeTableWord 32 2 = some .decStartSection
  ∧ decode Split.v11_5 (.command .enc 1) = .ok (.encStart, [])

/-- Decoding the encoding of a well-formed instruction gives it back, and an operation's entry is cut
off exactly, whatever follows it in the field stream (R98, R101, R113). -/
def Obligations.DecodeInvertsEncode : Prop :=
  ∀ (sp : Split) (i : Instr), i.wellFormed sp = true →
    decode sp (encode sp i) = .ok (i, [])
    ∧ ∀ ctrl bytes rest, encode sp i = .operation ctrl bytes →
        decode sp (.operation ctrl (bytes ++ rest)) = .ok (i, rest)

/-- In the operation stream there is no illegal encoding: every entry of the length its control bit
says is a well-formed operation, and its encoding is that entry again (R98, R101, R108); the row of REF
that a split selects is log entry 9. -/
def Obligations.EveryEntryIsAnInstruction : Prop :=
  ∀ (sp : Split) (ctrl : Bool) (bytes : List Byte), sp.valid = true →
    if bytes.length = entryLength ctrl then
      ∃ i, i.wellFormed sp = true ∧ decode sp (.operation ctrl bytes) = .ok (i, [])
        ∧ encode sp i = .operation ctrl bytes
    else if bytes.length < entryLength ctrl then
      decode sp (.operation ctrl bytes) = .error .truncatedEntry
    else
      ∃ i, decode sp (.operation ctrl bytes) = .ok (i, bytes.drop (entryLength ctrl))

/-- R101: for a valid split the packed field is a bijection between the naturals below 2^16 and the
pairs in range; there the two parts do not overlap. -/
def Obligations.PackedFieldIsABijection : Prop :=
  ∀ sp : Split, sp.valid = true →
    (∀ offset length, sp.admits offset length = true →
      packField sp.lengthBits offset length
        = (offset - 1) * 2 ^ sp.lengthBits + (length - 1)
      ∧ packField sp.lengthBits offset length < 2 ^ 16
      ∧ unpackOffset sp.lengthBits (packField sp.lengthBits offset length) = offset
      ∧ unpackLength sp.lengthBits (packField sp.lengthBits offset length) = length)
    ∧ ∀ field, field < 2 ^ 16 →
        sp.admits (unpackOffset sp.lengthBits field) (unpackLength sp.lengthBits field) = true
        ∧ packField sp.lengthBits (unpackOffset sp.lengthBits field)
            (unpackLength sp.lengthBits field) = field

/-! Fetching. -/

/-- In the phase step `OP` leaves, with the entry inside the field stream and backed, the step is exec
of the instruction the entry decodes to under the split in `CFG`, in the state without the pending
turn that was taken; the cursors are moved by the instruction itself (R154, R156, R157). -/
def Obligations.StepRunsDecodedOperation : Prop :=
  ∀ (s : State) (ctrl : Bool) (i : Instr) (rest : List Byte),
    s.decMoves → s.dec.phase = (if ctrl then .ref else .lit) →
    s.dec.fsPos.toNat + entryLength ctrl ≤ s.dec.fsLen.toNat →
    (∀ j < entryLength ctrl, s.backed .dsrc (s.dec.entryAddr + j) = true) →
    decode s.dec.split (.operation ctrl (s.slice .dsrc s.dec.entryAddr (entryLength ctrl)))
      = .ok (i, rest) →
    step s = exec i s.popped

/-- A command the host writes to the `CTRL` of a unit that is not BUSY is run by exec in the state
without the pending move; a reserved value and any value for a BUSY unit do nothing (R191, R110). -/
def Obligations.StepRunsDecodedCommand : Prop :=
  ∀ (s : State) (u : UnitId) (v : Word) (turns : List Turn),
    s.agenda = .host (.regWrite u 0x00 v) :: turns →
    (s.runStateOf u = .busy → step s = .next s.popped)
    ∧ (s.runStateOf u ≠ .busy →
        (∀ sp i rest, decode sp (.command u v) = .ok (i, rest) → step s = exec i s.popped)
        ∧ (∀ sp e, decode sp (.command u v) = .error e → step s = .next s.popped))

/-! The operations (41_decoder.md R156 to R159). -/

/-- `LIT` completes where the field stream has its byte and the output address is backed; its frame:
only `OUT_POS`, `FS_POS`, `OP_IDX`, `PHASE` and one byte of `DOUT` change. -/
def Obligations.LitCompletes : Prop :=
  ∀ (v : Byte) (s : State), s.dec.fsPos.toNat < s.dec.fsLen.toNat →
    s.backed .dout s.dec.outPos.toNat = true →
    ∃ t, exec (.lit v) s = .next t ∧ s.onlyDec t
      ∧ t.dec = { s.dec with
          outPos := toWord (s.dec.outPos.toNat + 1), fsPos := toWord (s.dec.fsPos.toNat + 1)
          opIdx := toWord (s.dec.opIdx.toNat + 1), phase := .op, dout := t.dec.dout }
      ∧ t.byteAt .dout s.dec.outPos.toNat = v
      ∧ s.onlyBytes t .dout s.dec.outPos.toNat 1

/-- Every row of `REF` completes where the field stream has its two bytes: the operands go into
`CUR_OFFSET` and `CUR_REMAIN`, `FS_POS` passes the entry, and the copy follows; nothing else changes. -/
def Obligations.RefCompletes : Prop :=
  ∀ (offset length : Nat) (i : Instr) (s : State),
    i = .ref offset length ∨ i = .refV11_5 offset length ∨ i = .refV13_3 offset length →
    s.dec.fsPos.toNat + 2 ≤ s.dec.fsLen.toNat →
    exec i s = .next (s.setDec { s.dec with
      curOffset := toCount offset, curRemain := toCount length
      fsPos := toWord (s.dec.fsPos.toNat + 2), phase := .copy })

/-- An operation whose entry is not wholly in the field stream takes the error `TruncatedStream` at
`FS_BASE + FS_POS` and changes nothing else (R156, R157, R228). -/
def Obligations.OperationWithoutEntryTakesTruncatedStream : Prop :=
  ∀ (v : Byte) (offset length : Nat) (i : Instr) (s : State),
    (i = .lit v ∧ s.dec.fsLen.toNat ≤ s.dec.fsPos.toNat)
      ∨ ((i = .ref offset length ∨ i = .refV11_5 offset length ∨ i = .refV13_3 offset length)
          ∧ s.dec.fsLen.toNat < s.dec.fsPos.toNat + 2) →
    exec i s = .next (s.setDec
      (s.dec.failed .truncatedStream (s.dec.fsBase.toNat + s.dec.fsPos.toNat)))

/-- R156: step `LIT`. -/
def Obligations.LitStepEmitsTheEntryByte : Prop :=
  ∀ s : State, s.Inv → s.decMoves → s.dec.phase = .lit →
    ∃ t, step s = .next t ∧ s.popped.onlyDec t ∧
      if s.dec.fsLen.toNat ≤ s.dec.fsPos.toNat then
        t.dec = s.dec.failed .truncatedStream (s.dec.fsBase.toNat + s.dec.fsPos.toNat)
      else
        t.dec = { s.dec with
          outPos := toWord (s.dec.outPos.toNat + 1), fsPos := toWord (s.dec.fsPos.toNat + 1)
          opIdx := toWord (s.dec.opIdx.toNat + 1), phase := .op, dout := t.dec.dout }
        ∧ t.byteAt .dout s.dec.outPos.toNat
            = s.byteAt .dsrc (s.dec.fsBase.toNat + s.dec.fsPos.toNat)
        ∧ s.onlyBytes t .dout s.dec.outPos.toNat 1

/-- R157: step `REF`. The unpacked operands are the quotient and the remainder of the field by `2^L`,
each plus one, as naturals. -/
def Obligations.RefStepUnpacksTheField : Prop :=
  ∀ s : State, s.Inv → s.decMoves → s.dec.phase = .ref →
    ∃ t, step s = .next t ∧ s.popped.onlyDec t ∧
      if s.dec.fsLen.toNat < s.dec.fsPos.toNat + 2 then
        t.dec = s.dec.failed .truncatedStream (s.dec.fsBase.toNat + s.dec.fsPos.toNat)
      else
        t.dec.curOffset.toNat = s.fieldAtCursor / 2 ^ s.dec.cfg.lengthBits.toNat + 1
        ∧ t.dec.curRemain.toNat = s.fieldAtCursor % 2 ^ s.dec.cfg.lengthBits.toNat + 1
        ∧ t.dec.fsPos.toNat = s.dec.fsPos.toNat + 2
        ∧ t.dec = { s.dec with
            curOffset := t.dec.curOffset, curRemain := t.dec.curRemain, fsPos := t.dec.fsPos
            phase := .copy }

/-- R158: step `COPY`, one byte. -/
def Obligations.CopyStepMovesOneByte : Prop :=
  ∀ s : State, s.Inv → s.decMoves → s.dec.phase = .copy →
    ∃ t, step s = .next t ∧ s.popped.onlyDec t ∧
      if s.dec.uncompSize.toNat ≤ s.dec.outPos.toNat
          ∨ s.dec.outPos.toNat < s.dec.curOffset.toNat then
        t.dec = s.dec.failed .invalidBackReference (s.dec.fsBase.toNat + s.dec.fsPos.toNat - 2)
      else
        t.dec = { s.dec with
          outPos := toWord (s.dec.outPos.toNat + 1)
          curRemain := toCount (s.dec.curRemain.toNat - 1)
          opIdx := if s.dec.curRemain.toNat = 1 then toWord (s.dec.opIdx.toNat + 1) else s.dec.opIdx
          phase := if s.dec.curRemain.toNat = 1 then .op else .copy
          dout := t.dec.dout }
        ∧ t.byteAt .dout s.dec.outPos.toNat
            = s.byteAt .dout (s.dec.outPos.toNat - s.dec.curOffset.toNat)
        ∧ s.onlyBytes t .dout s.dec.outPos.toNat 1

/-- A whole back-reference, from step `REF` on, when its entry is there, its offset lies inside the
output and its bytes fit: after one step and one step for each byte, byte `k` of the copy is byte
`k mod offset` of the `offset` bytes before it, also where the copy overlaps itself; the cursors have
moved past it and nothing else has changed (R157, R158, R159). With nothing pending the decoder has the
turns: log entry 1. -/
def Obligations.WholeBackReferenceRepeatsThePattern : Prop :=
  ∀ s : State, s.Inv → s.agenda = [] → s.dec.phase = .ref →
    s.dec.fsPos.toNat + 2 ≤ s.dec.fsLen.toNat →
    let offset := s.fieldAtCursor / 2 ^ s.dec.cfg.lengthBits.toNat + 1
    let length := s.fieldAtCursor % 2 ^ s.dec.cfg.lengthBits.toNat + 1
    offset ≤ s.dec.outPos.toNat → s.dec.outPos.toNat + length ≤ s.dec.uncompSize.toNat →
    ∃ t, core.run (1 + length) s = .next t ∧ s.onlyDec t
      ∧ t.dec = { s.dec with
          curOffset := toCount offset, curRemain := 0
          outPos := toWord (s.dec.outPos.toNat + length), fsPos := toWord (s.dec.fsPos.toNat + 2)
          opIdx := toWord (s.dec.opIdx.toNat + 1), phase := .op, dout := t.dec.dout }
      ∧ (∀ k < length, t.byteAt .dout (s.dec.outPos.toNat + k)
          = s.byteAt .dout (s.dec.outPos.toNat - offset + k % offset))
      ∧ s.onlyBytes t .dout s.dec.outPos.toNat length

/-! The decoder's other steps. -/

/-- R155: step `OP` with an operation to start. The control bit is bit `OP_IDX mod 8` of bitmap byte
`OP_IDX div 8`, read from `DSRC` whether or not this step is the one that loads `CTRL_SR`. -/
def Obligations.OpStepFetchesTheControlBit : Prop :=
  ∀ s : State, s.Inv → s.decMoves → s.dec.phase = .op →
    s.dec.opIdx ≠ s.dec.opCount → s.dec.outPos.toNat < s.dec.uncompSize.toNat →
    let i := s.dec.opIdx.toNat
    let b := s.byteAt .dsrc (s.dec.bmBase.toNat + i / 8)
    ∃ t, step s = .next t ∧ s.popped.onlyDec t ∧
      if i % 8 = 0 ∧ s.dec.bmLen.toNat ≤ i / 8 then
        t.dec = s.dec.failed .truncatedStream (s.dec.bmBase.toNat + i / 8)
      else
        i / 8 < s.dec.bmLen.toNat
        ∧ t.dec = { s.dec with
            ctrlSr := b >>> (i % 8 + 1), phase := if b.getLsbD (i % 8) then .ref else .lit }

/-- R160: step `OP` at the end of the operations, or with the output full (the early stop of R164). In
a state of the invariant under-fill means that all operations ran, and the output past what was produced
is zero. -/
def Obligations.OpStepFinishesTheRun : Prop :=
  ∀ s : State, s.decMoves → s.dec.phase = .op →
    s.dec.opIdx = s.dec.opCount ∨ s.dec.uncompSize.toNat ≤ s.dec.outPos.toNat →
    ∃ t, step s = .next t ∧ s.popped.onlyDec t ∧
      (if s.dec.outPos = s.dec.uncompSize then
        t.dec = { s.dec with underfill := false, runState := .done, phase := .halt }
      else if s.dec.cfg.strict then
        t.dec = { s.dec.failed .underfill (s.dec.fsBase.toNat + s.dec.fsPos.toNat) with
          underfill := true }
      else
        t.dec = { s.dec with underfill := true, runState := .done, phase := .halt })
    ∧ (s.Inv → t.dec.outPos.toNat ≤ t.dec.uncompSize.toNat
        ∧ (t.dec.underfill = true → t.dec.opIdx = t.dec.opCount)
        ∧ ∀ j, t.dec.outPos.toNat ≤ j → j < t.dec.uncompSize.toNat → t.byteAt .dout j = 0)

/-- Step `BEGIN` in either mode: the configuration is checked first, on naturals, then the extent; a
failing check takes its error at position 0 and changes nothing else (R195, R197). -/
def Obligations.BeginChecksConfigurationThenExtent : Prop :=
  ∀ s : State, s.decMoves → s.dec.phase = .begin_ → ¬ s.beginPasses →
    ∃ t, step s = .next t ∧ s.popped.onlyDec t ∧
      if s.dec.cfg.offsetBits.toNat + s.dec.cfg.lengthBits.toNat = 16
          ∧ s.dec.window.toNat ≤ 2 ^ s.dec.cfg.offsetBits.toNat then
        t.dec = s.dec.failed .capacity 0
      else t.dec = s.dec.failed .configMismatch 0

/-- Step `BEGIN` of a `START_BLOCK` run that passes the first two checks: the two windows, the output's
capacity, the zero-fill (R195). -/
def Obligations.BlockBeginChecksWindowsAndClearsOutput : Prop :=
  ∀ s : State, s.decMoves → s.dec.phase = .begin_ → s.dec.mode = .block → s.beginPasses →
    ∃ t, step s = .next t ∧ s.popped.onlyDec t ∧
      if s.dec.srcLen.toNat < s.dec.bmBase.toNat + s.dec.bmLen.toNat then
        t.dec = s.dec.failed .truncatedInput s.dec.bmBase.toNat
      else if s.dec.srcLen.toNat < s.dec.fsBase.toNat + s.dec.fsLen.toNat then
        t.dec = s.dec.failed .truncatedInput s.dec.fsBase.toNat
      else if s.plat.doutCap < s.dec.uncompSize.toNat then
        t.dec = s.dec.failed .capacity 0
      else
        t.dec = { s.dec with phase := .op, dout := t.dec.dout }
        ∧ ∀ sp x, t.byteAt sp x =
            if sp = .dout ∧ x < s.dec.uncompSize.toNat then 0 else s.byteAt sp x

/-- R196, in a `START_SECTION` run that passes the first two checks, with the output's capacity and the
zero-fill of R195 after it. Registers written before an error keep their new values. -/
def Obligations.SectionBeginParsesTheHeader : Prop :=
  ∀ s : State, s.decMoves → s.dec.phase = .begin_ → s.dec.mode = .sectioned → s.beginPasses →
    let len := s.dec.srcLen.toNat
    let u := s.wordAt .dsrc 0
    let n := s.wordAt .dsrc 4
    let m := ceil8 n
    let size := s.wordAt .dsrc (8 + m)
    let header : Dec := { s.dec with uncompSize := toWord u, opCount := toWord n }
    let bitmap : Dec := { header with bmBase := 8, bmLen := toWord m }
    let whole : Dec :=
      if s.dec.cfg.framing = .prefixed then
        { bitmap with fsBase := toWord (12 + m), fsLen := toWord size }
      else { bitmap with fsBase := toWord (8 + m), fsLen := toWord (len - (8 + m)) }
    ∃ t, step s = .next t ∧ s.popped.onlyDec t ∧
      if len < 8 then t.dec = s.dec.failed .truncatedInput 0
      else if len < 8 + m then t.dec = header.failed .truncatedInput 8
      else if s.dec.cfg.framing = .prefixed ∧ len < 12 + m then
        t.dec = bitmap.failed .truncatedInput (8 + m)
      else if s.dec.cfg.framing = .prefixed ∧ len < 12 + m + size then
        t.dec = bitmap.failed .truncatedInput (12 + m)
      else if s.plat.doutCap < u then t.dec = whole.failed .capacity 0
      else
        t.dec = { whole with phase := .op, dout := t.dec.dout }
        ∧ ∀ sp x, t.byteAt sp x = if sp = .dout ∧ x < u then 0 else s.byteAt sp x

/-- R106: the parse of a serialized block, with `SRC_LEN` its length, yields the block again under
either framing; and the two serializations of the example. -/
def Obligations.SectionParseInvertsSerialize : Prop :=
  (∀ (s : State) (b : Block), s.decMoves → s.dec.phase = .begin_ → s.dec.mode = .sectioned →
    s.beginPasses → b.bitmap.length = ceil8 b.opCount →
    b.uncompSize < 2 ^ 32 → b.opCount < 2 ^ 32 → b.fields.length < 2 ^ 32 →
    b.uncompSize ≤ s.plat.doutCap →
    s.slice .dsrc 0 s.dec.srcLen.toNat = serialize b s.dec.cfg.framing →
    ∃ t, step s = .next t ∧ t.dec.phase = .op ∧ t.dec.runState = .busy ∧ t.decBlock = b)
  ∧ serialize ⟨9, 4, [0x08], [0x41, 0x42, 0x43, 0x45, 0x00]⟩ .prefixed =
      [0x09, 0, 0, 0, 0x04, 0, 0, 0, 0x08, 0x05, 0, 0, 0, 0x41, 0x42, 0x43, 0x45, 0x00]
  ∧ serialize ⟨9, 4, [0x08], [0x41, 0x42, 0x43, 0x45, 0x00]⟩ .unprefixed =
      [0x09, 0, 0, 0, 0x04, 0, 0, 0, 0x08, 0x41, 0x42, 0x43, 0x45, 0x00]

/-- Errors are precise: a decoder step that ends in ERROR has written no memory, has kept the cursors,
the configuration and the hidden operands, and the unit is in HALT; only `BEGIN` of a section may have
written block registers, only the under-fill error sets the flag (R228). -/
def Obligations.DecoderErrorsArePrecise : Prop :=
  ∀ s t : State, s.decMoves → step s = .next t → t.dec.runState = .error →
    s.popped.onlyDec t ∧ s.sameMemory t ∧ t.dec.phase = .halt
    ∧ (∃ kind, t.dec.err = some kind)
    ∧ t.dec = { s.dec with
        runState := .error, phase := .halt, err := t.dec.err, errPos := t.dec.errPos
        underfill := t.dec.underfill
        uncompSize := t.dec.uncompSize, opCount := t.dec.opCount
        bmBase := t.dec.bmBase, bmLen := t.dec.bmLen
        fsBase := t.dec.fsBase, fsLen := t.dec.fsLen }
    ∧ (t.dec.underfill = s.dec.underfill ∨ t.dec.err = some .underfill)
    ∧ (s.dec.phase ≠ .begin_ ∨ s.dec.mode = .block →
        t.dec.uncompSize = s.dec.uncompSize ∧ t.dec.opCount = s.dec.opCount
        ∧ t.dec.bmBase = s.dec.bmBase ∧ t.dec.bmLen = s.dec.bmLen
        ∧ t.dec.fsBase = s.dec.fsBase ∧ t.dec.fsLen = s.dec.fsLen)

/-- The frame of every decoder step: nothing outside `DEC`, no configuration register, no byte of
`DSRC`, and of `DOUT` only bytes below `UNCOMP_SIZE` (R66, R74, R21). -/
def Obligations.DecoderStepFrame : Prop :=
  ∀ s t : State, s.Inv → s.decMoves → step s = .next t →
    s.popped.onlyDec t
    ∧ t.dec.cfg = s.dec.cfg ∧ t.dec.window = s.dec.window ∧ t.dec.srcLen = s.dec.srcLen
    ∧ t.dec.mode = s.dec.mode
    ∧ (∀ x, t.byteAt .dsrc x = s.byteAt .dsrc x)
    ∧ (∀ x, t.dec.uncompSize.toNat ≤ x → t.byteAt .dout x = s.byteAt .dout x)

/-- R163: past `BEGIN` no decoder step looks at `WINDOW`: with another value there, the step is the same
but for that value. -/
def Obligations.DecoderIgnoresTheWindow : Prop :=
  ∀ (s t : State) (w : Word), s.dec.phase ≠ .begin_ → decTurn s = .next t →
    decTurn (s.setDec { s.dec with window := w }) = .next (t.setDec { t.dec with window := w })

/-! Commands and registers (42_host_commands.md). -/

/-- R193. -/
def Obligations.StartBlockBeginsARun : Prop :=
  ∀ s : State,
    exec .decStartBlock s = .next (if s.dec.runState = .busy then s else s.setDec
      { s.dec with
        runState := .busy, err := none, underfill := false
        errPos := 0, opIdx := 0, fsPos := 0, outPos := 0
        mode := .block, phase := .begin_ })
    ∧ hostMove (.regWrite .dec 0x00 1) s = exec .decStartBlock s

/-- R194. -/
def Obligations.StartSectionBeginsARun : Prop :=
  ∀ s : State,
    exec .decStartSection s = .next (if s.dec.runState = .busy then s else s.setDec
      { s.dec with
        runState := .busy, err := none, underfill := false
        errPos := 0, opIdx := 0, fsPos := 0, outPos := 0
        mode := .sectioned, phase := .begin_ })
    ∧ hostMove (.regWrite .dec 0x00 2) s = exec .decStartSection s

/-- R200. -/
def Obligations.EncoderStartBeginsARun : Prop :=
  ∀ s : State,
    exec .encStart s = .next (if s.enc.runState = .busy then s else s.setEnc
      { s.enc with
        runState := .busy, err := none
        uncompSize := 0, opCount := 0, bmLen := 0, fsLen := 0, pos := 0
        phase := .begin_ })
    ∧ hostMove (.regWrite .enc 0x00 1) s = exec .encStart s

/-- R110. -/
def Obligations.ReservedCommandsAreIgnored : Prop :=
  ∀ (s : State) (v : Word),
    (v ≠ 1 → v ≠ 2 → hostMove (.regWrite .dec 0x00 v) s = .next s)
    ∧ (v ≠ 1 → hostMove (.regWrite .enc 0x00 v) s = .next s)

/-- A register write of the host at an offset other than `CTRL`'s: nothing for a BUSY unit; else an RW
register reads back the value's bits in its fields and 0 in its reserved bits, and every other register,
every hidden register, the other unit and all memory are as before (R191). That a read at an offset that
is no multiple of 4 sees nothing of the write is log entry 7. -/
def Obligations.RegisterWritesReadBackMasked : Prop :=
  ∀ (s : State) (u : UnitId) (offset : Nat) (v : Word) (turns : List Turn),
    s.agenda = .host (.regWrite u offset v) :: turns →
    (s.runStateOf u = .busy → step s = .next s.popped)
    ∧ (s.runStateOf u ≠ .busy → offset % 4 = 0 → offset ≠ 0 →
        ∃ t, step s = .next t ∧ s.sameMemory t
          ∧ (∀ o, t.regRead u o =
              if o = offset ∧ offset ∈ rwOffsets u then v &&& fieldMask u offset
              else s.regRead u o)
          ∧ match u with
            | .dec => s.popped.onlyDec t
                ∧ t.dec = { s.dec with
                    cfg := t.dec.cfg, window := t.dec.window, srcLen := t.dec.srcLen
                    uncompSize := t.dec.uncompSize, opCount := t.dec.opCount
                    bmBase := t.dec.bmBase, bmLen := t.dec.bmLen
                    fsBase := t.dec.fsBase, fsLen := t.dec.fsLen }
            | .enc => s.popped.onlyEnc t
                ∧ t.enc = { s.enc with
                    cfg := t.enc.cfg, window := t.enc.window
                    minMatch := t.enc.minMatch, inLen := t.enc.inLen })

/-- A register read of the host returns the register's value, 0 at `CTRL` and at reserved offsets, BUSY
or not, and changes nothing (R192, R30, R42). Where the value goes is log entry 8; that an offset
that is no multiple of 4 is reserved is log entry 7. -/
def Obligations.RegisterReadsReturnTheRegister : Prop :=
  ∀ (s : State) (u : UnitId) (offset : Nat) (turns : List Turn),
    s.agenda = .host (.regRead u offset) :: turns →
    step s = .next (s.popped.giveBack (match u, offset with
      | .dec, 0x04 => s.dec.status
      | .dec, 0x08 => s.dec.cfg.toWord
      | .dec, 0x0C => s.dec.window
      | .dec, 0x10 => s.dec.srcLen
      | .dec, 0x14 => s.dec.uncompSize
      | .dec, 0x18 => s.dec.opCount
      | .dec, 0x1C => s.dec.bmBase
      | .dec, 0x20 => s.dec.bmLen
      | .dec, 0x24 => s.dec.fsBase
      | .dec, 0x28 => s.dec.fsLen
      | .dec, 0x2C => s.dec.opIdx
      | .dec, 0x30 => s.dec.fsPos
      | .dec, 0x34 => s.dec.outPos
      | .dec, 0x38 => s.dec.errPos
      | .enc, 0x04 => s.enc.status
      | .enc, 0x08 => s.enc.cfg.toWord
      | .enc, 0x0C => s.enc.window
      | .enc, 0x10 => s.enc.minMatch
      | .enc, 0x14 => s.enc.inLen
      | .enc, 0x18 => s.enc.uncompSize
      | .enc, 0x1C => s.enc.opCount
      | .enc, 0x20 => s.enc.bmLen
      | .enc, 0x24 => s.enc.fsLen
      | .enc, 0x28 => s.enc.pos
      | _, _ => 0))

/-- The words of `STATUS` and `CFG`, bit by bit, reserved bits 0 (R32, R33, R44, R45), with the codes of
the run states (R23) and of the error kinds (R220). -/
def Obligations.StatusAndConfigurationWords : Prop :=
  (runStateCode .idle = 0 ∧ runStateCode .busy = 1 ∧ runStateCode .done = 2
    ∧ runStateCode .error = 3)
  ∧ (errorCode none = 0 ∧ errorCode (some .truncatedInput) = 1
    ∧ errorCode (some .invalidBackReference) = 2 ∧ errorCode (some .truncatedStream) = 3
    ∧ errorCode (some .configMismatch) = 4 ∧ errorCode (some .capacity) = 5
    ∧ errorCode (some .underfill) = 6)
  ∧ (∀ d : Dec,
    (d.status.extractLsb' 0 2).toNat = runStateCode d.runState
    ∧ (d.status.extractLsb' 4 3).toNat = errorCode d.err
    ∧ d.status.getLsbD 8 = d.underfill
    ∧ (∀ i, i = 2 ∨ i = 3 ∨ i = 7 ∨ 9 ≤ i → d.status.getLsbD i = false)
    ∧ d.cfg.toWord.extractLsb' 0 8 = d.cfg.offsetBits
    ∧ d.cfg.toWord.extractLsb' 8 8 = d.cfg.lengthBits
    ∧ d.cfg.toWord.getLsbD 16 = decide (d.cfg.framing = .unprefixed)
    ∧ d.cfg.toWord.getLsbD 17 = d.cfg.strict
    ∧ (∀ i, 18 ≤ i → d.cfg.toWord.getLsbD i = false))
  ∧ ∀ e : Enc,
    (e.status.extractLsb' 0 2).toNat = runStateCode e.runState
    ∧ (e.status.extractLsb' 4 3).toNat = errorCode e.err
    ∧ (∀ i, i = 2 ∨ i = 3 ∨ 7 ≤ i → e.status.getLsbD i = false)
    ∧ e.cfg.toWord.extractLsb' 0 8 = e.cfg.offsetBits
    ∧ e.cfg.toWord.extractLsb' 8 8 = e.cfg.lengthBits
    ∧ (∀ i, 16 ≤ i → e.cfg.toWord.getLsbD i = false)

/-- A memory move of the host on a space of a unit that is not BUSY, at a backed address, reads the byte
or stores it and changes no other byte and no register (R190, R77, R67); on a space of a BUSY unit it is
refused (log entry 6), at an address that is not backed it faults (log entry 5). Where the byte that was
read goes is log entry 8; that the host may write `EBM` and `EFS` too is log entry 16. -/
def Obligations.HostMemoryMoves : Prop :=
  ∀ (s : State) (sp : Space) (a : Nat) (v : Byte) (m : HostMove) (turns : List Turn),
    s.agenda = .host m :: turns → m = .memRead sp a ∨ m = .memWrite sp a v →
    if s.runStateOf (spaceOwner sp) = .busy then step s = .refused (.hostMoveOnBusySpace sp)
    else if s.backed sp a = false then step s = .fault (.unbackedAddress sp a)
    else
      (m = .memRead sp a → step s = .next (s.popped.giveBack ((s.byteAt sp a).setWidth 32)))
      ∧ (m = .memWrite sp a v → ∃ t, step s = .next t
          ∧ t.byteAt sp a = v ∧ s.onlyBytes t sp a 1
          ∧ t = { s.popped with
              dec := { s.dec with dsrc := t.dec.dsrc, dout := t.dec.dout }
              enc := { s.enc with esrc := t.enc.esrc, ebm := t.enc.ebm, efs := t.enc.efs } })

/-- R23: the codes of the run states; a run state changes in no other way than reset giving IDLE, a START
of a unit that is not BUSY giving BUSY, a BUSY unit's own step giving DONE or ERROR. -/
def Obligations.RunStateTransitions : Prop :=
  (runStateCode .idle = 0 ∧ runStateCode .busy = 1 ∧ runStateCode .done = 2
    ∧ runStateCode .error = 3)
  ∧ ∀ (s t : State) (u : UnitId), step s = .next t →
    (s.agenda.head? = some .reset → t.runStateOf u = .idle)
    ∧ (s.agenda.head? ≠ some .reset → s.runStateOf u ≠ .busy →
        (∀ v i, s.agenda.head? = some (.host (.regWrite u 0x00 v)) → decodeCommand u v = .ok i →
          t.runStateOf u = .busy)
        ∧ (t.runStateOf u ≠ s.runStateOf u → t.runStateOf u = .busy
          ∧ ∃ v i, s.agenda.head? = some (.host (.regWrite u 0x00 v)) ∧ decodeCommand u v = .ok i))
    ∧ (s.agenda.head? ≠ some .reset → s.runStateOf u = .busy →
        t.runStateOf u = .busy
        ∨ ((t.runStateOf u = .done ∨ t.runStateOf u = .error)
            ∧ match u with
              | .dec => s.decMoves
              | .enc => s.encMoves))

/-- During a run nothing but a reset changes the unit's configuration, whoever moves (R191, R197). -/
def Obligations.ConfigurationIsFrozenWhileBusy : Prop :=
  ∀ s t : State, step s = .next t → s.agenda.head? ≠ some .reset →
    (s.dec.runState = .busy →
      t.dec.cfg = s.dec.cfg ∧ t.dec.window = s.dec.window ∧ t.dec.srcLen = s.dec.srcLen)
    ∧ (s.enc.runState = .busy →
      t.enc.cfg = s.enc.cfg ∧ t.enc.window = s.enc.window
      ∧ t.enc.minMatch = s.enc.minMatch ∧ t.enc.inLen = s.enc.inLen)

/-- A unit that is not BUSY takes no step; with no turn pending and neither unit BUSY the machine stays
as it is (R17, R229; log entries 1 and 17). -/
def Obligations.UnitAtRestDoesNothing : Prop :=
  ∀ s : State,
    (s.dec.runState ≠ .busy → decTurn s = .next s)
    ∧ (s.enc.runState ≠ .busy → encTurn s = .next s)
    ∧ (s.dec.runState ≠ .busy → s.enc.runState ≠ .busy → s.agenda = [] → step s = .next s)

/-! The encoder (40_encoder.md). -/

/-- R132 with the checks of R201. -/
def Obligations.EncoderBeginChecksAndClears : Prop :=
  ∀ s : State, s.encMoves → s.enc.phase = .begin_ →
    ∃ t, step s = .next t ∧ s.popped.onlyEnc t ∧
      if ¬ (s.enc.cfg.offsetBits.toNat + s.enc.cfg.lengthBits.toNat = 16
            ∧ s.enc.window.toNat ≤ 2 ^ s.enc.cfg.offsetBits.toNat)
          ∨ s.enc.minMatch.toNat < 2 then
        t.enc = s.enc.failed .configMismatch
      else if s.plat.esrcCap < s.enc.inLen.toNat ∨ s.plat.efsCap < s.enc.inLen.toNat
          ∨ s.plat.ebmCap < ceil8 s.enc.inLen.toNat then
        t.enc = s.enc.failed .capacity
      else
        t.enc = { s.enc with
          pos := 0, opCount := 0, fsLen := 0, bmLen := 0, uncompSize := 0, bmAcc := 0
          phase := .pos }

/-- R133: the limits of the search, as naturals. -/
def Obligations.PosStepSetsUpTheSearch : Prop :=
  ∀ s : State, s.Inv → s.encMoves → s.enc.phase = .pos →
    ∃ t, step s = .next t ∧ s.popped.onlyEnc t ∧
      if s.enc.pos = s.enc.inLen then t.enc = { s.enc with phase := .flush }
      else
        t.enc.cap.toNat =
          min (2 ^ s.enc.cfg.lengthBits.toNat) (s.enc.inLen.toNat - s.enc.pos.toNat)
        ∧ t.enc.dmax.toNat = min s.enc.pos.toNat s.enc.window.toNat
        ∧ t.enc = { s.enc with
            cap := t.enc.cap, dmax := t.enc.dmax
            bestLen := 0, bestOff := 0, scanD := 1, phase := .scan }

/-- R122: the match length is the largest for which the two ranges agree byte for byte. -/
def Obligations.MatchLengthIsLargest : Prop :=
  ∀ (s : State) (i pos cap : Nat),
    let m := matchLen s i pos cap
    m ≤ cap ∧ (∀ k < m, s.byteAt .esrc (i + k) = s.byteAt .esrc (pos + k))
    ∧ ∀ n, n ≤ cap → (∀ k < n, s.byteAt .esrc (i + k) = s.byteAt .esrc (pos + k)) → n ≤ m

/-- R134: one candidate offset; only a strictly longer match replaces the best one. -/
def Obligations.ScanStepTriesOneOffset : Prop :=
  ∀ s : State, s.Inv → s.encMoves → s.enc.phase = .scan →
    let d := s.enc.scanD.toNat
    let m := matchLen s (s.enc.pos.toNat - d) s.enc.pos.toNat s.enc.cap.toNat
    ∃ t, step s = .next t ∧ s.popped.onlyEnc t ∧
      if s.enc.dmax.toNat < d ∨ s.enc.bestLen = s.enc.cap then
        t.enc = { s.enc with phase := .emit }
      else if s.enc.bestLen.toNat < m then
        t.enc = { s.enc with
          bestLen := toCount m, bestOff := s.enc.scanD, scanD := toCount (d + 1) }
        ∧ t.enc.bestLen.toNat = m ∧ t.enc.scanD.toNat = d + 1
      else
        t.enc = { s.enc with scanD := toCount (d + 1) } ∧ t.enc.scanD.toNat = d + 1

/-- R124: the best match of the reference function is the longest over the window, with the smallest
offset that attains it, and (0, 0) when nothing matches. -/
def Obligations.BestMatchIsTheNearestLongest : Prop :=
  ∀ (input : List Byte) (l w pos : Nat), pos < input.length →
    let r := (bestMatch input l w pos).1
    let d := (bestMatch input l w pos).2
    let len (d : Nat) := refMatchLen input (pos - d) pos (min (2 ^ l) (input.length - pos))
    (∀ d', 1 ≤ d' → d' ≤ min pos w → len d' ≤ r)
    ∧ (if r = 0 then d = 0
       else 1 ≤ d ∧ d ≤ min pos w ∧ len d = r ∧ ∀ d', 1 ≤ d' → d' < d → len d' < r)

/-- When the search is over, the unit's registers hold the best match of the reference function on the
input buffer (R124, R134): in every state of the invariant in phase `EMIT`. -/
def Obligations.SearchFindsTheBestMatch : Prop :=
  ∀ s : State, s.Inv → s.enc.phase = .emit →
    (s.enc.bestLen.toNat, s.enc.bestOff.toNat) =
      bestMatch (s.slice .esrc 0 s.enc.inLen.toNat) s.enc.cfg.lengthBits.toNat
        s.enc.window.toNat s.enc.pos.toNat

/-- R126 in step `EMIT`, with the control bit of R128: the entry byte goes to `EFS`, a 0 to the bitmap. -/
def Obligations.EmitStepWritesALiteral : Prop :=
  ∀ s : State, s.Inv → s.encMoves → s.enc.phase = .emit →
    s.enc.bestLen.toNat < s.enc.minMatch.toNat →
    ∃ t, step s = .next t ∧ s.popped.onlyEnc t
      ∧ t.enc = { s.enc with
          fsLen := toWord (s.enc.fsLen.toNat + 1), pos := toWord (s.enc.pos.toNat + 1)
          opCount := toWord (s.enc.opCount.toNat + 1)
          bmAcc := if s.enc.opCount.toNat % 8 = 7 then 0 else s.enc.bmAcc
          phase := .pos, ebm := t.enc.ebm, efs := t.enc.efs }
      ∧ ∀ sp x, t.byteAt sp x =
          if sp = .efs ∧ x = s.enc.fsLen.toNat then s.byteAt .esrc s.enc.pos.toNat
          else if sp = .ebm ∧ x = s.enc.opCount.toNat / 8 ∧ s.enc.opCount.toNat % 8 = 7 then
            s.enc.bmAcc
          else s.byteAt sp x

/-- R127 in step `EMIT`, with the control bit of R128: the operands are in range, the packed field goes
to `EFS`, low byte first, a 1 to the bitmap; offset and length are stored minus one. -/
def Obligations.EmitStepWritesABackReference : Prop :=
  ∀ s : State, s.Inv → s.encMoves → s.enc.phase = .emit →
    s.enc.minMatch.toNat ≤ s.enc.bestLen.toNat →
    let field := (s.enc.bestOff.toNat - 1) * 2 ^ s.enc.cfg.lengthBits.toNat
      + (s.enc.bestLen.toNat - 1)
    let acc := toByte (s.enc.bmAcc.toNat + 2 ^ (s.enc.opCount.toNat % 8))
    ∃ t, step s = .next t ∧ s.popped.onlyEnc t ∧ field < 2 ^ 16
      ∧ 1 ≤ s.enc.bestOff.toNat
      ∧ s.enc.bestOff.toNat ≤ min s.enc.pos.toNat s.enc.window.toNat
      ∧ s.enc.window.toNat ≤ 2 ^ s.enc.cfg.offsetBits.toNat
      ∧ s.enc.bestLen.toNat ≤ s.enc.cap.toNat
      ∧ s.enc.cap.toNat ≤ 2 ^ s.enc.cfg.lengthBits.toNat
      ∧ t.enc = { s.enc with
          fsLen := toWord (s.enc.fsLen.toNat + 2)
          pos := toWord (s.enc.pos.toNat + s.enc.bestLen.toNat)
          opCount := toWord (s.enc.opCount.toNat + 1)
          bmAcc := if s.enc.opCount.toNat % 8 = 7 then 0 else acc
          phase := .pos, ebm := t.enc.ebm, efs := t.enc.efs }
      ∧ ∀ sp x, t.byteAt sp x =
          if sp = .efs ∧ x = s.enc.fsLen.toNat then toByte (field % 256)
          else if sp = .efs ∧ x = s.enc.fsLen.toNat + 1 then toByte (field / 256)
          else if sp = .ebm ∧ x = s.enc.opCount.toNat / 8 ∧ s.enc.opCount.toNat % 8 = 7 then acc
          else s.byteAt sp x

/-- R136: the last partial bitmap byte, the result registers, the end of the run. -/
def Obligations.FlushStepEndsTheRun : Prop :=
  ∀ s : State, s.Inv → s.encMoves → s.enc.phase = .flush →
    let n := s.enc.opCount.toNat
    ∃ t, step s = .next t ∧ s.popped.onlyEnc t
      ∧ t.enc = { s.enc with
          bmLen := toWord ((n + 7) / 8), uncompSize := s.enc.inLen, bmAcc := 0
          runState := .done, phase := .halt, ebm := t.enc.ebm }
      ∧ ∀ sp x, t.byteAt sp x =
          if sp = .ebm ∧ x = n / 8 ∧ n % 8 ≠ 0 then s.enc.bmAcc else s.byteAt sp x

/-- The frame of every encoder step: nothing outside `ENC`, no configuration register, no byte of
`ESRC`; `EFS` only below `IN_LEN`, `EBM` only below `ceil8(IN_LEN)` (R66, R53). -/
def Obligations.EncoderStepFrame : Prop :=
  ∀ s t : State, s.Inv → s.encMoves → step s = .next t →
    s.popped.onlyEnc t
    ∧ t.enc.cfg = s.enc.cfg ∧ t.enc.window = s.enc.window
    ∧ t.enc.minMatch = s.enc.minMatch ∧ t.enc.inLen = s.enc.inLen
    ∧ (∀ x, t.byteAt .esrc x = s.byteAt .esrc x)
    ∧ (∀ x, s.enc.inLen.toNat ≤ x → t.byteAt .efs x = s.byteAt .efs x)
    ∧ (∀ x, ceil8 s.enc.inLen.toNat ≤ x → t.byteAt .ebm x = s.byteAt .ebm x)

/-! Reset, and what holds of the whole machine. -/

/-- R57: every register has its reset value, right after power-on and after the reset event in any
state. That `CTRL` and the reserved offsets read 0 is R30 and R42; that an offset that is no multiple of 4
does is log entry 7. -/
def Obligations.ResetPutsEveryRegisterInItsResetState : Prop :=
  State.reset.registersReset
  ∧ ∀ (s : State) (turns : List Turn), s.agenda = .reset :: turns →
      ∃ t, step s = .next t ∧ t.registersReset

/-- Memory at a reset (R57, R251; log entries 4 and 15): after power-on no byte is written; after the
reset event a byte is written, with the value it had, exactly where a run that was in progress past
`BEGIN` had written it: the zero-filled output, the emitted entries, the completed bitmap bytes. Every
other byte is unwritten in an epoch of its own, so its content is a free value again. -/
def Obligations.ResetKeepsOnlyAnAbandonedRunsOutput : Prop :=
  (∀ sp x, (State.reset.mem sp).lookup x = none)
  ∧ ∀ (s : State) (turns : List Turn), s.agenda = .reset :: turns →
      ∃ t, step s = .next t ∧ t.epoch = s.epoch + 1
        ∧ ∀ sp x, (t.mem sp).lookup x =
          if (sp = .dout ∧ s.dec.running ∧ x < s.dec.uncompSize.toNat)
              ∨ (sp = .efs ∧ s.enc.running ∧ x < s.enc.fsLen.toNat)
              ∨ (sp = .ebm ∧ s.enc.running ∧ x < s.enc.opCount.toNat / 8) then
            (s.mem sp).lookup x
          else none

/-- The reset state meets the invariant. -/
def Obligations.ResetMeetsTheInvariant : Prop :=
  State.reset.Inv

/-- Every step keeps the invariant (R54, R55, R58, R25, and the canonical form of the spaces). -/
def Obligations.StepKeepsTheInvariant : Prop :=
  ∀ s t : State, s.Inv → step s = .next t → t.Inv

/-- In a state of the invariant the only turn that does not answer a next state is a memory move of the
host on a BUSY unit's space or at an address that is not backed: no unit's step stops, no access of a
unit leaves its bounds (R66, R150, R229). That a host write to `EBM` or `EFS` of a unit that is not BUSY
does not stop is log entry 16. -/
def Obligations.OnlyHostMemoryMovesStop : Prop :=
  ∀ s : State, s.Inv →
    (∃ t, step s = .next t)
    ∨ ∃ (sp : Space) (a : Nat) (turns : List Turn),
        ((∃ v, s.agenda = .host (.memWrite sp a v) :: turns)
          ∨ s.agenda = .host (.memRead sp a) :: turns)
        ∧ (s.runStateOf (spaceOwner sp) = .busy ∨ s.backed sp a = false)

/-- A unit's step depends on that unit alone, on the capacities and on what unwritten memory holds:
whatever the other unit, the pending turns and the host's earlier reads are, it gives the same unit
(R20, R21, R236). -/
def Obligations.UnitsAreIndependent : Prop :=
  ∀ s s' t : State, s'.plat = s.plat → s'.epoch = s.epoch →
    (s'.dec = s.dec → decTurn s = .next t → ∃ t', decTurn s' = .next t' ∧ t'.dec = t.dec)
    ∧ (s'.enc = s.enc → encTurn s = .next t → ∃ t', encTurn s' = .next t' ∧ t'.enc = t.enc)

/-- The capacities never change, and the unknown contents of unwritten bytes change at a reset alone
(R10, R78; log entries 3 and 4). -/
def Obligations.PlatformAndUnwrittenBytesAreStable : Prop :=
  ∀ s t : State, step s = .next t →
    t.plat = s.plat
    ∧ (s.agenda.head? ≠ some .reset →
        ∀ sp x, (t.mem sp).lookup x = none → t.byteAt sp x = s.byteAt sp x)

/-! Whole runs. -/

/-- A decoder run past `BEGIN` ends, within the steps of R166, when the decoder has the turns
(log entry 1). -/
def Obligations.DecoderRunEnds : Prop :=
  ∀ s : State, s.Inv → s.agenda = [] → s.dec.running →
    ∃ k t, k ≤ 1 + 2 * s.dec.opCount.toNat + 1 + s.dec.uncompSize.toNat + s.dec.opCount.toNat
      ∧ core.run k s = .next t ∧ (t.dec.runState = .done ∨ t.dec.runState = .error)

/-- An encoder run ends, within the steps of R143, when the encoder has the turns (log entry 1). -/
def Obligations.EncoderRunEnds : Prop :=
  ∀ s : State, s.Inv → s.agenda = [] → s.dec.runState ≠ .busy → s.enc.runState = .busy →
    ∃ k t, k ≤ s.enc.inLen.toNat * (s.enc.window.toNat + 3) + 3
      ∧ core.run k s = .next t ∧ (t.enc.runState = .done ∨ t.enc.runState = .error)

/-- R170, when the decoder has the turns (log entry 1): a run whose `BEGIN` raised nothing ends with what
`Decode` (R151) yields for the block, and leaves `DSRC` as it was. -/
def Obligations.DecoderComputesDecode : Prop :=
  ∀ s s₁ : State, s.Inv → s.agenda = [] → s.dec.phase = .begin_ →
    step s = .next s₁ → s₁.dec.runState = .busy →
    ∃ k t, core.run k s₁ = .next t ∧ s₁.onlyDec t
      ∧ (∀ x, t.byteAt .dsrc x = s.byteAt .dsrc x)
      ∧ match decodeBlock s₁.dec.cfg.lengthBits.toNat s₁.dec.cfg.strict s₁.decBlock with
        | .ok out produced underfill =>
          t.dec.runState = .done ∧ t.slice .dout 0 t.dec.uncompSize.toNat = out
          ∧ t.dec.outPos.toNat = produced ∧ t.dec.underfill = underfill
        | .err kind => t.dec.runState = .error ∧ t.dec.err = some kind

/-- R140, when the encoder has the turns (log entry 1): a run whose `BEGIN` raised nothing ends in DONE
with the block that `Compress` (R121) yields for the input, and leaves `ESRC` as it was. The run writes
nothing of `EBM` from `BM_LEN` on nor of `EFS` from `FS_LEN` on (R136). -/
def Obligations.EncoderComputesCompress : Prop :=
  ∀ s s₁ : State, s.Inv → s.agenda = [] → s.dec.runState ≠ .busy → s.enc.phase = .begin_ →
    step s = .next s₁ → s₁.enc.runState = .busy →
    ∃ k t, core.run k s₁ = .next t ∧ s₁.onlyEnc t ∧ t.enc.runState = .done
      ∧ (∀ x, t.byteAt .esrc x = s.byteAt .esrc x)
      ∧ (∀ x, t.enc.bmLen.toNat ≤ x → t.byteAt .ebm x = s.byteAt .ebm x)
      ∧ (∀ x, t.enc.fsLen.toNat ≤ x → t.byteAt .efs x = s.byteAt .efs x)
      ∧ t.encBlock = compress (s.slice .esrc 0 s.enc.inLen.toNat) s.enc.cfg.lengthBits.toNat
          s.enc.window.toNat s.enc.minMatch.toNat

/-- R145: every back-reference of a compressed input is inside the window and at least `MINM` long, and
the result's sizes are bounded by the input's. -/
def Obligations.CompressKeepsItsBounds : Prop :=
  ∀ (input : List Byte) (l w minm : Nat), l ≤ 16 → w ≤ 2 ^ (16 - l) → 2 ≤ minm →
    let b := compress input l w minm
    (∀ i < b.opCount, ∀ offset length, b.operation l i = .ref offset length →
      minm ≤ length ∧ length ≤ 2 ^ l ∧ 1 ≤ offset ∧ offset ≤ w)
    ∧ b.opCount ≤ input.length ∧ b.fields.length ≤ input.length
    ∧ b.bitmap.length = (b.opCount + 7) / 8

/-- R141: every compressed block is well-formed (R107), and decoding it under the same split, in either
mode, gives the input back with no under-fill. -/
def Obligations.RoundTrip : Prop :=
  ∀ (input : List Byte) (l w minm : Nat) (strict : Bool), l ≤ 16 → w ≤ 2 ^ (16 - l) → 2 ≤ minm →
    (compress input l w minm).wellFormed l
    ∧ decodeBlock l strict (compress input l w minm) = .ok input input.length false
end

