-- ==== Sys2Proof/Laws/State.lean ====
section
/-! SUPPORT. What every named update of the state does to every field, by `rfl`. -/

namespace Sys2Proof.Machine

variable (s : State) (d : Dec) (e : Enc) (ts : List Turn) (v : Word) (m : Memory)

@[simp] theorem State.setDec_dec : (s.setDec d).dec = d := rfl
@[simp] theorem State.setDec_enc : (s.setDec d).enc = s.enc := rfl
@[simp] theorem State.setDec_plat : (s.setDec d).plat = s.plat := rfl
@[simp] theorem State.setDec_agenda : (s.setDec d).agenda = s.agenda := rfl
@[simp] theorem State.setDec_returned : (s.setDec d).returned = s.returned := rfl
@[simp] theorem State.setDec_epoch : (s.setDec d).epoch = s.epoch := rfl

@[simp] theorem State.setEnc_dec : (s.setEnc e).dec = s.dec := rfl
@[simp] theorem State.setEnc_enc : (s.setEnc e).enc = e := rfl
@[simp] theorem State.setEnc_plat : (s.setEnc e).plat = s.plat := rfl
@[simp] theorem State.setEnc_agenda : (s.setEnc e).agenda = s.agenda := rfl
@[simp] theorem State.setEnc_returned : (s.setEnc e).returned = s.returned := rfl
@[simp] theorem State.setEnc_epoch : (s.setEnc e).epoch = s.epoch := rfl

@[simp] theorem State.setAgenda_dec : (s.setAgenda ts).dec = s.dec := rfl
@[simp] theorem State.setAgenda_enc : (s.setAgenda ts).enc = s.enc := rfl
@[simp] theorem State.setAgenda_plat : (s.setAgenda ts).plat = s.plat := rfl
@[simp] theorem State.setAgenda_agenda : (s.setAgenda ts).agenda = ts := rfl
@[simp] theorem State.setAgenda_returned : (s.setAgenda ts).returned = s.returned := rfl
@[simp] theorem State.setAgenda_epoch : (s.setAgenda ts).epoch = s.epoch := rfl

@[simp] theorem State.giveBack_dec : (s.giveBack v).dec = s.dec := rfl
@[simp] theorem State.giveBack_enc : (s.giveBack v).enc = s.enc := rfl
@[simp] theorem State.giveBack_plat : (s.giveBack v).plat = s.plat := rfl
@[simp] theorem State.giveBack_agenda : (s.giveBack v).agenda = s.agenda := rfl
@[simp] theorem State.giveBack_returned : (s.giveBack v).returned = v :: s.returned := rfl
@[simp] theorem State.giveBack_epoch : (s.giveBack v).epoch = s.epoch := rfl

@[simp] theorem State.setMem_dsrc :
    s.setMem .dsrc m = s.setDec { s.dec with dsrc := m } := rfl
@[simp] theorem State.setMem_dout :
    s.setMem .dout m = s.setDec { s.dec with dout := m } := rfl
@[simp] theorem State.setMem_esrc :
    s.setMem .esrc m = s.setEnc { s.enc with esrc := m } := rfl
@[simp] theorem State.setMem_ebm :
    s.setMem .ebm m = s.setEnc { s.enc with ebm := m } := rfl
@[simp] theorem State.setMem_efs :
    s.setMem .efs m = s.setEnc { s.enc with efs := m } := rfl

@[simp] theorem State.mem_dsrc : s.mem .dsrc = s.dec.dsrc := rfl
@[simp] theorem State.mem_dout : s.mem .dout = s.dec.dout := rfl
@[simp] theorem State.mem_esrc : s.mem .esrc = s.enc.esrc := rfl
@[simp] theorem State.mem_ebm : s.mem .ebm = s.enc.ebm := rfl
@[simp] theorem State.mem_efs : s.mem .efs = s.enc.efs := rfl

@[simp] theorem State.runStateOf_dec : s.runStateOf .dec = s.dec.runState := rfl
@[simp] theorem State.runStateOf_enc : s.runStateOf .enc = s.enc.runState := rfl

variable (k : ErrorKind) (p : Nat) (mode : RunMode)

@[simp] theorem raise_dec :
    raise .dec k p s = s.setDec
      { s.dec with runState := .error, err := some k, phase := .halt, errPos := toWord p } := rfl
@[simp] theorem raise_enc :
    raise .enc k p s = s.setEnc
      { s.enc with runState := .error, err := some k, phase := .halt } := rfl

@[simp] theorem startRun_dec_enc : (startRun .dec mode s).enc = s.enc := rfl
@[simp] theorem startRun_enc_dec : (startRun .enc mode s).dec = s.dec := rfl
@[simp] theorem startRun_dec_dec : (startRun .dec mode s).dec =
    { s.dec with
      runState := .busy, err := none, underfill := false
      errPos := 0, opIdx := 0, fsPos := 0, outPos := 0
      mode := mode, phase := .begin_ } := rfl
@[simp] theorem startRun_enc_enc : (startRun .enc mode s).enc =
    { s.enc with
      runState := .busy, err := none
      uncompSize := 0, opCount := 0, bmLen := 0, fsLen := 0, pos := 0
      phase := .begin_ } := rfl
@[simp] theorem startRun_plat (u : UnitId) : (startRun u mode s).plat = s.plat := by
  cases u <;> rfl
@[simp] theorem startRun_agenda (u : UnitId) : (startRun u mode s).agenda = s.agenda := by
  cases u <;> rfl
@[simp] theorem startRun_returned (u : UnitId) : (startRun u mode s).returned = s.returned := by
  cases u <;> rfl
@[simp] theorem startRun_epoch (u : UnitId) : (startRun u mode s).epoch = s.epoch := by
  cases u <;> rfl

@[simp] theorem resetEvent_dec : (resetEvent s).dec =
    Dec.resetWith [] (s.dec.dout.keepBelow s.dec.doutWritten) := rfl
@[simp] theorem resetEvent_enc : (resetEvent s).enc =
    Enc.resetWith [] (s.enc.ebm.keepBelow s.enc.ebmWritten)
      (s.enc.efs.keepBelow s.enc.efsWritten) := rfl
@[simp] theorem resetEvent_plat : (resetEvent s).plat = s.plat := rfl
@[simp] theorem resetEvent_agenda : (resetEvent s).agenda = s.agenda := rfl
@[simp] theorem resetEvent_returned : (resetEvent s).returned = s.returned := rfl
@[simp] theorem resetEvent_epoch : (resetEvent s).epoch = s.epoch + 1 := rfl

/-- The output bytes a run in progress has written, in the words of 10_state.md R58. -/
theorem Dec.doutWritten_eq (d : Dec) :
    d.doutWritten = if d.running then d.uncompSize.toNat else 0 := by
  unfold Dec.doutWritten Dec.running
  split <;> simp_all

/-- A run of the encoder past `BEGIN`, in the words of 10_state.md R58. -/
@[simp] theorem Enc.emitting_iff (e : Enc) : e.emitting = true ↔ e.running := by
  unfold Enc.emitting Enc.running
  split <;> simp_all

/-- What a byte reads as depends on its space's written bytes and the epoch alone. -/
theorem State.byteAt_congr {s t : State} {sp : Space} (hm : t.mem sp = s.mem sp)
    (he : t.epoch = s.epoch) (a : Nat) : t.byteAt sp a = s.byteAt sp a := by
  simp only [State.byteAt, hm, he]

/-- Which addresses are backed depends on the platform alone. -/
theorem State.backed_congr {s t : State} (hp : t.plat = s.plat) (sp : Space) (a : Nat) :
    t.backed sp a = s.backed sp a := by
  simp only [State.backed, hp]

/-- The 32-bit registers hold the naturals that fit. -/
@[simp] theorem toNat_toWord {n : Nat} (h : n < 2 ^ 32) : (toWord n).toNat = n := by
  simp only [toWord, BitVec.toNat_ofNat]; omega

/-- The 17-bit registers hold the naturals that fit. -/
@[simp] theorem toNat_toCount {n : Nat} (h : n < 2 ^ 17) : (toCount n).toNat = n := by
  simp only [toCount, BitVec.toNat_ofNat]; omega

/-- A byte holds the naturals that fit. -/
@[simp] theorem toNat_toByte {n : Nat} (h : n < 2 ^ 8) : (toByte n).toNat = n := by
  simp only [toByte, BitVec.toNat_ofNat]; omega

end Sys2Proof.Machine
end

