-- ==== Sys2Proof/Laws/Memory.lean ====
section
/-! SUPPORT. The laws of a memory space: read after write, and every operation keeps the canonical
form. -/

namespace Sys2Proof.Machine

/-- Reading back what was written there. -/
@[simp] theorem Memory.lookup_write_same (m : Memory) (x : Nat) (v : Byte) :
    (m.write x v).lookup x = some v := by
  induction m with
  | nil => simp [Memory.write, Memory.lookup]
  | cons c rest ih =>
    obtain ⟨a, b⟩ := c
    simp only [Memory.write]
    split_ifs with h1 h2
    · simp [Memory.lookup]
    · simp [Memory.lookup]
    · simp [Memory.lookup, ih, Ne.symm h2]

/-- A write leaves every other address alone. -/
@[simp] theorem Memory.lookup_write_other (m : Memory) {x y : Nat} (v : Byte) (h : y ≠ x) :
    (m.write x v).lookup y = m.lookup y := by
  induction m with
  | nil => simp [Memory.write, Memory.lookup, Ne.symm h]
  | cons c rest ih =>
    obtain ⟨a, b⟩ := c
    simp only [Memory.write]
    split_ifs with h1 h2
    · simp [Memory.lookup, Ne.symm h]
    · subst h2; simp [Memory.lookup, Ne.symm h]
    · simp [Memory.lookup, ih]

/-- The addresses listed after a write are those listed before and the one written. -/
theorem Memory.mem_write {m : Memory} {x : Nat} {v : Byte} {c : Host.Cell}
    (h : c ∈ m.write x v) : c ∈ m ∨ c = (x, v) := by
  induction m with
  | nil => simp [Memory.write] at h; exact .inr h
  | cons d rest ih =>
    obtain ⟨a, b⟩ := d
    simp only [Memory.write] at h
    split_ifs at h with h1 h2
    · rcases List.mem_cons.mp h with h | h
      · exact .inr h
      · exact .inl h
    · rcases List.mem_cons.mp h with h | h
      · exact .inr h
      · exact .inl (List.mem_cons_of_mem _ h)
    · rcases List.mem_cons.mp h with h | h
      · exact .inl (h ▸ List.mem_cons_self ..)
      · exact (ih h).imp (List.mem_cons_of_mem _) id

/-- A write keeps addresses strictly rising. -/
theorem Memory.write_rising {m : Memory} (x : Nat) (v : Byte)
    (h : m.Pairwise fun c d => c.1 < d.1) : (m.write x v).Pairwise fun c d => c.1 < d.1 := by
  induction m with
  | nil => simp [Memory.write]
  | cons c rest ih =>
    obtain ⟨a, b⟩ := c
    have hrest := (List.pairwise_cons.mp h).2
    have hfirst := (List.pairwise_cons.mp h).1
    simp only [Memory.write]
    split_ifs with h1 h2
    · refine List.pairwise_cons.mpr ⟨?_, h⟩
      intro d hd
      rcases List.mem_cons.mp hd with rfl | hd
      · exact h1
      · exact Nat.lt_trans h1 (hfirst d hd)
    · subst h2
      exact List.pairwise_cons.mpr ⟨hfirst, hrest⟩
    · refine List.pairwise_cons.mpr ⟨?_, ih hrest⟩
      intro d hd
      rcases Memory.mem_write hd with hd | rfl
      · exact hfirst d hd
      · show a < x
        omega

/-- A write inside the address space keeps the canonical form. -/
theorem Memory.write_wf {m : Memory} {x : Nat} (v : Byte) (h : m.wf) (hx : x < 2 ^ 32) :
    (m.write x v).wf := by
  refine ⟨Memory.write_rising x v h.1, fun c hc => ?_⟩
  rcases Memory.mem_write hc with hc | rfl
  · exact h.2 c hc
  · exact hx

/-- A write below a bound keeps every listed address below it. -/
theorem Memory.write_below {m : Memory} {x bound : Nat} (v : Byte)
    (h : ∀ c ∈ m, c.1 < bound) (hx : x < bound) : ∀ c ∈ m.write x v, c.1 < bound := by
  intro c hc
  rcases Memory.mem_write hc with hc | rfl
  · exact h c hc
  · exact hx

/-- The zero-fill one byte further. -/
theorem Memory.zeroFill_succ (m : Memory) (n : Nat) :
    m.zeroFill (n + 1) = (m.zeroFill n).write n 0 := by
  simp [Memory.zeroFill, List.range_succ]

@[simp] theorem Memory.zeroFill_zero (m : Memory) : m.zeroFill 0 = m := rfl

/-- After the zero-fill the first `n` bytes are 0 and the others are as before. -/
theorem Memory.lookup_zeroFill (m : Memory) (n x : Nat) :
    (m.zeroFill n).lookup x = if x < n then some 0 else m.lookup x := by
  induction n with
  | zero => simp
  | succ n ih =>
    rw [Memory.zeroFill_succ]
    by_cases hx : x = n
    · subst hx; simp
    · rw [Memory.lookup_write_other _ _ hx, ih]
      have : x < n + 1 ↔ x < n := by omega
      simp [this]

/-- The zero-fill keeps the canonical form. -/
theorem Memory.zeroFill_wf {m : Memory} {n : Nat} (h : m.wf) (hn : n ≤ 2 ^ 32) :
    (m.zeroFill n).wf := by
  induction n with
  | zero => exact h
  | succ n ih =>
    rw [Memory.zeroFill_succ]
    exact Memory.write_wf 0 (ih (by omega)) (by omega)

/-- The zero-fill below a bound keeps every listed address below it. -/
theorem Memory.zeroFill_below {m : Memory} {n bound : Nat} (h : ∀ c ∈ m, c.1 < bound)
    (hn : n ≤ bound) : ∀ c ∈ m.zeroFill n, c.1 < bound := by
  induction n with
  | zero => exact h
  | succ n ih =>
    rw [Memory.zeroFill_succ]
    exact Memory.write_below 0 (ih (by omega)) (by omega)

/-- What is kept reads as before, and the rest is unwritten. -/
theorem Memory.lookup_keepBelow (m : Memory) (n x : Nat) :
    (m.keepBelow n).lookup x = if x < n then m.lookup x else none := by
  induction m with
  | nil => simp [Memory.keepBelow, Memory.lookup]
  | cons c rest ih =>
    obtain ⟨a, b⟩ := c
    have hc : Memory.keepBelow ((a, b) :: rest) n =
        if a < n then (a, b) :: Memory.keepBelow rest n else Memory.keepBelow rest n := by
      simp [Memory.keepBelow, List.filter_cons]
    rw [hc]
    by_cases hx : a = x
    · subst hx
      by_cases ha : a < n <;> simp [ha, Memory.lookup, ih]
    · split_ifs <;> simp_all [Memory.lookup]

@[simp] theorem Memory.keepBelow_zero (m : Memory) : m.keepBelow 0 = [] := by
  simp [Memory.keepBelow]

/-- What is kept was there. -/
theorem Memory.mem_keepBelow {m : Memory} {n : Nat} {c : Host.Cell} (h : c ∈ m.keepBelow n) : c ∈ m :=
  (List.mem_filter.mp h).1

/-- Keeping a part keeps the canonical form. -/
theorem Memory.keepBelow_wf {m : Memory} (n : Nat) (h : m.wf) : (m.keepBelow n).wf :=
  ⟨h.1.filter _, fun c hc => h.2 c (Memory.mem_keepBelow hc)⟩

/-- Keeping a part keeps every listed address below a bound. -/
theorem Memory.keepBelow_below {m : Memory} {n bound : Nat} (h : ∀ c ∈ m, c.1 < bound) :
    ∀ c ∈ m.keepBelow n, c.1 < bound :=
  fun c hc => h c (Memory.mem_keepBelow hc)

/-- The memory of the reset state is in canonical form. -/
theorem State.reset_spacesOk : State.reset.spacesOk := by decide

/-- A byte just written reads as written. -/
@[simp] theorem State.byteAt_setMem_same (s : State) (sp : Space) (a : Nat) (v : Byte) :
    (s.setMem sp ((s.mem sp).write a v)).byteAt sp a = v := by
  cases sp <;> simp [State.byteAt]

/-- A write leaves every other byte of its space alone. -/
@[simp] theorem State.byteAt_setMem_other (s : State) (sp : Space) {a x : Nat} (v : Byte)
    (h : x ≠ a) : (s.setMem sp ((s.mem sp).write a v)).byteAt sp x = s.byteAt sp x := by
  cases sp <;> simp [State.byteAt, h]

/-- A write leaves every other space alone. -/
@[simp] theorem State.byteAt_setMem_space (s : State) {sp sp' : Space} (m : Memory) (x : Nat)
    (h : sp' ≠ sp) : (s.setMem sp m).byteAt sp' x = s.byteAt sp' x := by
  cases sp <;> cases sp' <;> first | exact absurd rfl h | rfl

end Sys2Proof.Machine
end

