-- ==== Sys2Proof/Laws/Ops.lean ====
section
/-! SUPPORT. For each shared operation, once, everything it can do. -/

namespace Sys2Proof.Machine

variable {s t : State} {sp : Space} {a : Nat}

theorem load_of_backed (h : s.backed sp a = true) (k : Byte → Result) :
    load sp a s k = k (s.byteAt sp a) := by
  simp [load, h]

/-- A load goes on with the byte, or faults because the address is not backed. -/
theorem load_cases (k : Byte → Result) :
    (s.backed sp a = true ∧ load sp a s k = k (s.byteAt sp a)) ∨
    (s.backed sp a = false ∧ load sp a s k = .fault (.unbackedAddress sp a)) := by
  cases h : s.backed sp a <;> simp [load, h]

theorem load_next {k : Byte → Result} (h : load sp a s k = .next t) :
    s.backed sp a = true ∧ k (s.byteAt sp a) = .next t := by
  rcases load_cases (s := s) (sp := sp) (a := a) k with ⟨hb, hk⟩ | ⟨_, hk⟩
  · exact ⟨hb, hk ▸ h⟩
  · rw [hk] at h; cases h

theorem store_of_backed {v : Byte} (h : s.backed sp a = true) (k : State → Result) :
    store sp a v s k = k (s.setMem sp ((s.mem sp).write a v)) := by
  simp [store, h]

/-- A store goes on with the byte written, or faults because the address is not backed. -/
theorem store_cases {v : Byte} (k : State → Result) :
    (s.backed sp a = true ∧ store sp a v s k = k (s.setMem sp ((s.mem sp).write a v))) ∨
    (s.backed sp a = false ∧ store sp a v s k = .fault (.unbackedAddress sp a)) := by
  cases h : s.backed sp a <;> simp [store, h]

theorem store_next {v : Byte} {k : State → Result} (h : store sp a v s k = .next t) :
    s.backed sp a = true ∧ k (s.setMem sp ((s.mem sp).write a v)) = .next t := by
  rcases store_cases (s := s) (sp := sp) (a := a) (v := v) k with ⟨hb, hk⟩ | ⟨_, hk⟩
  · exact ⟨hb, hk ▸ h⟩
  · rw [hk] at h; cases h

/-- A smaller address is backed where a larger one is. -/
theorem State.backed_mono {b : Nat} (h : s.backed sp b = true) (hab : a ≤ b) :
    s.backed sp a = true := by
  simp only [State.backed, decide_eq_true_eq] at *
  omega

/-- An address below a limit that the capacity and 2^32 do not exceed is backed. -/
theorem State.backed_of_lt {n : Nat} (ha : a < n) (hc : n ≤ platformCap s.plat sp)
    (h32 : n ≤ 2 ^ 32) : s.backed sp a = true := by
  simp only [State.backed, decide_eq_true_eq]
  omega

/-- The bytes of a slice, first byte first. -/
theorem State.slice_succ (s : State) (sp : Space) (a n : Nat) :
    s.slice sp a (n + 1) = s.byteAt sp a :: s.slice sp (a + 1) n := by
  simp only [State.slice, List.range_succ_eq_map, List.map_cons, List.map_map, Nat.add_zero]
  refine congrArg _ (List.map_congr_left fun j _ => ?_)
  simp only [Function.comp, Nat.succ_eq_add_one]
  congr 1; omega

@[simp] theorem State.slice_zero (s : State) (sp : Space) (a : Nat) : s.slice sp a 0 = [] := rfl

@[simp] theorem State.slice_length (s : State) (sp : Space) (a n : Nat) :
    (s.slice sp a n).length = n := by
  simp [State.slice]

/-- Successive loads of backed bytes give the slice. -/
theorem loadBytes_of_backed {n : Nat} (h : ∀ j < n, s.backed sp (a + j) = true)
    (k : List Byte → Result) : loadBytes sp a s n k = k (s.slice sp a n) := by
  induction n generalizing a k with
  | zero => rfl
  | succ n ih =>
    have h0 : s.backed sp a = true := by simpa using h 0 (by omega)
    rw [loadBytes, load_of_backed h0, ih, State.slice_succ]
    intro j hj
    have := h (j + 1) (by omega)
    rwa [show a + 1 + j = a + (j + 1) by omega]

/-- Loads that go on have read backed bytes, and go on with the slice. -/
theorem loadBytes_next {n : Nat} {k : List Byte → Result} (h : loadBytes sp a s n k = .next t) :
    (∀ j < n, s.backed sp (a + j) = true) ∧ k (s.slice sp a n) = .next t := by
  induction n generalizing a k with
  | zero => exact ⟨fun j hj => absurd hj (by omega), h⟩
  | succ n ih =>
    obtain ⟨h0, h⟩ := load_next h
    obtain ⟨hb, h⟩ := ih h
    refine ⟨fun j hj => ?_, by rw [State.slice_succ]; exact h⟩
    cases j with
    | zero => simpa using h0
    | succ j =>
      have := hb j (by omega)
      rwa [show a + 1 + j = a + (j + 1) by omega] at this

/-- A 32-bit load of backed bytes is their little-endian value (20_memory.md R61). -/
theorem load32_of_backed (h : s.backed sp (a + 3) = true) (k : Nat → Result) :
    load32 sp a s k =
      k (le32 (s.byteAt sp a) (s.byteAt sp (a + 1)) (s.byteAt sp (a + 2)) (s.byteAt sp (a + 3))) := by
  rw [load32, load_of_backed (State.backed_mono h (by omega)),
    load_of_backed (State.backed_mono h (by omega)), load_of_backed (State.backed_mono h (by omega)),
    load_of_backed h]

theorem load32_next {k : Nat → Result} (h : load32 sp a s k = .next t) :
    k (le32 (s.byteAt sp a) (s.byteAt sp (a + 1)) (s.byteAt sp (a + 2)) (s.byteAt sp (a + 3)))
      = .next t :=
  (load_next (load_next (load_next (load_next h).2).2).2).2

/-- A value of four bytes fits a register. -/
theorem le32_lt (b0 b1 b2 b3 : Byte) : le32 b0 b1 b2 b3 < 2 ^ 32 := by
  simp only [le32]
  have := b0.isLt; have := b1.isLt; have := b2.isLt; have := b3.isLt
  omega

/-- A packed field has 16 bits. -/
theorem le16_lt (b0 b1 : Byte) : le16 b0 b1 < 2 ^ 16 := by
  simp only [le16]
  have := b0.isLt; have := b1.isLt
  omega

/-- A back-reference begins its copy, or its entry is missing (41_decoder.md R157). -/
theorem beginCopy_cases (offset length : Nat) (s : State) :
    (s.dec.entryMissing 2 = true ∧ beginCopy offset length s = .next (raiseEntryMissing s)) ∨
    (s.dec.entryMissing 2 = false ∧ beginCopy offset length s = .next (s.setDec
      { s.dec with
        curOffset := toCount offset, curRemain := toCount length
        fsPos := toWord (s.dec.fsPos.toNat + 2), phase := .copy })) := by
  cases h : s.dec.entryMissing 2 <;> simp [beginCopy, h]

/-- A START begins a run, or is ignored (42_host_commands.md R191). -/
theorem startUnlessBusy_cases (u : UnitId) (mode : RunMode) (s : State) :
    (s.runStateOf u = .busy ∧ startUnlessBusy u mode s = .next s) ∨
    (s.runStateOf u ≠ .busy ∧ startUnlessBusy u mode s = .next (startRun u mode s)) := by
  by_cases h : s.runStateOf u = .busy <;> simp [startUnlessBusy, h]

/-- The two windows lie inside the extent, or one of them raises (42_host_commands.md R195). -/
theorem checkWindows_cases (s : State) (k : State → Result) :
    (∃ p, checkWindows s k = .next (raise .dec .truncatedInput p s)) ∨
    (s.dec.bmBase.toNat + s.dec.bmLen.toNat ≤ s.dec.srcLen.toNat ∧
      s.dec.fsBase.toNat + s.dec.fsLen.toNat ≤ s.dec.srcLen.toNat ∧ checkWindows s k = k s) := by
  unfold checkWindows
  simp only
  split_ifs with h1 h2
  · exact .inl ⟨_, rfl⟩
  · exact .inl ⟨_, rfl⟩
  · exact .inr ⟨by omega, by omega, rfl⟩

/-- The output is opened, or it needs more than the platform backs (42_host_commands.md R195). -/
theorem openOutput_cases (s : State) :
    (s.plat.doutCap < s.dec.uncompSize.toNat ∧ openOutput s = .next (raise .dec .capacity 0 s)) ∨
    (s.dec.uncompSize.toNat ≤ s.plat.doutCap ∧ openOutput s = .next (s.setDec
      { s.dec with dout := s.dec.dout.zeroFill s.dec.uncompSize.toNat, phase := .op })) := by
  by_cases h : s.plat.doutCap < s.dec.uncompSize.toNat
  · exact .inl ⟨h, by simp [openOutput, h]⟩
  · exact .inr ⟨by omega, by simp [openOutput, h]⟩

/-- The end of the operations: an error in strict mode when under-filled, else success
(41_decoder.md R160). -/
theorem decFinish_cases (s : State) :
    (s.dec.cfg.strict = true ∧ s.dec.outPos ≠ s.dec.uncompSize ∧
      decFinish s = .next (s.setDec
        { s.dec with
          underfill := true, runState := .error, err := some .underfill, phase := .halt
          errPos := toWord s.dec.entryAddr })) ∨
    ((s.dec.cfg.strict = false ∨ s.dec.outPos = s.dec.uncompSize) ∧
      decFinish s = .next (s.setDec
        { s.dec with
          underfill := decide (s.dec.outPos ≠ s.dec.uncompSize)
          runState := .done, phase := .halt })) := by
  by_cases hs : s.dec.cfg.strict = true <;> by_cases hu : s.dec.outPos = s.dec.uncompSize <;>
    simp [decFinish, Dec.underfilled, hs, hu, State.setDec, Dec.entryAddr]

/-- The decoder rejects an operation only for having too few bytes (30_encoding.md R98, R108). -/
theorem decodeOperation_ok (sp : Split) (ctrl : Bool) {bytes : List Byte}
    (h : bytes.length = entryLength ctrl) : ∃ i, decodeOperation sp ctrl bytes = .ok (i, []) := by
  cases ctrl
  · obtain ⟨b, rfl⟩ := List.length_eq_one_iff.mp h
    exact ⟨_, rfl⟩
  · obtain ⟨b0, b1, rfl⟩ := List.length_eq_two.mp h
    exact ⟨_, rfl⟩

/-- Every row of `REF` has the same meaning (41_decoder.md R157). -/
theorem exec_refInstr (sp : Split) (offset length : Nat) (s : State) :
    exec (refInstr sp offset length) s = beginCopy offset length s := by
  unfold refInstr
  split_ifs <;> rfl

/-- Everything an operation step can do when it goes on: the entry is missing, or it is decoded from the
bytes at the cursor and runs (41_decoder.md R156, R157). -/
theorem runOperation_next {ctrl : Bool} (h : runOperation ctrl s = .next t) :
    (s.dec.entryMissing (entryLength ctrl) = true ∧ t = raiseEntryMissing s) ∨
    (s.dec.entryMissing (entryLength ctrl) = false ∧ ∃ i,
      decodeOperation s.dec.split ctrl (s.slice .dsrc s.dec.entryAddr (entryLength ctrl))
        = .ok (i, []) ∧ exec i s = .next t) := by
  unfold runOperation at h
  split at h
  · rename_i hm
    cases h
    exact .inl ⟨hm, rfl⟩
  · rename_i hm
    obtain ⟨_, h⟩ := loadBytes_next h
    obtain ⟨i, hi⟩ := decodeOperation_ok s.dec.split ctrl (State.slice_length s .dsrc _ _)
    rw [hi] at h
    exact .inr ⟨by simpa using hm, i, hi, h⟩

/-- A literal step, decoded. -/
theorem runOperation_lit_next (h : runOperation false s = .next t) :
    (s.dec.entryMissing 1 = true ∧ t = raiseEntryMissing s) ∨
    (s.dec.entryMissing 1 = false ∧ execLit (s.byteAt .dsrc s.dec.entryAddr) s = .next t) := by
  rcases runOperation_next h with h | ⟨hm, i, hi, h⟩
  · exact .inl h
  · simp only [entryLength, State.slice_succ, State.slice_zero, decodeOperation, Except.ok.injEq,
      Prod.mk.injEq, Bool.false_eq_true, if_false] at hi
    obtain ⟨rfl, _⟩ := hi
    exact .inr ⟨hm, h⟩

/-- A back-reference step, decoded. -/
theorem runOperation_ref_next (h : runOperation true s = .next t) :
    (s.dec.entryMissing 2 = true ∧ t = raiseEntryMissing s) ∨
    (s.dec.entryMissing 2 = false ∧
      beginCopy (unpackOffset s.dec.split.lengthBits s.fieldAtCursor)
        (unpackLength s.dec.split.lengthBits s.fieldAtCursor) s = .next t) := by
  rcases runOperation_next h with h | ⟨hm, i, hi, h⟩
  · exact .inl h
  · simp only [entryLength, State.slice_succ, State.slice_zero, decodeOperation, Except.ok.injEq,
      Prod.mk.injEq, if_true] at hi
    obtain ⟨rfl, _⟩ := hi
    rw [exec_refInstr] at h
    exact .inr ⟨hm, h⟩

/-- Appending a control bit goes on with the completed byte stored, or with the bit in the accumulator,
or faults because the completed byte's address is not backed (40_encoder.md R128). -/
theorem appendControlBit_cases (c : Bool) (s : State) (k : State → Result) :
    (s.enc.opCount.toNat % 8 = 7 ∧ s.backed .ebm (s.enc.opCount.toNat / 8) = true ∧
      appendControlBit c s k = k (s.setEnc
        { s.enc with
          ebm := s.enc.ebm.write (s.enc.opCount.toNat / 8)
            (s.enc.bmAcc ||| (BitVec.ofNat 8 c.toNat <<< (s.enc.opCount.toNat % 8)))
          bmAcc := 0, opCount := toWord (s.enc.opCount.toNat + 1) })) ∨
    (s.enc.opCount.toNat % 8 = 7 ∧ s.backed .ebm (s.enc.opCount.toNat / 8) = false ∧
      appendControlBit c s k = .fault (.unbackedAddress .ebm (s.enc.opCount.toNat / 8))) ∨
    (s.enc.opCount.toNat % 8 ≠ 7 ∧
      appendControlBit c s k = k (s.setEnc
        { s.enc with
          bmAcc := s.enc.bmAcc ||| (BitVec.ofNat 8 c.toNat <<< (s.enc.opCount.toNat % 8))
          opCount := toWord (s.enc.opCount.toNat + 1) })) := by
  unfold appendControlBit
  by_cases h : s.enc.opCount.toNat % 8 = 7
  · simp only [h, if_true]
    rcases store_cases (s := s) (sp := .ebm) (a := s.enc.opCount.toNat / 8)
        (v := s.enc.bmAcc ||| (BitVec.ofNat 8 c.toNat <<< 7)) (fun s => k (s.setEnc
          { s.enc with bmAcc := 0, opCount := toWord (s.enc.opCount.toNat + 1) })) with
      ⟨hb, hk⟩ | ⟨hb, hk⟩
    · exact .inl ⟨trivial, hb, hk⟩
    · exact .inr (.inl ⟨trivial, hb, hk⟩)
  · simp only [h, if_false]
    exact .inr (.inr ⟨h, trivial⟩)

end Sys2Proof.Machine
end

