-- ==== Sys2Proof/Laws/PerInstr.lean ====
section
/-! SUPPORT. What is said of every instruction, one lemma for each constructor. -/

namespace Sys2Proof.Laws.EncodeShape

/-- The encoding of an instruction has the shape the decoder expects: an operation's entry is as long as
its control bit says (30_encoding.md R98), a command's value is that command's (30_encoding.md R113). -/
def Statement (i : Instr) : Prop :=
  ∀ sp : Split,
    match encode sp i with
    | .operation ctrl bytes => bytes.length = entryLength ctrl
    | .command u value => decodeCommand u value = .ok i

theorem lit (value : Byte) : Statement (.lit value) := fun _ => rfl

theorem ref (offset length : Nat) : Statement (.ref offset length) := fun _ => rfl

theorem refV11_5 (offset length : Nat) : Statement (.refV11_5 offset length) := fun _ => rfl

theorem refV13_3 (offset length : Nat) : Statement (.refV13_3 offset length) := fun _ => rfl

theorem decStartBlock : Statement .decStartBlock := fun _ => rfl

theorem decStartSection : Statement .decStartSection := fun _ => rfl

theorem encStart : Statement .encStart := fun _ => rfl

end Sys2Proof.Laws.EncodeShape
end

