-- ==== Sys2Proof/Laws/Steps.lean ====
section
/-! SUPPORT. The step of the machine in terms of a unit's turn, and what the state less its pending turn
is. -/

namespace Sys2Proof.Machine

variable {s t : State}

@[simp] theorem State.popped_dec (s : State) : s.popped.dec = s.dec := rfl
@[simp] theorem State.popped_enc (s : State) : s.popped.enc = s.enc := rfl
@[simp] theorem State.popped_plat (s : State) : s.popped.plat = s.plat := rfl
@[simp] theorem State.popped_epoch (s : State) : s.popped.epoch = s.epoch := rfl
@[simp] theorem State.popped_returned (s : State) : s.popped.returned = s.returned := rfl
@[simp] theorem State.popped_agenda (s : State) : s.popped.agenda = s.agenda.tail := rfl
@[simp] theorem State.popped_byteAt (s : State) (sp : Space) (a : Nat) :
    s.popped.byteAt sp a = s.byteAt sp a := by cases sp <;> rfl
@[simp] theorem State.popped_backed (s : State) (sp : Space) (a : Nat) :
    s.popped.backed sp a = s.backed sp a := rfl

/-- With no turn pending there is nothing to take off. -/
theorem State.popped_of_nil (h : s.agenda = []) : s.popped = s := by
  cases s; simp only at h; subst h; rfl

/-- A pending turn is what the step takes, in the state without it. -/
theorem step_of_turn {turn : Turn} {rest : List Turn} (h : s.agenda = turn :: rest) :
    step s = takeTurn turn s.popped := by
  simp [step, machineStep, h, State.popped]

/-- The decoder's turn. -/
theorem step_of_decMoves (h : s.decMoves) : step s = decTurn s.popped := by
  obtain ⟨hb, ha | ⟨rest, ha⟩⟩ := h
  · simp [step, machineStep, idleTurn, ha, hb, State.popped_of_nil ha]
  · rw [step_of_turn ha]; rfl

/-- The encoder's turn. -/
theorem step_of_encMoves (h : s.encMoves) : step s = encTurn s.popped := by
  obtain ⟨hb, ⟨ha, hd⟩ | ⟨rest, ha⟩⟩ := h
  · simp [step, machineStep, idleTurn, ha, hd, State.popped_of_nil ha]
  · rw [step_of_turn ha]; rfl

/-- Everything a step can be: the pending turn, or, with none pending, the decoder's turn when it is
BUSY and else the encoder's. -/
theorem step_cases (s : State) :
    (∃ turn rest, s.agenda = turn :: rest ∧ step s = takeTurn turn s.popped) ∨
    (s.agenda = [] ∧ s.dec.runState = .busy ∧ step s = decTurn s) ∨
    (s.agenda = [] ∧ s.dec.runState ≠ .busy ∧ step s = encTurn s) := by
  match h : s.agenda with
  | turn :: rest => exact .inl ⟨turn, rest, rfl, step_of_turn h⟩
  | [] =>
    by_cases hb : s.dec.runState = .busy <;> simp [step, machineStep, idleTurn, h, hb]

/-! A BUSY unit's turn in each phase of a run. -/

theorem decTurn_begin (hb : s.dec.runState = .busy) (hp : s.dec.phase = .begin_) :
    decTurn s = decBegin s := by simp [decTurn, hb, hp]
theorem decTurn_op (hb : s.dec.runState = .busy) (hp : s.dec.phase = .op) :
    decTurn s = decOp s := by simp [decTurn, hb, hp]
theorem decTurn_lit (hb : s.dec.runState = .busy) (hp : s.dec.phase = .lit) :
    decTurn s = runOperation false s := by simp [decTurn, hb, hp]
theorem decTurn_ref (hb : s.dec.runState = .busy) (hp : s.dec.phase = .ref) :
    decTurn s = runOperation true s := by simp [decTurn, hb, hp]
theorem decTurn_copy (hb : s.dec.runState = .busy) (hp : s.dec.phase = .copy) :
    decTurn s = decCopy s := by simp [decTurn, hb, hp]

theorem encTurn_begin (hb : s.enc.runState = .busy) (hp : s.enc.phase = .begin_) :
    encTurn s = encBegin s := by simp [encTurn, hb, hp]
theorem encTurn_pos (hb : s.enc.runState = .busy) (hp : s.enc.phase = .pos) :
    encTurn s = encPos s := by simp [encTurn, hb, hp]
theorem encTurn_scan (hb : s.enc.runState = .busy) (hp : s.enc.phase = .scan) :
    encTurn s = encScan s := by simp [encTurn, hb, hp]
theorem encTurn_emit (hb : s.enc.runState = .busy) (hp : s.enc.phase = .emit) :
    encTurn s = encEmit s := by simp [encTurn, hb, hp]
theorem encTurn_flush (hb : s.enc.runState = .busy) (hp : s.enc.phase = .flush) :
    encTurn s = encFlush s := by simp [encTurn, hb, hp]

/-- A unit at rest takes no step (00_scope.md R17). -/
theorem decTurn_of_rest (h : s.dec.runState ≠ .busy) : decTurn s = .next s := by
  unfold decTurn; split <;> simp_all

theorem encTurn_of_rest (h : s.enc.runState ≠ .busy) : encTurn s = .next s := by
  unfold encTurn; split <;> simp_all

end Sys2Proof.Machine
end

