-- ==== Sys2Proof/Laws/Search.lean ====
section
/-! SUPPORT. The match search: what a match length depends on, and what it says (40_encoder.md R122). -/

namespace Sys2Proof.Machine

variable {s t : State}

/-- A match length depends on the bytes of `ESRC` alone. -/
theorem matchLen_congr (h : ∀ a, t.byteAt .esrc a = s.byteAt .esrc a) (i pos cap : Nat) :
    matchLen t i pos cap = matchLen s i pos cap := by
  induction cap generalizing i pos with
  | zero => rfl
  | succ n ih => simp only [matchLen, h, ih]

theorem matchLen_le (s : State) (i pos cap : Nat) : matchLen s i pos cap ≤ cap := by
  induction cap generalizing i pos with
  | zero => simp [matchLen]
  | succ n ih =>
    simp only [matchLen]
    split
    · exact Nat.succ_le_succ (ih _ _)
    · omega

/-- Below the match length the two ranges agree. -/
theorem matchLen_agree {i pos cap k : Nat} (h : k < matchLen s i pos cap) :
    s.byteAt .esrc (i + k) = s.byteAt .esrc (pos + k) := by
  induction cap generalizing i pos k with
  | zero => simp [matchLen] at h
  | succ n ih =>
    simp only [matchLen] at h
    split at h
    · cases k with
      | zero => simpa
      | succ k =>
        have := ih (i := i + 1) (pos := pos + 1) (k := k) (by omega)
        rwa [show i + (k + 1) = i + 1 + k by omega, show pos + (k + 1) = pos + 1 + k by omega]
    · omega

/-- Ranges that agree on the first `n` bytes have a match length of at least `n`. -/
theorem le_matchLen {i pos cap n : Nat} (hn : n ≤ cap)
    (h : ∀ k < n, s.byteAt .esrc (i + k) = s.byteAt .esrc (pos + k)) :
    n ≤ matchLen s i pos cap := by
  induction cap generalizing i pos n with
  | zero => omega
  | succ c ih =>
    cases n with
    | zero => omega
    | succ n =>
      rw [matchLen, if_pos (by simpa using h 0 (by omega))]
      have := ih (i := i + 1) (pos := pos + 1) (n := n) (by omega) fun k hk => by
        have := h (k + 1) (by omega)
        rwa [show i + (k + 1) = i + 1 + k by omega, show pos + (k + 1) = pos + 1 + k by omega] at this
      omega

/-- The invariant depends on the units, the capacities and the epoch alone. -/
theorem State.Inv_congr (hd : t.dec = s.dec) (he : t.enc = s.enc) (hp : t.plat = s.plat)
    (hepoch : t.epoch = s.epoch) (h : s.Inv) : t.Inv := by
  have hm : ∀ sp, t.mem sp = s.mem sp := fun sp => by cases sp <;> simp [hd, he]
  have hb : ∀ sp a, t.byteAt sp a = s.byteAt sp a := fun sp a => State.byteAt_congr (hm sp) hepoch a
  have hl : ∀ d, t.matchAt d = s.matchAt d := fun d => by
    simp only [State.matchAt, he, matchLen_congr (hb .esrc)]
  simpa only [State.Inv, State.spacesOk, State.spaceOk, State.decOk, State.decExtentsOk,
    State.ctrlSrOk, State.tailZero, State.encOk, State.encExtentsOk, State.searchOk,
    State.bestAmong, hd, he, hp, hm, hb, hl] using h

/-- Taking a pending turn off keeps the invariant. -/
theorem State.Inv_popped (h : s.Inv) : s.popped.Inv :=
  State.Inv_congr (s := s) rfl rfl rfl rfl h

end Sys2Proof.Machine
end

