-- ==== Sys2Proof/Tests/Slice0.lean ====
section
/-! SUPPORT. The model's own tests: ill-formed instructions, words written out from 30_encoding.md, one
step at a time from 95_test_vectors.md and 41_decoder.md R171, and for each obligation that has
hypotheses a state that meets them. -/

namespace Sys2Proof.Tests

open Sys2Proof Sys2Proof.Machine

/-! Ill-formed instructions (30_encoding.md R99, R101, R111). -/

theorem test_wf_split_of_15 : (Instr.ref 1 1).wellFormed ⟨8, 7⟩ = false := by decide
theorem test_wf_generic_row_under_preset : (Instr.ref 3 6).wellFormed Split.v11_5 = false := by decide
theorem test_wf_preset_row_under_other : (Instr.refV11_5 3 6).wellFormed Split.v13_3 = false := by decide
theorem test_wf_v13_3_row_under_other : (Instr.refV13_3 3 6).wellFormed Split.v11_5 = false := by decide
theorem test_wf_offset_zero : (Instr.refV11_5 0 6).wellFormed Split.v11_5 = false := by decide
theorem test_wf_offset_2049 : (Instr.refV11_5 2049 6).wellFormed Split.v11_5 = false := by decide
theorem test_wf_length_zero : (Instr.refV13_3 3 0).wellFormed Split.v13_3 = false := by decide
theorem test_wf_length_9 : (Instr.refV13_3 3 9).wellFormed Split.v13_3 = false := by decide
theorem test_wf_generic_offset_257 : (Instr.ref 257 6).wellFormed ⟨8, 8⟩ = false := by decide

/-! Words written out from the spec's encodings (30_encoding.md R96, R97, R102, R113; vectors T1 to T4
of 95_test_vectors.md). -/

theorem test_decode_lit : decodeTableWord 16 0b001011010 = some (.lit 0x5A) := by decide
theorem test_decode_ref_v11_5 :
    decodeTableWord 24 0b10000000001000101 = some (.refV11_5 3 6) := by decide
theorem test_decode_ref_v11_5_last :
    decode Split.v11_5 (.operation true [0xFF, 0xFF]) = .ok (.refV11_5 2048 32, []) := by decide
theorem test_decode_ref_v13_3 :
    decode Split.v13_3 (.operation true [0x34, 0x12, 0x77]) = .ok (.refV13_3 583 5, [0x77]) := by decide
theorem test_decode_ref_8_8 :
    decode ⟨8, 8⟩ (.operation true [0x34, 0x12]) = .ok (.ref 19 53, []) := by decide
theorem test_decode_ref_16_0 :
    decode ⟨16, 0⟩ (.operation true [0x34, 0x12]) = .ok (.ref 4661 1, []) := by decide
theorem test_decode_ref_0_16 :
    decode ⟨0, 16⟩ (.operation true [0x34, 0x12]) = .ok (.ref 1 4661, []) := by decide
theorem test_decode_start_block : decodeTableWord 32 1 = some .decStartBlock := by decide
theorem test_decode_start_section : decodeTableWord 32 2 = some .decStartSection := by decide
theorem test_decode_enc_start :
    decode Split.v11_5 (.command .enc 1) = .ok (.encStart, []) := by decide
theorem test_decode_reserved_command :
    decode Split.v11_5 (.command .enc 2) = .error .reservedCommand := by decide
theorem test_decode_short_entry :
    decode Split.v11_5 (.operation true [0x45]) = .error .truncatedEntry := by decide
theorem test_encode_ref_v13_3 :
    encode Split.v13_3 (.refV13_3 12 8) = .operation true [0x5F, 0x00] := by decide
theorem test_encode_ref_v11_5 :
    encode Split.v11_5 (.refV11_5 12 13) = .operation true [0x6C, 0x01] := by decide

/-! A small decoder state: the block of `ABCABCABC` under `V11_5` (41_decoder.md R171), the bitmap at 0
and the field stream at 1. -/

def outBytes (bs : List Byte) : Memory := bs.mapIdx fun j b => (j, b)

/-- The decoder in a phase of the run of R171. -/
def decUnit (phase : DecPhase) (opIdx fsPos outPos : Word) (sr : Byte) (out : List Byte) : Dec :=
  { Dec.resetWith (outBytes [0x08, 0x41, 0x42, 0x43, 0x45, 0x00]) (outBytes out) with
    runState := .busy, phase := phase, srcLen := 6, uncompSize := 9, opCount := 4
    bmBase := 0, bmLen := 1, fsBase := 1, fsLen := 5
    opIdx := opIdx, fsPos := fsPos, outPos := outPos, ctrlSr := sr }

def withDec (d : Dec) : State := State.reset.setDec d

def zeros : List Byte := [0, 0, 0, 0, 0, 0, 0, 0, 0]
def abc : List Byte := [0x41, 0x42, 0x43, 0, 0, 0, 0, 0, 0]
def abcabcabc : List Byte := [0x41, 0x42, 0x43, 0x41, 0x42, 0x43, 0x41, 0x42, 0x43]

def decBeginState : State := withDec (decUnit .begin_ 0 0 0 0 [])
def decOpState : State := withDec (decUnit .op 0 0 0 0 zeros)
def decLitState : State := withDec (decUnit .lit 0 0 0 0x04 zeros)
def decRefState : State := withDec (decUnit .ref 3 3 3 0 abc)
def decCopyState : State :=
  withDec { decUnit .copy 3 5 3 0 abc with curOffset := 3, curRemain := 6 }
def decLastState : State := withDec (decUnit .op 4 5 9 0 abcabcabc)

/-- An encoder at rest meets its invariant. -/
theorem encOk_of_reset (s : State) (h : s.enc = Enc.resetWith [] [] []) : s.encOk := by
  unfold State.encOk
  rw [h]
  exact ⟨by decide, by decide, by decide, fun hr => absurd hr (by decide)⟩

/-- The decoder's invariant in a phase of a run. -/
theorem inv_of_running {s : State} (hp : platformLegal s.plat) (hs : s.spacesOk)
    (hst : s.dec.statusOk) (hb : s.dec.phase ≠ .begin_) (he : s.decExtentsOk) (hc : s.dec.cursorsOk)
    (hcopy : s.dec.copyOk) (hsr : s.ctrlSrOk) (ht : s.tailZero)
    (henc : s.enc = Enc.resetWith [] [] []) : s.Inv :=
  ⟨hp, hs, ⟨hst, fun h => absurd h hb, fun _ => ⟨he, hc, hcopy, hsr, ht⟩⟩, encOk_of_reset s henc⟩

/-- A decoder that is not in a run, or about to take `BEGIN`, meets its invariant. -/
theorem inv_of_begin {s : State} (hp : platformLegal s.plat) (hs : s.spacesOk)
    (hst : s.dec.statusOk) (hb : s.dec.beginOk) (hr : ¬ s.dec.running)
    (henc : s.enc = Enc.resetWith [] [] []) : s.Inv :=
  ⟨hp, hs, ⟨hst, hb, fun h => absurd h hr⟩, encOk_of_reset s henc⟩

theorem decBegin_inv : decBeginState.Inv :=
  inv_of_begin (by decide) (by decide) (by decide) (by decide) (by decide) rfl

theorem decOp_inv : decOpState.Inv :=
  inv_of_running (by decide) (by decide) (by decide) (by decide) (by decide) (by decide) (by decide)
    (by decide) (by decide) rfl

theorem decLit_inv : decLitState.Inv :=
  inv_of_running (by decide) (by decide) (by decide) (by decide) (by decide) (by decide) (by decide)
    (by decide) (by decide) rfl

theorem decRef_inv : decRefState.Inv :=
  inv_of_running (by decide) (by decide) (by decide) (by decide) (by decide) (by decide) (by decide)
    (by decide) (by decide) rfl

theorem decCopy_inv : decCopyState.Inv :=
  inv_of_running (by decide) (by decide) (by decide) (by decide) (by decide) (by decide) (by decide)
    (by decide) (by decide) rfl

theorem decLast_inv : decLastState.Inv :=
  inv_of_running (by decide) (by decide) (by decide) (by decide) (by decide) (by decide) (by decide)
    (by decide) (by decide) rfl

/-! A small encoder state: the input `ABCABCABC` under `V11_5`, window 2048 (95_test_vectors.md T12). -/

/-- The encoder in a phase of that run. -/
def encUnit (phase : EncPhase) (pos opCount fsLen : Word) (acc : Byte) : Enc :=
  { Enc.resetWith (outBytes abcabcabc) [] [] with
    runState := .busy, phase := phase, inLen := 9
    pos := pos, opCount := opCount, fsLen := fsLen, bmAcc := acc }

def withEnc (e : Enc) : State := State.reset.setEnc e

def encBeginState : State := withEnc (encUnit .begin_ 0 0 0 0)
def encPosState : State := withEnc (encUnit .pos 3 3 3 0)
def encScanState : State :=
  withEnc { encUnit .scan 3 3 3 0 with cap := 6, dmax := 3, scanD := 3 }
def encScanLateState : State :=
  withEnc { encUnit .scan 3 3 3 0 with cap := 6, dmax := 3, scanD := 4, bestLen := 6, bestOff := 3 }
def encEmitLitState : State := withEnc { encUnit .emit 0 0 0 0 with cap := 9, scanD := 1 }
def encEmitRefState : State :=
  withEnc { encUnit .emit 3 3 3 0 with cap := 6, dmax := 3, scanD := 4, bestLen := 6, bestOff := 3 }
def encFlushState : State := withEnc (encUnit .flush 9 4 5 0x08)
def encFlushEmptyState : State := withEnc { encUnit .flush 0 0 0 0 with inLen := 0 }

/-- A decoder at rest meets its invariant. -/
theorem decOk_of_reset (s : State) (h : s.dec = Dec.resetWith [] []) : s.decOk := by
  unfold State.decOk
  rw [h]
  exact ⟨by decide, by decide, fun hr => absurd hr (by decide)⟩

/-- The encoder's invariant in a phase of a run. -/
theorem inv_of_encoding {s : State} (hp : platformLegal s.plat) (hs : s.spacesOk)
    (hst : s.enc.statusOk) (hb : s.enc.phase ≠ .begin_) (hr : s.enc.resultsOk)
    (he : s.encExtentsOk) (hc : s.enc.countersOk) (hl : s.enc.limitsOk)
    (hscan : s.enc.phase = .scan → 1 ≤ s.enc.scanD.toNat
      ∧ s.enc.scanD.toNat ≤ s.enc.dmax.toNat + 1 ∧ s.bestAmong (s.enc.scanD.toNat - 1))
    (hemit : s.enc.phase = .emit → s.bestAmong s.enc.dmax.toNat)
    (hdec : s.dec = Dec.resetWith [] []) : s.Inv :=
  ⟨hp, hs, decOk_of_reset s hdec,
    ⟨hst, fun h => absurd h hb, hr, fun _ => ⟨he, hc, hl, hscan, hemit⟩⟩⟩

theorem encBegin_inv : encBeginState.Inv :=
  ⟨by decide, by decide, decOk_of_reset _ rfl,
    ⟨by decide, by decide, by decide, fun h => absurd h (by decide)⟩⟩

theorem encPos_inv : encPosState.Inv :=
  inv_of_encoding (by decide) (by decide) (by decide) (by decide) (by decide) (by decide) (by decide)
    (by decide) (fun h => absurd h (by decide)) (fun h => absurd h (by decide)) rfl

theorem encScan_inv : encScanState.Inv :=
  inv_of_encoding (by decide) (by decide) (by decide) (by decide) (by decide) (by decide) (by decide)
    (by decide) (fun _ => ⟨by decide, by decide, by decide, by decide, by decide, by decide⟩)
    (fun h => absurd h (by decide)) rfl

theorem encScanLate_inv : encScanLateState.Inv :=
  inv_of_encoding (by decide) (by decide) (by decide) (by decide) (by decide) (by decide) (by decide)
    (by decide) (fun _ => ⟨by decide, by decide, by decide, by decide, by decide, by decide⟩)
    (fun h => absurd h (by decide)) rfl

theorem encEmitLit_inv : encEmitLitState.Inv :=
  inv_of_encoding (by decide) (by decide) (by decide) (by decide) (by decide) (by decide) (by decide)
    (by decide) (fun h => absurd h (by decide))
    (fun _ => ⟨by decide, by decide, by decide, by decide⟩) rfl

theorem encEmitRef_inv : encEmitRefState.Inv :=
  inv_of_encoding (by decide) (by decide) (by decide) (by decide) (by decide) (by decide) (by decide)
    (by decide) (fun h => absurd h (by decide))
    (fun _ => ⟨by decide, by decide, by decide, by decide⟩) rfl

theorem encFlush_inv : encFlushState.Inv :=
  inv_of_encoding (by decide) (by decide) (by decide) (by decide) (by decide) (by decide) (by decide)
    (by decide) (fun h => absurd h (by decide)) (fun h => absurd h (by decide)) rfl

theorem encFlushEmpty_inv : encFlushEmptyState.Inv :=
  inv_of_encoding (by decide) (by decide) (by decide) (by decide) (by decide) (by decide) (by decide)
    (by decide) (fun h => absurd h (by decide)) (fun h => absurd h (by decide)) rfl

/-! One step at a time. -/

/-- Something of the next state, where there is one. -/
def after {α : Type} (r : Result) (f : State → α) : Option α :=
  match r with
  | .next t => some (f t)
  | _ => none

/-- R171, first `LIT`. -/
theorem test_lit : after (step decLitState) (fun t =>
    (t.byteAt .dout 0, t.dec.opIdx, t.dec.fsPos, t.dec.outPos, t.dec.phase))
      = some (0x41, 1, 1, 1, .op) := by decide

/-- R156: no byte left; `FS_BASE = 1`. -/
theorem test_lit_truncated : after (step (withDec { decLitState.dec with fsLen := 0 })) (fun t =>
    (t.dec.status, t.dec.errPos, t.dec.outPos, t.dec.phase))
      = some (0x33, 1, 0, .halt) := by decide

/-- R171: field `0x0045`. -/
theorem test_ref_v11_5 : after (step decRefState) (fun t =>
    (t.dec.curOffset, t.dec.curRemain, t.dec.opIdx, t.dec.fsPos, t.dec.phase))
      = some (3, 6, 3, 5, .copy) := by decide

/-- R157: exactly one field-stream byte left. -/
theorem test_ref_truncated : after (step (withDec { decRefState.dec with fsLen := 4 })) (fun t =>
    (t.dec.status, t.dec.errPos, t.dec.fsPos)) = some (0x33, 4, 3) := by decide

/-- T27: the same field under `V13_3`. -/
theorem test_ref_v13_3 :
    after (step (withDec
      { decRefState.dec with cfg := DecCfg.ofWord 0x30D, window := 8192 })) (fun t =>
        (t.dec.curOffset, t.dec.curRemain, t.dec.fsPos)) = some (9, 6, 5) := by decide

/-- T3 under `O = 8`, `L = 8`: entry bytes `34 12`. -/
theorem test_ref_generic :
    after (step (withDec { decRefState.dec with
      cfg := DecCfg.ofWord 0x808, window := 256
      dsrc := outBytes [0x08, 0x41, 0x42, 0x43, 0x34, 0x12] })) (fun t =>
        (t.dec.curOffset, t.dec.curRemain, t.dec.fsPos)) = some (19, 53, 5) := by decide

/-- R158: the first byte of the copy. -/
theorem test_copy : after (step decCopyState) (fun t =>
    (t.byteAt .dout 3, t.dec.outPos, t.dec.curRemain, t.dec.phase))
      = some (0x41, 4, 5, .copy) := by decide

/-- R158: a copy that would pass `UNCOMP_SIZE`. -/
theorem test_copy_overrun : after (step (withDec { decCopyState.dec with uncompSize := 3 })) (fun t =>
    (t.dec.status, t.dec.errPos, t.dec.outPos)) = some (0x23, 4, 3) := by decide

/-- R193, from reset. -/
theorem test_start_block :
    after (step (State.reset.setAgenda [.host (.regWrite .dec 0 1)])) (fun t =>
      (t.dec.status, t.dec.phase, t.dec.mode, t.agenda)) = some (1, .begin_, .block, []) := by decide

/-- R194: the mode; a write to a BUSY unit is ignored (R191). -/
theorem test_start_section :
    after (step (State.reset.setAgenda [.host (.regWrite .dec 0 2)])) (fun t =>
      (t.dec.status, t.dec.mode)) = some (1, .sectioned) := by decide

theorem test_start_section_busy :
    after (step (decLitState.setAgenda [.host (.regWrite .dec 0 2)])) State.dec
      = some decLitState.dec := by decide

/-- R200, from reset. -/
theorem test_enc_start :
    after (step (State.reset.setAgenda [.host (.regWrite .enc 0 1)])) (fun t =>
      (t.enc.status, t.enc.phase, t.dec.status)) = some (1, .begin_, 0) := by decide

/-- R155: the control bit of operation 3 of `bm = 08`. -/
theorem test_op : after (step (withDec (decUnit .op 3 3 3 0x01 abc))) (fun t =>
    (t.dec.ctrlSr, t.dec.phase)) = some (0, .ref) := by decide

/-- R160: the end of R171. -/
theorem test_finish : after (step decLastState) (fun t => (t.dec.status, t.dec.phase))
    = some (2, .halt) := by decide

/-- R127 example. -/
theorem test_emit_ref : after (step encEmitRefState) (fun t =>
    (t.byteAt .efs 3, t.byteAt .efs 4, t.enc.fsLen, t.enc.pos, t.enc.bmAcc))
      = some (0x45, 0x00, 5, 9, 0x08) := by decide

/-- R136: `EBM = 08`. -/
theorem test_flush : after (step encFlushState) (fun t =>
    (t.byteAt .ebm 0, t.enc.bmLen, t.enc.uncompSize, t.enc.status)) = some (0x08, 1, 9, 2) := by decide

/-! Table words as the first instruction after reset. -/

theorem test_fetch_lit :
    after (step (State.reset.withFetchWord 16 0x05A)) id
      = after (exec (.lit 0x5A) ((State.reset.withFetchWord 16 0x05A).setAgenda [])) id := by decide

theorem test_fetch_ref :
    after (step (State.reset.withFetchWord 24 0x10045)) id
      = after (exec (.refV11_5 3 6) ((State.reset.withFetchWord 24 0x10045).setAgenda [])) id := by
  decide

theorem test_fetch_command :
    after (step (State.reset.withFetchWord 32 2)) id
      = after (exec .decStartSection State.reset) id := by decide

/-! For each obligation that has hypotheses, states and operands that meet them, clause by clause. -/

/-- A step that answers a next state. -/
def isNext (r : Result) : Bool :=
  match r with
  | .next _ => true
  | _ => false

theorem next_of_isNext {r : Result} (h : isNext r = true) : ∃ t, r = .next t := by
  cases r with
  | next t => exact ⟨t, rfl⟩
  | fault _ => exact absurd h (by simp [isNext])
  | refused _ => exact absurd h (by simp [isNext])

theorem decMoves_of {s : State} (hb : s.dec.runState = .busy) (ha : s.agenda = []) : s.decMoves :=
  ⟨hb, .inl ha⟩

theorem encMoves_of {s : State} (hb : s.enc.runState = .busy) (ha : s.agenda = [])
    (hd : s.dec.runState ≠ .busy) : s.encMoves :=
  ⟨hb, .inl ⟨ha, hd⟩⟩

theorem witness_DecodeInvertsEncode :
    (Instr.lit 255).wellFormed ⟨0, 16⟩ = true
    ∧ (Instr.refV11_5 2048 32).wellFormed Split.v11_5 = true
    ∧ (Instr.refV13_3 8192 8).wellFormed Split.v13_3 = true
    ∧ (Instr.ref 65536 1).wellFormed ⟨16, 0⟩ = true ∧ (Instr.ref 1 65536).wellFormed ⟨0, 16⟩ = true
    ∧ Instr.encStart.wellFormed Split.v11_5 = true
    ∧ encode Split.v11_5 (.refV11_5 2048 32) = .operation true [0xFF, 0xFF] := by decide

theorem witness_EveryEntryIsAnInstruction :
    Split.valid ⟨0, 16⟩ = true ∧ Split.valid ⟨16, 0⟩ = true ∧ Split.v11_5.valid = true
    ∧ [0xFF, 0xFF].length = entryLength true ∧ [0xFF].length = entryLength false
    ∧ [0xFF].length < entryLength true ∧ entryLength false < [0xFF, 0xFF].length := by decide

theorem witness_PackedFieldIsABijection :
    Split.valid ⟨0, 16⟩ = true ∧ Split.admits ⟨0, 16⟩ 1 65536 = true
    ∧ Split.v11_5.valid = true ∧ Split.v11_5.admits 1 1 = true
    ∧ Split.v11_5.admits 2048 32 = true ∧ 0xFFFF < 2 ^ 16 := by decide

theorem witness_StepRunsDecodedOperation :
    (decLitState.decMoves ∧ decRefState.decMoves)
    ∧ decLitState.dec.phase = (if false then .ref else .lit)
    ∧ decRefState.dec.phase = (if true then .ref else .lit)
    ∧ decLitState.dec.fsPos.toNat + entryLength false ≤ decLitState.dec.fsLen.toNat
    ∧ decRefState.dec.fsPos.toNat + entryLength true ≤ decRefState.dec.fsLen.toNat
    ∧ (∀ j < entryLength true, decRefState.backed .dsrc (decRefState.dec.entryAddr + j) = true)
    ∧ decode decLitState.dec.split
        (.operation false (decLitState.slice .dsrc decLitState.dec.entryAddr 1))
        = .ok (.lit 0x41, [])
    ∧ decode decRefState.dec.split
        (.operation true (decRefState.slice .dsrc decRefState.dec.entryAddr 2))
        = .ok (.refV11_5 3 6, []) :=
  ⟨⟨decMoves_of rfl rfl, decMoves_of rfl rfl⟩, by decide⟩

/-- A state in which the host's next move is a register write. -/
def hostWrites (u : UnitId) (o : Nat) (v : Word) (s : State) : State :=
  s.setAgenda [.host (.regWrite u o v)]

theorem witness_StepRunsDecodedCommand :
    (hostWrites .dec 0 2 State.reset).agenda = .host (.regWrite .dec 0x00 2) :: []
    ∧ (hostWrites .dec 0 2 State.reset).runStateOf .dec ≠ .busy
    ∧ (hostWrites .dec 0 2 decLitState).runStateOf .dec = .busy
    ∧ decode Split.v11_5 (.command .dec 2) = .ok (.decStartSection, [])
    ∧ decode Split.v11_5 (.command .dec 3) = .error .reservedCommand
    ∧ decode Split.v11_5 (.command .enc 2) = .error .reservedCommand := by decide

theorem witness_LitCompletes :
    decLitState.dec.fsPos.toNat < decLitState.dec.fsLen.toNat
    ∧ decLitState.backed .dout decLitState.dec.outPos.toNat = true := by decide

/-- The entry ends exactly where the field stream does. -/
theorem witness_RefCompletes :
    decRefState.dec.fsPos.toNat + 2 ≤ decRefState.dec.fsLen.toNat
    ∧ decRefState.dec.fsPos.toNat + 2 = decRefState.dec.fsLen.toNat := by decide

theorem witness_OperationWithoutEntryTakesTruncatedStream :
    (let s := withDec (decUnit .lit 3 5 3 0 abc); s.dec.fsLen.toNat ≤ s.dec.fsPos.toNat)
    ∧ (let s := withDec (decUnit .ref 3 4 3 0 abc); s.dec.fsLen.toNat < s.dec.fsPos.toNat + 2) := by
  decide

/-- The field stream used up before a literal. -/
def litEndState : State := withDec (decUnit .lit 3 5 3 0 abc)

theorem witness_LitStepEmitsTheEntryByte :
    (decLitState.Inv ∧ decLitState.decMoves ∧ decLitState.dec.phase = .lit
      ∧ ¬ decLitState.dec.fsLen.toNat ≤ decLitState.dec.fsPos.toNat)
    ∧ (litEndState.Inv ∧ litEndState.decMoves ∧ litEndState.dec.phase = .lit
      ∧ litEndState.dec.fsLen.toNat ≤ litEndState.dec.fsPos.toNat) :=
  ⟨⟨decLit_inv, decMoves_of rfl rfl, rfl, by decide⟩,
    ⟨inv_of_running (by decide) (by decide) (by decide) (by decide) (by decide) (by decide)
      (by decide) (by decide) (by decide) rfl, decMoves_of rfl rfl, rfl, by decide⟩⟩

/-- One byte left before a back-reference. -/
def refEndState : State := withDec (decUnit .ref 3 4 3 0 abc)

theorem witness_RefStepUnpacksTheField :
    (decRefState.Inv ∧ decRefState.decMoves ∧ decRefState.dec.phase = .ref
      ∧ ¬ decRefState.dec.fsLen.toNat < decRefState.dec.fsPos.toNat + 2)
    ∧ (refEndState.Inv ∧ refEndState.decMoves ∧ refEndState.dec.phase = .ref
      ∧ refEndState.dec.fsLen.toNat < refEndState.dec.fsPos.toNat + 2) :=
  ⟨⟨decRef_inv, decMoves_of rfl rfl, rfl, by decide⟩,
    ⟨inv_of_running (by decide) (by decide) (by decide) (by decide) (by decide) (by decide)
      (by decide) (by decide) (by decide) rfl, decMoves_of rfl rfl, rfl, by decide⟩⟩

/-- A copy in R171's run with another offset and count. -/
def copyState (offset remain : Count) : State :=
  withDec { decUnit .copy 3 5 3 0 abc with curOffset := offset, curRemain := remain }

/-- A copy with the output full. -/
def copyFullState : State :=
  withDec { decUnit .copy 3 5 9 0 abcabcabc with curOffset := 3, curRemain := 1 }

/-- The last byte, from address 0; an offset of one more than what is there; a full output. -/
theorem witness_CopyStepMovesOneByte :
    ((copyState 3 1).Inv ∧ (copyState 3 1).decMoves ∧ (copyState 3 1).dec.phase = .copy
      ∧ (copyState 3 1).dec.outPos.toNat = (copyState 3 1).dec.curOffset.toNat
      ∧ (copyState 3 1).dec.curRemain.toNat = 1)
    ∧ ((copyState 3 2).Inv ∧ (copyState 3 2).decMoves ∧ (copyState 3 2).dec.curRemain.toNat ≠ 1)
    ∧ ((copyState 4 1).Inv ∧ (copyState 4 1).decMoves
      ∧ (copyState 4 1).dec.outPos.toNat < (copyState 4 1).dec.curOffset.toNat)
    ∧ (copyFullState.Inv ∧ copyFullState.decMoves
      ∧ copyFullState.dec.uncompSize.toNat ≤ copyFullState.dec.outPos.toNat) := by
  refine ⟨⟨?_, decMoves_of rfl rfl, by decide⟩, ⟨?_, decMoves_of rfl rfl, by decide⟩,
    ⟨?_, decMoves_of rfl rfl, by decide⟩, ⟨?_, decMoves_of rfl rfl, by decide⟩⟩ <;>
  exact inv_of_running (by decide) (by decide) (by decide) (by decide) (by decide) (by decide)
    (by decide) (by decide) (by decide) rfl

/-- `REF 3,6` ends exactly at `UNCOMP_SIZE = 9` and starts from address 0. -/
theorem witness_WholeBackReferenceRepeatsThePattern :
    decRefState.Inv ∧ decRefState.agenda = [] ∧ decRefState.dec.phase = .ref
    ∧ decRefState.dec.fsPos.toNat + 2 ≤ decRefState.dec.fsLen.toNat
    ∧ decRefState.fieldAtCursor / 2 ^ decRefState.dec.cfg.lengthBits.toNat + 1
        ≤ decRefState.dec.outPos.toNat
    ∧ decRefState.dec.outPos.toNat
        + (decRefState.fieldAtCursor % 2 ^ decRefState.dec.cfg.lengthBits.toNat + 1)
        ≤ decRefState.dec.uncompSize.toNat :=
  ⟨decRef_inv, by decide⟩

/-- Operation 3, whose bit is already in `CTRL_SR`. -/
def opMidState : State := withDec (decUnit .op 3 3 3 0x01 abc)

/-- No bitmap at all. -/
def opNoBitmapState : State := withDec { decUnit .op 0 0 0 0 zeros with bmLen := 0 }

theorem witness_OpStepFetchesTheControlBit :
    (decOpState.Inv ∧ decOpState.decMoves ∧ decOpState.dec.phase = .op
      ∧ decOpState.dec.opIdx ≠ decOpState.dec.opCount
      ∧ decOpState.dec.outPos.toNat < decOpState.dec.uncompSize.toNat
      ∧ decOpState.dec.opIdx.toNat % 8 = 0 ∧ decOpState.dec.bmLen.toNat = 1)
    ∧ (opMidState.Inv ∧ opMidState.decMoves ∧ opMidState.dec.opIdx ≠ opMidState.dec.opCount
      ∧ opMidState.dec.outPos.toNat < opMidState.dec.uncompSize.toNat
      ∧ opMidState.dec.opIdx.toNat % 8 ≠ 0)
    ∧ (opNoBitmapState.Inv ∧ opNoBitmapState.decMoves
      ∧ opNoBitmapState.dec.opIdx ≠ opNoBitmapState.dec.opCount
      ∧ opNoBitmapState.dec.outPos.toNat < opNoBitmapState.dec.uncompSize.toNat
      ∧ opNoBitmapState.dec.opIdx.toNat % 8 = 0
      ∧ opNoBitmapState.dec.bmLen.toNat ≤ opNoBitmapState.dec.opIdx.toNat / 8) := by
  refine ⟨⟨decOp_inv, decMoves_of rfl rfl, by decide⟩, ⟨?_, decMoves_of rfl rfl, by decide⟩,
    ⟨?_, decMoves_of rfl rfl, by decide⟩⟩ <;>
  exact inv_of_running (by decide) (by decide) (by decide) (by decide) (by decide) (by decide)
    (by decide) (by decide) (by decide) rfl

/-- The end of the operations with one byte missing, in either mode. -/
def underfilledState (strict : Bool) : State :=
  withDec { decUnit .op 4 5 9 0 (abcabcabc ++ [0]) with
    uncompSize := 10, cfg := { decCfgReset with strict := strict } }
where
  /-- The reset configuration. -/
  decCfgReset : DecCfg := (Dec.resetWith [] []).cfg

/-- The output full with an operation left. -/
def earlyStopState : State := withDec { decLastState.dec with opCount := 5 }

theorem witness_OpStepFinishesTheRun :
    (decLastState.decMoves ∧ decLastState.dec.phase = .op ∧ decLastState.Inv
      ∧ decLastState.dec.opIdx = decLastState.dec.opCount
      ∧ decLastState.dec.outPos = decLastState.dec.uncompSize)
    ∧ (earlyStopState.decMoves ∧ earlyStopState.dec.phase = .op
      ∧ earlyStopState.dec.uncompSize.toNat ≤ earlyStopState.dec.outPos.toNat
      ∧ earlyStopState.dec.opIdx ≠ earlyStopState.dec.opCount)
    ∧ (∀ strict, (underfilledState strict).decMoves ∧ (underfilledState strict).Inv)
    ∧ ∀ strict, (underfilledState strict).dec.phase = .op
      ∧ (underfilledState strict).dec.opIdx = (underfilledState strict).dec.opCount
      ∧ (underfilledState strict).dec.outPos ≠ (underfilledState strict).dec.uncompSize
      ∧ (underfilledState strict).dec.cfg.strict = strict := by
  refine ⟨⟨decMoves_of rfl rfl, rfl, decLast_inv, by decide⟩,
    ⟨decMoves_of rfl rfl, by decide⟩, fun strict => ⟨decMoves_of rfl rfl, ?_⟩, by decide⟩
  cases strict <;>
  exact inv_of_running (by decide) (by decide) (by decide) (by decide) (by decide) (by decide)
    (by decide) (by decide) (by decide) rfl

/-- `O + L = 17`; a window of `2^O + 1`; an extent past what is backed. -/
theorem witness_BeginChecksConfigurationThenExtent :
    decBeginState.decMoves
    ∧ (let s := withDec { decBeginState.dec with cfg := DecCfg.ofWord 0x60B }
       s.dec.phase = .begin_ ∧ ¬ s.beginPasses)
    ∧ (let s := withDec { decBeginState.dec with window := 2049 }
       s.dec.phase = .begin_ ∧ ¬ s.beginPasses)
    ∧ (let s := { decBeginState with plat := { Platform.default with dsrcCap := 5 } }
       s.dec.phase = .begin_ ∧ ¬ s.beginPasses
       ∧ s.dec.cfg.offsetBits.toNat + s.dec.cfg.lengthBits.toNat = 16
       ∧ s.dec.window.toNat = 2 ^ s.dec.cfg.offsetBits.toNat) :=
  ⟨decMoves_of rfl rfl, by decide, by decide, by decide⟩

/-- Windows that end exactly at `SRC_LEN = 6`, or one past it; a capacity of exactly `UNCOMP_SIZE`, or
one less. -/
theorem witness_BlockBeginChecksWindowsAndClearsOutput :
    decBeginState.decMoves ∧ decBeginState.dec.phase = .begin_ ∧ decBeginState.dec.mode = .block
    ∧ decBeginState.beginPasses
    ∧ decBeginState.dec.fsBase.toNat + decBeginState.dec.fsLen.toNat = decBeginState.dec.srcLen.toNat
    ∧ (let s := withDec { decBeginState.dec with bmLen := 7 }
       s.beginPasses ∧ s.dec.srcLen.toNat < s.dec.bmBase.toNat + s.dec.bmLen.toNat)
    ∧ (let s := withDec { decBeginState.dec with fsLen := 6 }
       s.beginPasses ∧ s.dec.srcLen.toNat < s.dec.fsBase.toNat + s.dec.fsLen.toNat)
    ∧ (let s := { decBeginState with plat := { Platform.default with doutCap := 8 } }
       s.beginPasses ∧ s.plat.doutCap < s.dec.uncompSize.toNat)
    ∧ (let s := { decBeginState with plat := { Platform.default with doutCap := 9 } }
       s.beginPasses ∧ ¬ s.plat.doutCap < s.dec.uncompSize.toNat) :=
  ⟨decMoves_of rfl rfl, by decide⟩

/-- The block of R106's example. -/
def exampleBlock : Block := ⟨9, 4, [0x08], [0x41, 0x42, 0x43, 0x45, 0x00]⟩

/-- Its section in `DSRC` (42_host_commands.md R196, example), with another `SRC_LEN`. -/
def sectionState (framing : Framing) (srcLen : Word) (doutCap : Nat) : State :=
  { withDec { Dec.resetWith (outBytes (serialize exampleBlock framing)) [] with
      runState := .busy, phase := .begin_, mode := .sectioned, srcLen := srcLen
      cfg := { (Dec.resetWith [] []).cfg with framing := framing } } with
    plat := { Platform.default with doutCap := doutCap } }

theorem witness_SectionBeginParsesTheHeader :
    (∀ framing srcLen cap, (sectionState framing srcLen cap).decMoves)
    ∧ (∀ framing srcLen cap, (sectionState framing srcLen cap).dec.phase = .begin_
        ∧ (sectionState framing srcLen cap).dec.mode = .sectioned)
    ∧ ((sectionState .prefixed 7 9).beginPasses ∧ (sectionState .prefixed 8 9).beginPasses
      ∧ (sectionState .prefixed 12 9).beginPasses ∧ (sectionState .prefixed 17 9).beginPasses
      ∧ (sectionState .prefixed 18 8).beginPasses ∧ (sectionState .prefixed 18 9).beginPasses
      ∧ (sectionState .unprefixed 9 9).beginPasses)
    ∧ (sectionState .prefixed 18 9).wordAt .dsrc 0 = 9
    ∧ (sectionState .prefixed 18 9).wordAt .dsrc 4 = 4
    ∧ (sectionState .prefixed 18 9).wordAt .dsrc (8 + ceil8 4) = 5 :=
  ⟨fun _ _ _ => decMoves_of rfl rfl, fun _ _ _ => ⟨rfl, rfl⟩, by decide, by decide, by decide,
    by decide⟩

theorem witness_SectionParseInvertsSerialize :
    (sectionState .prefixed 18 9).decMoves ∧ (sectionState .unprefixed 14 9).decMoves
    ∧ (sectionState .prefixed 18 9).beginPasses ∧ (sectionState .unprefixed 14 9).beginPasses
    ∧ exampleBlock.bitmap.length = ceil8 exampleBlock.opCount
    ∧ exampleBlock.uncompSize < 2 ^ 32 ∧ exampleBlock.opCount < 2 ^ 32
    ∧ exampleBlock.fields.length < 2 ^ 32
    ∧ exampleBlock.uncompSize ≤ (sectionState .prefixed 18 9).plat.doutCap
    ∧ (sectionState .prefixed 18 9).slice .dsrc 0 18 = serialize exampleBlock .prefixed
    ∧ (sectionState .unprefixed 14 9).slice .dsrc 0 14 = serialize exampleBlock .unprefixed :=
  ⟨decMoves_of rfl rfl, decMoves_of rfl rfl, by decide⟩

/-- An error in each kind of step: in an operation, in `BEGIN` of a block and of a section, at the end. -/
theorem witness_DecoderErrorsArePrecise :
    litEndState.decMoves ∧ (sectionState .prefixed 17 9).decMoves ∧ (underfilledState true).decMoves
    ∧ (after (step litEndState) fun t => t.dec.runState) = some .error
    ∧ (after (step (sectionState .prefixed 17 9)) fun t => t.dec.runState) = some .error
    ∧ (after (step (underfilledState true)) fun t => t.dec.runState) = some .error
    ∧ litEndState.dec.phase ≠ .begin_ := by
  refine ⟨decMoves_of rfl rfl, decMoves_of rfl rfl, decMoves_of rfl rfl, by decide⟩

theorem witness_DecoderStepFrame :
    decCopyState.Inv ∧ decCopyState.decMoves ∧ (∃ t, step decCopyState = .next t)
    ∧ decBeginState.Inv ∧ decBeginState.decMoves ∧ ∃ t, step decBeginState = .next t :=
  ⟨decCopy_inv, decMoves_of rfl rfl, next_of_isNext (by decide),
    decBegin_inv, decMoves_of rfl rfl, next_of_isNext (by decide)⟩

theorem witness_DecoderIgnoresTheWindow :
    decCopyState.dec.phase ≠ .begin_ ∧ ∃ t, decTurn decCopyState = .next t :=
  ⟨by decide, next_of_isNext (by decide)⟩

theorem witness_ReservedCommandsAreIgnored :
    (0 : Word) ≠ 1 ∧ (0 : Word) ≠ 2 ∧ (3 : Word) ≠ 1 ∧ (3 : Word) ≠ 2 ∧ (2 : Word) ≠ 1 := by decide

/-- An RW register, an RO register and the first reserved offset of each unit. -/
theorem witness_RegisterWritesReadBackMasked :
    (hostWrites .dec 0x28 7 State.reset).agenda = .host (.regWrite .dec 0x28 7) :: []
    ∧ (hostWrites .dec 0x28 7 State.reset).runStateOf .dec ≠ .busy
    ∧ (hostWrites .dec 0x28 7 decLitState).runStateOf .dec = .busy
    ∧ 0x28 ∈ rwOffsets .dec ∧ 0x2C ∉ rwOffsets .dec ∧ 0x3C ∉ rwOffsets .dec
    ∧ 0x14 ∈ rwOffsets .enc ∧ 0x18 ∉ rwOffsets .enc ∧ 0x2C ∉ rwOffsets .enc
    ∧ 0x28 % 4 = 0 ∧ 0x3C % 4 = 0 := by decide

theorem witness_RegisterReadsReturnTheRegister :
    (decLitState.setAgenda [.host (.regRead .dec 0x38)]).agenda
      = .host (.regRead .dec 0x38) :: [] := rfl

/-- A state in which the host's next move is a memory move. -/
def hostMoves (m : HostMove) (s : State) : State := s.setAgenda [.host m]

/-- A busy unit; the last backed address and the first that is not. -/
theorem witness_HostMemoryMoves :
    (hostMoves (.memRead .dout 0) decLitState).agenda = .host (.memRead .dout 0) :: []
    ∧ (hostMoves (.memRead .dout 0) decLitState).runStateOf (spaceOwner .dout) = .busy
    ∧ (hostMoves (.memWrite .ebm 0 1) State.reset).runStateOf (spaceOwner .ebm) ≠ .busy
    ∧ (hostMoves (.memWrite .ebm 0 1) State.reset).backed .ebm (2 ^ 29 - 1) = true
    ∧ (hostMoves (.memWrite .ebm 0 1) State.reset).backed .ebm (2 ^ 29) = false := by decide

/-- A reset, a START, a START of a busy unit, and a step that ends a run. -/
theorem witness_RunStateTransitions :
    (∃ t, step (decLitState.setAgenda [.reset]) = .next t)
    ∧ (∃ t, step (hostWrites .dec 0 1 State.reset) = .next t)
    ∧ (hostWrites .dec 0 1 State.reset).runStateOf .dec ≠ .busy
    ∧ decodeCommand .dec 1 = .ok .decStartBlock
    ∧ (∃ t, step decLastState = .next t) ∧ decLastState.runStateOf .dec = .busy
    ∧ decLastState.agenda.head? ≠ some .reset :=
  ⟨next_of_isNext (by decide), next_of_isNext (by decide), by decide, by decide,
    next_of_isNext (by decide), by decide, by decide⟩

theorem witness_ConfigurationIsFrozenWhileBusy :
    (∃ t, step (hostWrites .dec 8 0 decLitState) = .next t)
    ∧ (hostWrites .dec 8 0 decLitState).dec.runState = .busy
    ∧ (∃ t, step (hostWrites .enc 8 0 encPosState) = .next t)
    ∧ (hostWrites .enc 8 0 encPosState).enc.runState = .busy
    ∧ (hostWrites .enc 8 0 encPosState).agenda.head? ≠ some .reset
    ∧ (hostWrites .dec 8 0 decLitState).agenda.head? ≠ some .reset :=
  ⟨next_of_isNext (by decide), by decide, next_of_isNext (by decide), by decide, by decide, by decide⟩

theorem witness_UnitAtRestDoesNothing :
    State.reset.dec.runState ≠ .busy ∧ State.reset.enc.runState ≠ .busy
    ∧ State.reset.agenda = [] := by decide

/-- `MIN_MATCH = 2` passes and 1 does not; a bitmap capacity of `ceil8(9) = 2` passes and 1 does not. -/
theorem witness_EncoderBeginChecksAndClears :
    encBeginState.encMoves ∧ encBeginState.enc.phase = .begin_
    ∧ ¬ encBeginState.enc.minMatch.toNat < 2
    ∧ (withEnc { encBeginState.enc with minMatch := 1 }).enc.minMatch.toNat < 2
    ∧ (let s := { encBeginState with plat := { Platform.default with ebmCap := 1 } }
       s.plat.ebmCap < ceil8 s.enc.inLen.toNat)
    ∧ (let s := { encBeginState with plat := { Platform.default with ebmCap := 2 } }
       ¬ s.plat.ebmCap < ceil8 s.enc.inLen.toNat) :=
  ⟨encMoves_of rfl rfl (by decide), by decide⟩

/-- The end of the input before `FLUSH`. -/
def encPosEndState : State := withEnc (encUnit .pos 9 4 5 0x08)

theorem witness_PosStepSetsUpTheSearch :
    (encPosState.Inv ∧ encPosState.encMoves ∧ encPosState.enc.phase = .pos
      ∧ encPosState.enc.pos ≠ encPosState.enc.inLen)
    ∧ (encPosEndState.Inv ∧ encPosEndState.encMoves ∧ encPosEndState.enc.phase = .pos
      ∧ encPosEndState.enc.pos = encPosEndState.enc.inLen) :=
  ⟨⟨encPos_inv, encMoves_of rfl rfl (by decide), by decide⟩,
    ⟨inv_of_encoding (by decide) (by decide) (by decide) (by decide) (by decide) (by decide)
      (by decide) (by decide) (fun h => absurd h (by decide)) (fun h => absurd h (by decide)) rfl,
      encMoves_of rfl rfl (by decide), by decide⟩⟩

/-- An offset that matches nothing. -/
def encScanMissState : State :=
  withEnc { encUnit .scan 3 3 3 0 with cap := 6, dmax := 3, scanD := 1 }

/-- The search over; an offset that improves; one that does not. -/
theorem witness_ScanStepTriesOneOffset :
    (encScanLateState.Inv ∧ encScanLateState.encMoves ∧ encScanLateState.enc.phase = .scan
      ∧ encScanLateState.enc.dmax.toNat < encScanLateState.enc.scanD.toNat)
    ∧ (encScanState.Inv ∧ encScanState.encMoves ∧ encScanState.enc.phase = .scan
      ∧ encScanState.enc.bestLen.toNat < matchLen encScanState 0 3 6)
    ∧ (encScanMissState.Inv ∧ encScanMissState.encMoves ∧ encScanMissState.enc.phase = .scan
      ∧ ¬ encScanMissState.enc.bestLen.toNat < matchLen encScanMissState 2 3 6) :=
  ⟨⟨encScanLate_inv, encMoves_of rfl rfl (by decide), by decide⟩,
    ⟨encScan_inv, encMoves_of rfl rfl (by decide), by decide⟩,
    ⟨inv_of_encoding (by decide) (by decide) (by decide) (by decide) (by decide) (by decide)
      (by decide) (by decide)
      (fun _ => ⟨by decide, by decide, by decide, by decide, by decide, by decide⟩)
      (fun h => absurd h (by decide)) rfl,
      encMoves_of rfl rfl (by decide), by decide⟩⟩

/-- The last position of the input. -/
theorem witness_BestMatchIsTheNearestLongest :
    8 < abcabcabc.length ∧ bestMatch abcabcabc 5 2048 8 = (1, 3)
    ∧ bestMatch abcabcabc 5 2048 0 = (0, 0) := by decide

theorem witness_SearchFindsTheBestMatch :
    encEmitRefState.Inv ∧ encEmitRefState.enc.phase = .emit :=
  ⟨encEmitRef_inv, rfl⟩

theorem witness_EmitStepWritesALiteral :
    encEmitLitState.Inv ∧ encEmitLitState.encMoves ∧ encEmitLitState.enc.phase = .emit
    ∧ encEmitLitState.enc.bestLen.toNat < encEmitLitState.enc.minMatch.toNat :=
  ⟨encEmitLit_inv, encMoves_of rfl rfl (by decide), by decide⟩

theorem witness_EmitStepWritesABackReference :
    encEmitRefState.Inv ∧ encEmitRefState.encMoves ∧ encEmitRefState.enc.phase = .emit
    ∧ encEmitRefState.enc.minMatch.toNat ≤ encEmitRefState.enc.bestLen.toNat :=
  ⟨encEmitRef_inv, encMoves_of rfl rfl (by decide), by decide⟩

/-- A partial last bitmap byte, and none (the empty input of R130). -/
theorem witness_FlushStepEndsTheRun :
    (encFlushState.Inv ∧ encFlushState.encMoves ∧ encFlushState.enc.phase = .flush
      ∧ encFlushState.enc.opCount.toNat % 8 ≠ 0)
    ∧ (encFlushEmptyState.Inv ∧ encFlushEmptyState.encMoves ∧ encFlushEmptyState.enc.phase = .flush
      ∧ encFlushEmptyState.enc.opCount.toNat % 8 = 0) :=
  ⟨⟨encFlush_inv, encMoves_of rfl rfl (by decide), by decide⟩,
    ⟨encFlushEmpty_inv, encMoves_of rfl rfl (by decide), by decide⟩⟩

theorem witness_EncoderStepFrame :
    encEmitRefState.Inv ∧ encEmitRefState.encMoves ∧ ∃ t, step encEmitRefState = .next t :=
  ⟨encEmitRef_inv, encMoves_of rfl rfl (by decide), next_of_isNext (by decide)⟩

theorem witness_ResetPutsEveryRegisterInItsResetState :
    (decCopyState.setAgenda [.reset]).agenda = .reset :: [] := rfl

/-- An encoder run with one bitmap byte completed and one stale byte after each result. -/
def encResetState : State :=
  (withEnc { encUnit .pos 8 8 8 0 with
    ebm := outBytes [0x00, 0xAA], efs := outBytes [0x41, 0x42, 0x43, 0x41, 0x42, 0x43, 0x41, 0x42, 0xBB]
    }).setAgenda [.reset]

/-- A run in each unit, at the last byte the run has written and at the first it has not; no run. -/
theorem witness_ResetKeepsOnlyAnAbandonedRunsOutput :
    (decCopyState.setAgenda [.reset]).agenda = .reset :: [] ∧ encResetState.agenda = .reset :: []
    ∧ (decCopyState.dec.running ∧ 8 < decCopyState.dec.uncompSize.toNat
      ∧ ¬ 9 < decCopyState.dec.uncompSize.toNat ∧ (decCopyState.mem .dout).lookup 8 = some 0)
    ∧ (encResetState.enc.running ∧ 7 < encResetState.enc.fsLen.toNat
      ∧ ¬ 8 < encResetState.enc.fsLen.toNat)
    ∧ (0 < encResetState.enc.opCount.toNat / 8 ∧ ¬ 1 < encResetState.enc.opCount.toNat / 8)
    ∧ ¬ (withDec { decCopyState.dec with runState := .done, phase := .halt }).dec.running := by decide

/-- R57: what a run in progress had written stays, stale bytes do not. -/
theorem test_reset_encoder : after (step encResetState) (fun t => (t.enc.ebm, t.enc.efs.length))
    = some ([(0, 0x00)], 8) := by decide

/-- R57, R251: with no run in progress the output is unspecified again. -/
theorem test_reset_at_rest :
    after (step ((withDec { decCopyState.dec with runState := .done, phase := .halt }).setAgenda
      [.reset])) (fun t => (t.dec.dout, t.epoch)) = some ([], 1) := by decide

theorem witness_StepKeepsTheInvariant :
    (decCopyState.Inv ∧ ∃ t, step decCopyState = .next t)
    ∧ (encScanState.Inv ∧ ∃ t, step encScanState = .next t) :=
  ⟨⟨decCopy_inv, next_of_isNext (by decide)⟩, ⟨encScan_inv, next_of_isNext (by decide)⟩⟩

theorem witness_OnlyHostMemoryMovesStop : decCopyState.Inv ∧ encEmitRefState.Inv :=
  ⟨decCopy_inv, encEmitRef_inv⟩

/-- The other unit, the pending turns and the host's reads differ. -/
def otherState : State :=
  { decCopyState with enc := encPosState.enc, agenda := [.enc], returned := [7] }

theorem witness_UnitsAreIndependent :
    otherState.plat = decCopyState.plat ∧ otherState.epoch = decCopyState.epoch
    ∧ otherState.dec = decCopyState.dec ∧ (∃ t, decTurn decCopyState = .next t)
    ∧ otherState.enc = encPosState.enc ∧ ∃ t, encTurn encPosState = .next t :=
  ⟨rfl, rfl, rfl, next_of_isNext (by decide), rfl, next_of_isNext (by decide)⟩

theorem witness_PlatformAndUnwrittenBytesAreStable :
    (∃ t, step decLitState = .next t) ∧ decLitState.agenda.head? ≠ some .reset
    ∧ (decLitState.mem .dout).lookup 9 = none :=
  ⟨next_of_isNext (by decide), by decide, by decide⟩

theorem witness_DecoderRunEnds :
    decOpState.Inv ∧ decOpState.agenda = [] ∧ decOpState.dec.running :=
  ⟨decOp_inv, rfl, by decide⟩

theorem witness_EncoderRunEnds :
    encBeginState.Inv ∧ encBeginState.agenda = [] ∧ encBeginState.dec.runState ≠ .busy
    ∧ encBeginState.enc.runState = .busy :=
  ⟨encBegin_inv, by decide⟩

theorem witness_DecoderComputesDecode :
    decBeginState.Inv ∧ decBeginState.agenda = [] ∧ decBeginState.dec.phase = .begin_
    ∧ (after (step decBeginState) fun t => t.dec.runState) = some .busy :=
  ⟨decBegin_inv, by decide⟩

theorem witness_EncoderComputesCompress :
    encBeginState.Inv ∧ encBeginState.agenda = [] ∧ encBeginState.dec.runState ≠ .busy
    ∧ encBeginState.enc.phase = .begin_
    ∧ (after (step encBeginState) fun t => t.enc.runState) = some .busy :=
  ⟨encBegin_inv, by decide⟩

/-- A split, the largest window and the smallest `MINM`; `T12`'s block has a back-reference. -/
theorem witness_CompressKeepsItsBounds :
    5 ≤ 16 ∧ 2048 ≤ 2 ^ (16 - 5) ∧ 2 ≤ 2
    ∧ compress abcabcabc 5 2048 2 = ⟨9, 4, [0x08], [0x41, 0x42, 0x43, 0x45, 0x00]⟩
    ∧ (compress abcabcabc 5 2048 2).operation 5 3 = .ref 3 6 := by decide

theorem witness_RoundTrip :
    0 ≤ 16 ∧ 65536 ≤ 2 ^ (16 - 0) ∧ 16 ≤ 16 ∧ 1 ≤ 2 ^ (16 - 16) ∧ 2 ≤ 2 := by decide

end Sys2Proof.Tests
end

section
/-! PROOF. The run states (10_state.md R23): what a unit's own step, a host move and a step of the
machine do to each unit's run state. -/

namespace Sys2Proof.Machine

variable {s t : State}

/-! The decoder's own step. -/

/-- What a decoder step of a run in progress does: nothing outside `DEC`, and the run stays `BUSY` or
ends in `DONE` or `ERROR`. -/
def State.decGoesOn (s t : State) : Prop :=
  s.onlyDec t ∧ t.dec.runState ≠ .idle

theorem State.decGoesOn_setDec {d : Dec} (h : d.runState ≠ .idle) : s.decGoesOn (s.setDec d) :=
  ⟨⟨rfl, rfl, rfl, rfl, rfl⟩, h⟩

theorem State.decGoesOn_raise (kind : ErrorKind) (p : Nat) : s.decGoesOn (raise .dec kind p s) :=
  State.decGoesOn_setDec (by simp)

/-- Changes of the decoder unit before a step do not matter. -/
theorem State.decGoesOn_of_setDec {d : Dec} (h : (s.setDec d).decGoesOn t) : s.decGoesOn t := h

/-- The section parse ends in `TruncatedInput` or goes on; before that it has written descriptor
registers only (42_host_commands.md R196). -/
theorem parseSection_next {k : State → Result} (h : parseSection s k = .next t) :
    ∃ d : Dec, ((∃ p, t = raise .dec .truncatedInput p (s.setDec d)) ∨ k (s.setDec d) = .next t) ∧
      d.runState = s.dec.runState := by
  unfold parseSection at h
  dsimp only at h
  split at h
  · cases h
    exact ⟨s.dec, .inl ⟨_, rfl⟩, rfl⟩
  · replace h := load32_next (load32_next h)
    split at h
    · cases h
      exact ⟨_, .inl ⟨_, rfl⟩, rfl⟩
    · split at h
      · split at h
        · cases h
          exact ⟨_, .inl ⟨_, rfl⟩, rfl⟩
        · replace h := load32_next h
          split at h
          · cases h
            exact ⟨_, .inl ⟨_, rfl⟩, rfl⟩
          · exact ⟨_, .inr h, rfl⟩
      · exact ⟨_, .inr h, rfl⟩

theorem openOutput_decGoesOn (hb : s.dec.runState = .busy) (h : openOutput s = .next t) :
    s.decGoesOn t := by
  rcases openOutput_cases s with ⟨_, hk⟩ | ⟨_, hk⟩ <;> rw [hk] at h <;> cases h
  · exact State.decGoesOn_raise _ _
  · exact State.decGoesOn_setDec (by simp [hb])

theorem decBegin_decGoesOn (hb : s.dec.runState = .busy) (h : decBegin s = .next t) :
    s.decGoesOn t := by
  unfold decBegin at h
  split at h
  · cases h
    exact State.decGoesOn_raise _ _
  · split at h
    · cases h
      exact State.decGoesOn_raise _ _
    · split at h
      · obtain ⟨d, ⟨p, rfl⟩ | hk, hd⟩ := parseSection_next h
        · exact State.decGoesOn_of_setDec (State.decGoesOn_raise _ _)
        · exact State.decGoesOn_of_setDec (openOutput_decGoesOn (hd.trans hb) hk)
      · rcases checkWindows_cases s openOutput with ⟨p, hk⟩ | ⟨_, _, hk⟩ <;> rw [hk] at h
        · cases h
          exact State.decGoesOn_raise _ _
        · exact openOutput_decGoesOn hb h

theorem decFinish_decGoesOn (h : decFinish s = .next t) : s.decGoesOn t := by
  rcases decFinish_cases s with ⟨_, _, hk⟩ | ⟨_, hk⟩ <;> rw [hk] at h <;> cases h <;>
    exact State.decGoesOn_setDec (by simp)

theorem decOp_decGoesOn (hb : s.dec.runState = .busy) (h : decOp s = .next t) :
    s.decGoesOn t := by
  unfold decOp at h
  dsimp only at h
  split at h
  · exact decFinish_decGoesOn h
  · split at h
    · split at h
      · cases h
        exact State.decGoesOn_raise _ _
      · obtain ⟨_, h⟩ := load_next h
        cases h
        exact State.decGoesOn_setDec (by simp [hb])
    · cases h
      exact State.decGoesOn_setDec (by simp [hb])

theorem execLit_decGoesOn {value : Byte} (hb : s.dec.runState = .busy)
    (h : execLit value s = .next t) : s.decGoesOn t := by
  unfold execLit at h
  split at h
  · cases h
    exact State.decGoesOn_raise _ _
  · obtain ⟨_, h⟩ := store_next h
    cases h
    exact State.decGoesOn_setDec (by simp [hb])

theorem beginCopy_decGoesOn {offset length : Nat} (hb : s.dec.runState = .busy)
    (h : beginCopy offset length s = .next t) : s.decGoesOn t := by
  rcases beginCopy_cases offset length s with ⟨_, hk⟩ | ⟨_, hk⟩ <;> rw [hk] at h <;> cases h
  · exact State.decGoesOn_raise _ _
  · exact State.decGoesOn_setDec (by simp [hb])

theorem decCopy_decGoesOn (hb : s.dec.runState = .busy) (h : decCopy s = .next t) :
    s.decGoesOn t := by
  unfold decCopy at h
  dsimp only at h
  split at h
  · cases h
    exact State.decGoesOn_raise _ _
  · obtain ⟨_, h⟩ := load_next h
    obtain ⟨_, h⟩ := store_next h
    split at h <;> cases h <;> exact State.decGoesOn_setDec (by simp [hb])

/-- A turn of `DEC` is the step of a run in progress, or nothing (41_decoder.md R154). -/
theorem decTurn_next (h : decTurn s = .next t) :
    (s.dec.runState ≠ .busy ∧ t = s) ∨ (s.dec.runState = .busy ∧ s.decGoesOn t) := by
  by_cases hb : s.dec.runState = .busy
  · refine .inr ⟨hb, ?_⟩
    cases hp : s.dec.phase with
    | halt => simp [decTurn, hb, hp] at h
    | begin_ => exact decBegin_decGoesOn hb (decTurn_begin hb hp ▸ h)
    | op => exact decOp_decGoesOn hb (decTurn_op hb hp ▸ h)
    | lit =>
      rcases runOperation_lit_next (decTurn_lit hb hp ▸ h) with ⟨_, rfl⟩ | ⟨_, h⟩
      · exact State.decGoesOn_raise _ _
      · exact execLit_decGoesOn hb h
    | ref =>
      rcases runOperation_ref_next (decTurn_ref hb hp ▸ h) with ⟨_, rfl⟩ | ⟨_, h⟩
      · exact State.decGoesOn_raise _ _
      · exact beginCopy_decGoesOn hb h
    | copy => exact decCopy_decGoesOn hb (decTurn_copy hb hp ▸ h)
  · rw [decTurn_of_rest hb] at h
    cases h
    exact .inl ⟨hb, rfl⟩

/-! The encoder's own step. -/

/-- What an encoder step of a run in progress does: nothing outside `ENC`, and the run stays `BUSY` or
ends in `DONE` or `ERROR`. -/
def State.encGoesOn (s t : State) : Prop :=
  s.onlyEnc t ∧ t.enc.runState ≠ .idle

theorem State.encGoesOn_setEnc {e : Enc} (h : e.runState ≠ .idle) : s.encGoesOn (s.setEnc e) :=
  ⟨⟨rfl, rfl, rfl, rfl, rfl⟩, h⟩

theorem State.encGoesOn_raise (kind : ErrorKind) (p : Nat) : s.encGoesOn (raise .enc kind p s) :=
  State.encGoesOn_setEnc (by simp)

theorem encBegin_encGoesOn (hb : s.enc.runState = .busy) (h : encBegin s = .next t) :
    s.encGoesOn t := by
  unfold encBegin at h
  dsimp only at h
  split at h
  · cases h
    exact State.encGoesOn_raise _ _
  · split at h <;> cases h
    · exact State.encGoesOn_raise _ _
    · exact State.encGoesOn_setEnc (by simp [hb])

theorem encPos_encGoesOn (hb : s.enc.runState = .busy) (h : encPos s = .next t) :
    s.encGoesOn t := by
  unfold encPos at h
  dsimp only at h
  split at h <;> cases h <;> exact State.encGoesOn_setEnc (by simp [hb])

theorem encScan_encGoesOn (hb : s.enc.runState = .busy) (h : encScan s = .next t) :
    s.encGoesOn t := by
  unfold encScan at h
  dsimp only at h
  split at h
  · cases h
    exact State.encGoesOn_setEnc (by simp [hb])
  · split at h <;> cases h
    exact State.encGoesOn_setEnc (by dsimp only; split <;> simp [hb])

/-- Appending a control bit goes on with the encoder unit changed, but not its run state
(40_encoder.md R128). -/
theorem appendControlBit_next {c : Bool} {k : State → Result}
    (h : appendControlBit c s k = .next t) :
    ∃ e : Enc, k (s.setEnc e) = .next t ∧ e.runState = s.enc.runState := by
  rcases appendControlBit_cases c s k with ⟨_, _, hk⟩ | ⟨_, _, hk⟩ | ⟨_, hk⟩ <;> rw [hk] at h
  · exact ⟨_, h, rfl⟩
  · cases h
  · exact ⟨_, h, rfl⟩

/-- Emitting a literal goes on with the encoder unit changed, but not its run state
(40_encoder.md R126). -/
theorem emitLit_next {k : State → Result} (h : emitLit s k = .next t) :
    ∃ e : Enc, k (s.setEnc e) = .next t ∧ e.runState = s.enc.runState := by
  unfold emitLit at h
  obtain ⟨_, h⟩ := load_next h
  obtain ⟨_, h⟩ := store_next h
  obtain ⟨e, hk, he⟩ := appendControlBit_next h
  exact ⟨e, hk, he⟩

/-- Emitting a back-reference goes on with the encoder unit changed, but not its run state
(40_encoder.md R127). -/
theorem emitRef_next {k : State → Result} (h : emitRef s k = .next t) :
    ∃ e : Enc, k (s.setEnc e) = .next t ∧ e.runState = s.enc.runState := by
  unfold emitRef at h
  obtain ⟨_, h⟩ := store_next h
  obtain ⟨_, h⟩ := store_next h
  obtain ⟨e, hk, he⟩ := appendControlBit_next h
  exact ⟨e, hk, he⟩

theorem encEmit_encGoesOn (hb : s.enc.runState = .busy) (h : encEmit s = .next t) :
    s.encGoesOn t := by
  have again {e : Enc} (he : e.runState = s.enc.runState)
      (hk : Host.Outcome.next ((s.setEnc e).setEnc { e with phase := .pos }) = (.next t : Result)) :
      s.encGoesOn t := by
    cases hk
    exact State.encGoesOn_setEnc (by simp [he, hb])
  unfold encEmit at h
  dsimp only at h
  split at h
  · obtain ⟨e, hk, he⟩ := emitRef_next h
    exact again he hk
  · obtain ⟨e, hk, he⟩ := emitLit_next h
    exact again he hk

theorem encFlush_encGoesOn (h : encFlush s = .next t) : s.encGoesOn t := by
  unfold encFlush at h
  dsimp only at h
  split at h
  · obtain ⟨_, h⟩ := store_next h
    cases h
    exact State.encGoesOn_setEnc (by simp)
  · cases h
    exact State.encGoesOn_setEnc (by simp)

/-- A turn of `ENC` is the step of a run in progress, or nothing (40_encoder.md R131). -/
theorem encTurn_next (h : encTurn s = .next t) :
    (s.enc.runState ≠ .busy ∧ t = s) ∨ (s.enc.runState = .busy ∧ s.encGoesOn t) := by
  by_cases hb : s.enc.runState = .busy
  · refine .inr ⟨hb, ?_⟩
    cases hp : s.enc.phase with
    | halt => simp [encTurn, hb, hp] at h
    | begin_ => exact encBegin_encGoesOn hb (encTurn_begin hb hp ▸ h)
    | pos => exact encPos_encGoesOn hb (encTurn_pos hb hp ▸ h)
    | scan => exact encScan_encGoesOn hb (encTurn_scan hb hp ▸ h)
    | emit => exact encEmit_encGoesOn hb (encTurn_emit hb hp ▸ h)
    | flush => exact encFlush_encGoesOn (encTurn_flush hb hp ▸ h)
  · rw [encTurn_of_rest hb] at h
    cases h
    exact .inl ⟨hb, rfl⟩

/-! The host's moves. -/

/-- The run states depend on the two units alone. -/
@[simp] theorem State.runStateOf_popped (s : State) (u : UnitId) :
    s.popped.runStateOf u = s.runStateOf u := by cases u <;> rfl

@[simp] theorem State.runStateOf_giveBack (s : State) (v : Word) (u : UnitId) :
    (s.giveBack v).runStateOf u = s.runStateOf u := by cases u <;> rfl

@[simp] theorem State.runStateOf_setMem (s : State) (sp : Space) (m : Memory) (u : UnitId) :
    (s.setMem sp m).runStateOf u = s.runStateOf u := by cases sp <;> cases u <;> rfl

@[simp] theorem State.runStateOf_resetEvent (s : State) (u : UnitId) :
    (resetEvent s).runStateOf u = .idle := by cases u <;> rfl

/-- A START makes its own unit `BUSY` and leaves the other alone. -/
@[simp] theorem State.runStateOf_startRun (s : State) (u u' : UnitId) (mode : RunMode) :
    (startRun u mode s).runStateOf u' = if u' = u then .busy else s.runStateOf u' := by
  cases u <;> cases u' <;> rfl

@[simp] theorem Dec.regWrite_runState (d : Dec) (v : Word) (o : Nat) :
    (d.regWrite v o).runState = d.runState := by
  unfold Dec.regWrite; split <;> rfl

@[simp] theorem Enc.regWrite_runState (e : Enc) (v : Word) (o : Nat) :
    (e.regWrite v o).runState = e.runState := by
  unfold Enc.regWrite; split <;> rfl

@[simp] theorem State.runStateOf_regWrite (s : State) (u u' : UnitId) (o : Nat) (v : Word) :
    (s.regWrite u o v).runStateOf u' = s.runStateOf u' := by
  cases u <;> cases u' <;> simp [State.regWrite]

/-- The commands of a unit's `CTRL` are its START commands (30_encoding.md R113). -/
theorem exec_of_decodeCommand {u : UnitId} {v : Word} {i : Instr} (h : decodeCommand u v = .ok i)
    (s : State) : ∃ mode, exec i s = startUnlessBusy u mode s := by
  cases u <;> simp only [decodeCommand] at h <;> split_ifs at h <;> cases h
  · exact ⟨.block, rfl⟩
  · exact ⟨.sectioned, rfl⟩
  · exact ⟨.block, rfl⟩

/-- A command written to `CTRL` of a unit that is not `BUSY` begins a run
(42_host_commands.md R193, R194, R200). -/
theorem hostRegWrite_start {u : UnitId} {v : Word} {i : Instr} (hb : s.runStateOf u ≠ .busy)
    (hi : decodeCommand u v = .ok i) :
    ∃ mode, hostRegWrite u ctrlOffset v s = .next (startRun u mode s) := by
  obtain ⟨mode, he⟩ := exec_of_decodeCommand hi s
  exact ⟨mode, by simp [hostRegWrite, hb, hi, he, startUnlessBusy]⟩

/-- Any other register write keeps both run states (42_host_commands.md R191). -/
theorem hostRegWrite_runStateOf {u : UnitId} {o : Nat} {v : Word}
    (hn : s.runStateOf u = .busy ∨ o ≠ ctrlOffset ∨ ∀ i, decodeCommand u v ≠ .ok i)
    (h : hostRegWrite u o v s = .next t) (u' : UnitId) : t.runStateOf u' = s.runStateOf u' := by
  unfold hostRegWrite at h
  split at h
  · cases h; rfl
  · rename_i hb
    split at h
    · rename_i ho
      split at h
      · rename_i i hi
        simp [hb, ho, hi] at hn
      · cases h; rfl
    · cases h
      exact State.runStateOf_regWrite ..

/-- The host's move is a START of the unit: a command in a write to its `CTRL`. -/
def HostMove.starts (m : HostMove) (u : UnitId) : Prop :=
  ∃ v i, m = .regWrite u ctrlOffset v ∧ decodeCommand u v = .ok i

/-- A START of a unit that is not `BUSY` makes it `BUSY` (10_state.md R23). -/
theorem HostMove.starts_busy {m : HostMove} {u : UnitId} (hm : m.starts u)
    (hb : s.runStateOf u ≠ .busy) (h : hostMove m s = .next t) : t.runStateOf u = .busy := by
  obtain ⟨v, i, rfl, hi⟩ := hm
  obtain ⟨mode, hk⟩ := hostRegWrite_start hb hi
  cases hk.symm.trans h
  simp

/-- A move of the host changes a unit's run state only by a START while the unit is not `BUSY`. -/
theorem hostMove_runStateOf {m : HostMove} (h : hostMove m s = .next t) (u : UnitId) :
    t.runStateOf u = s.runStateOf u ∨ (s.runStateOf u ≠ .busy ∧ m.starts u) := by
  cases m with
  | regRead u' o =>
    cases h
    exact .inl (by simp)
  | regWrite u' o v =>
    by_cases hn : s.runStateOf u' = .busy ∨ o ≠ ctrlOffset ∨ ∀ i, decodeCommand u' v ≠ .ok i
    · exact .inl (hostRegWrite_runStateOf hn h u)
    · push Not at hn
      obtain ⟨hb, rfl, i, hi⟩ := hn
      by_cases hu : u = u'
      · subst hu
        exact .inr ⟨hb, v, i, rfl, hi⟩
      · obtain ⟨mode, hk⟩ := hostRegWrite_start hb hi
        cases hk.symm.trans h
        exact .inl (by simp [hu])
  | memRead sp a =>
    simp only [hostMove] at h
    split at h
    · cases h
    · obtain ⟨_, h⟩ := load_next h
      cases h
      exact .inl (by simp)
  | memWrite sp a v =>
    simp only [hostMove] at h
    split at h
    · cases h
    · obtain ⟨_, h⟩ := store_next h
      cases h
      exact .inl (by simp)

/-! The machine's step. -/

/-- The next turn is the unit's own, and the unit is `BUSY`. -/
def State.moves (s : State) : UnitId → Prop
  | .dec => s.decMoves
  | .enc => s.encMoves

/-- A turn of `DEC` keeps the run state of every unit, but for a `BUSY` decoder that goes on. -/
theorem decTurn_runStateOf (h : decTurn s = .next t) (u : UnitId) :
    t.runStateOf u = s.runStateOf u ∨
      (u = .dec ∧ s.dec.runState = .busy ∧ t.runStateOf u ≠ .idle) := by
  rcases decTurn_next h with ⟨_, rfl⟩ | ⟨hb, ⟨henc, _⟩, ht⟩
  · exact .inl rfl
  · cases u with
    | dec => exact .inr ⟨rfl, hb, ht⟩
    | enc => exact .inl (by simp [henc])

/-- A turn of `ENC` keeps the run state of every unit, but for a `BUSY` encoder that goes on. -/
theorem encTurn_runStateOf (h : encTurn s = .next t) (u : UnitId) :
    t.runStateOf u = s.runStateOf u ∨
      (u = .enc ∧ s.enc.runState = .busy ∧ t.runStateOf u ≠ .idle) := by
  rcases encTurn_next h with ⟨_, rfl⟩ | ⟨hb, ⟨hdec, _⟩, ht⟩
  · exact .inl rfl
  · cases u with
    | dec => exact .inl (by simp [hdec])
    | enc => exact .inr ⟨rfl, hb, ht⟩

theorem State.runStateOf_busy_of_moves {u : UnitId} (h : s.moves u) : s.runStateOf u = .busy := by
  cases u <;> exact h.1

/-- R23, the whole list: a step resets, or keeps the unit's run state, or starts a unit that is not
`BUSY`, or is the own step of a `BUSY` unit, which does not become `IDLE` by it. -/
theorem step_runStateOf_cases (h : step s = .next t) (u : UnitId) :
    (s.agenda.head? = some .reset ∧ t.runStateOf u = .idle) ∨
    t.runStateOf u = s.runStateOf u ∨
    (s.runStateOf u ≠ .busy ∧ ∃ m : HostMove, s.agenda.head? = some (.host m) ∧ m.starts u) ∨
    (s.moves u ∧ t.runStateOf u ≠ .idle) := by
  rcases step_cases s with ⟨turn, rest, ha, hs⟩ | ⟨ha, hb, hs⟩ | ⟨ha, hd, hs⟩ <;> rw [hs] at h
  · cases turn with
    | dec =>
      rcases decTurn_runStateOf h u with heq | ⟨rfl, hb, ht⟩
      · exact .inr (.inl (by simpa using heq))
      · exact .inr (.inr (.inr ⟨⟨hb, .inr ⟨rest, ha⟩⟩, ht⟩))
    | enc =>
      rcases encTurn_runStateOf h u with heq | ⟨rfl, hb, ht⟩
      · exact .inr (.inl (by simpa using heq))
      · exact .inr (.inr (.inr ⟨⟨hb, .inr ⟨rest, ha⟩⟩, ht⟩))
    | host m =>
      rcases hostMove_runStateOf h u with heq | ⟨hb, hm⟩
      · exact .inr (.inl (by simpa using heq))
      · exact .inr (.inr (.inl ⟨by simpa using hb, m, by simp [ha], hm⟩))
    | reset =>
      cases h
      exact .inl (by simp [ha])
  · rcases decTurn_runStateOf h u with heq | ⟨rfl, _, ht⟩
    · exact .inr (.inl heq)
    · exact .inr (.inr (.inr ⟨⟨hb, .inl ha⟩, ht⟩))
  · rcases encTurn_runStateOf h u with heq | ⟨rfl, hb, ht⟩
    · exact .inr (.inl heq)
    · exact .inr (.inr (.inr ⟨⟨hb, .inl ⟨ha, hd⟩⟩, ht⟩))

/-- A reset that is the next turn makes every unit `IDLE`. -/
theorem step_reset_runStateOf (hr : s.agenda.head? = some .reset) (h : step s = .next t)
    (u : UnitId) : t.runStateOf u = .idle := by
  obtain ⟨rest, ha⟩ := List.head?_eq_some_iff.mp hr
  rw [step_of_turn ha] at h
  cases h
  simp

/-- A START that is the next turn makes a unit that is not `BUSY` `BUSY`. -/
theorem step_start_runStateOf {m : HostMove} {u : UnitId} (hm : s.agenda.head? = some (.host m))
    (hs : m.starts u) (hb : s.runStateOf u ≠ .busy) (h : step s = .next t) :
    t.runStateOf u = .busy := by
  obtain ⟨rest, ha⟩ := List.head?_eq_some_iff.mp hm
  rw [step_of_turn ha] at h
  exact HostMove.starts_busy (s := s.popped) hs (by simpa using hb) h

/-- Short of a reset, only a START changes the run state of a unit that is not `BUSY`. -/
theorem step_runStateOf_of_rest {u : UnitId} (h : step s = .next t)
    (hr : s.agenda.head? ≠ some .reset) (hb : s.runStateOf u ≠ .busy)
    (hne : t.runStateOf u ≠ s.runStateOf u) :
    ∃ m : HostMove, s.agenda.head? = some (.host m) ∧ m.starts u := by
  rcases step_runStateOf_cases h u with ⟨hr', _⟩ | heq | ⟨_, hm⟩ | ⟨hmv, _⟩
  · exact absurd hr' hr
  · exact absurd heq hne
  · exact hm
  · exact absurd (State.runStateOf_busy_of_moves hmv) hb

/-- Short of a reset, a `BUSY` unit stays `BUSY` or ends its run by its own step. -/
theorem step_runStateOf_of_busy {u : UnitId} (h : step s = .next t)
    (hr : s.agenda.head? ≠ some .reset) (hb : s.runStateOf u = .busy) :
    t.runStateOf u = .busy ∨
      ((t.runStateOf u = .done ∨ t.runStateOf u = .error) ∧ s.moves u) := by
  rcases step_runStateOf_cases h u with ⟨hr', _⟩ | heq | ⟨hnb, _⟩ | ⟨hmv, hni⟩
  · exact absurd hr' hr
  · exact .inl (heq.trans hb)
  · exact absurd hb hnb
  · cases ht : t.runStateOf u with
    | idle => exact absurd ht hni
    | busy => exact .inl rfl
    | done => exact .inr ⟨.inl rfl, hmv⟩
    | error => exact .inr ⟨.inr rfl, hmv⟩

/-- Settles O31, from the list of everything a step can do to a unit's run state. -/
theorem runStateTransitions : Obligations.RunStateTransitions := by
  refine ⟨⟨rfl, rfl, rfl, rfl⟩, fun s t u h => ⟨fun hr => step_reset_runStateOf hr h u,
    fun hr hb => ⟨fun v i hm hi => step_start_runStateOf hm ⟨v, i, rfl, hi⟩ hb h, fun hne => ?_⟩,
    fun hr hb => ?_⟩⟩
  · obtain ⟨m, hm, hs⟩ := step_runStateOf_of_rest h hr hb hne
    have ht := step_start_runStateOf hm hs hb h
    obtain ⟨v, i, rfl, hi⟩ := hs
    exact ⟨ht, v, i, hm, hi⟩
  · cases u <;> exact step_runStateOf_of_busy h hr hb

end Sys2Proof.Machine
end

section
/-! PROOF. The packed field of a back-reference as quotient and remainder (30_encoding.md R100, R101). -/

namespace Sys2Proof

theorem Split.valid_iff {sp : Split} : sp.valid = true ↔ sp.offsetBits + sp.lengthBits = 16 := by
  simp [Split.valid]

theorem Split.admits_iff {sp : Split} {offset length : Nat} :
    sp.admits offset length = true ↔
      1 ≤ offset ∧ offset ≤ 2 ^ sp.offsetBits ∧ 1 ≤ length ∧ length ≤ 2 ^ sp.lengthBits := by
  simp [Split.admits]

/-- The two powers of a valid split make up the 16 bits of the field. -/
theorem Split.two_pow_mul {sp : Split} (h : sp.valid = true) :
    2 ^ sp.lengthBits * 2 ^ sp.offsetBits = 2 ^ 16 := by
  rw [← Nat.pow_add, Nat.add_comm, Split.valid_iff.mp h]

theorem unpackOffset_eq (l field : Nat) : unpackOffset l field = field / 2 ^ l + 1 := by
  rw [unpackOffset, Nat.shiftRight_eq_div_pow]

theorem unpackLength_eq (l field : Nat) : unpackLength l field = field % 2 ^ l + 1 := by
  rw [unpackLength, Nat.and_two_pow_sub_one_eq_mod]

/-- The two parts do not overlap, so the bitwise or is the sum. -/
theorem packField_eq_add {l length : Nat} (offset : Nat) (hlen : length - 1 < 2 ^ l) :
    packField l offset length = (offset - 1) * 2 ^ l + (length - 1) := by
  rw [packField, ← Nat.shiftLeft_add_eq_or_of_lt hlen, Nat.shiftLeft_eq]

/-- Every pair of positive operands whose length fits comes back. -/
theorem unpack_packField {l offset length : Nat} (ho : 1 ≤ offset) (hl : 1 ≤ length)
    (hlen : length ≤ 2 ^ l) :
    unpackOffset l (packField l offset length) = offset ∧
      unpackLength l (packField l offset length) = length := by
  have hlt : length - 1 < 2 ^ l := by omega
  rw [packField_eq_add offset hlt, unpackOffset_eq, unpackLength_eq, Nat.mul_comm,
    Nat.mul_add_div (Nat.two_pow_pos l), Nat.div_eq_of_lt hlt, Nat.mul_add_mod,
    Nat.mod_eq_of_lt hlt]
  omega

/-- Every natural is the packing of what it unpacks to. -/
theorem packField_unpack (l field : Nat) :
    packField l (unpackOffset l field) (unpackLength l field) = field := by
  have hmod : field % 2 ^ l < 2 ^ l := Nat.mod_lt _ (Nat.two_pow_pos l)
  rw [unpackOffset_eq, unpackLength_eq, packField_eq_add _ hmod]
  exact Nat.div_add_mod' field (2 ^ l)

/-- The packed field of a pair in the domain has 16 bits. -/
theorem packField_lt {sp : Split} {offset length : Nat} (hv : sp.valid = true)
    (ha : sp.admits offset length = true) : packField sp.lengthBits offset length < 2 ^ 16 := by
  obtain ⟨ho, ho', hl, hl'⟩ := Split.admits_iff.mp ha
  rw [packField_eq_add offset (by omega)]
  calc (offset - 1) * 2 ^ sp.lengthBits + (length - 1)
      < (offset - 1) * 2 ^ sp.lengthBits + 2 ^ sp.lengthBits := by omega
    _ = 2 ^ sp.lengthBits * offset := by
        rw [← Nat.succ_mul, Nat.succ_eq_add_one, Nat.sub_add_cancel ho, Nat.mul_comm]
    _ ≤ 2 ^ sp.lengthBits * 2 ^ sp.offsetBits := Nat.mul_le_mul_left _ ho'
    _ = 2 ^ 16 := Split.two_pow_mul hv

/-- A field of 16 bits unpacks to a pair in the domain. -/
theorem admits_unpack {sp : Split} {field : Nat} (hv : sp.valid = true) (hf : field < 2 ^ 16) :
    sp.admits (unpackOffset sp.lengthBits field) (unpackLength sp.lengthBits field) = true := by
  rw [← Split.two_pow_mul hv] at hf
  have hoff : field / 2 ^ sp.lengthBits < 2 ^ sp.offsetBits := Nat.div_lt_of_lt_mul hf
  have hlen : field % 2 ^ sp.lengthBits < 2 ^ sp.lengthBits := Nat.mod_lt _ (Nat.two_pow_pos _)
  rw [Split.admits_iff, unpackOffset_eq, unpackLength_eq]
  exact ⟨Nat.succ_pos _, hoff, Nat.succ_pos _, hlen⟩

/-- Settles O4: packing and unpacking are the sum and the quotient and remainder by `2 ^ L`, which are
inverse to each other. -/
theorem packedFieldIsABijection : Obligations.PackedFieldIsABijection := by
  refine fun sp hv => ⟨fun offset length ha => ?_, fun field hf =>
    ⟨admits_unpack hv hf, packField_unpack _ _⟩⟩
  obtain ⟨ho, _, hl, hl'⟩ := Split.admits_iff.mp ha
  exact ⟨packField_eq_add offset (by omega), packField_lt hv ha, unpack_packField ho hl hl'⟩

end Sys2Proof
end

section
/-! PROOF. The section parse of a serialized block (30_encoding.md R106; 42_host_commands.md R196). -/

namespace Sys2Proof.Machine

variable {s : State} {sp : Space} {a : Nat} {b : Block}

/-! Slices and little-endian words. -/

theorem State.slice_append (s : State) (sp : Space) (a n m : Nat) :
    s.slice sp a (n + m) = s.slice sp a n ++ s.slice sp (a + n) m := by
  simp [State.slice, List.range_add, Nat.add_assoc]

/-- A slice that is two pieces put together holds each of them at its place. -/
theorem State.slice_eq_append {n : Nat} {xs ys : List Byte} (h : s.slice sp a n = xs ++ ys) :
    s.slice sp a xs.length = xs ∧ s.slice sp (a + xs.length) (n - xs.length) = ys := by
  have hn : n = xs.length + (n - xs.length) := by
    have := congrArg List.length h
    simp only [State.slice_length, List.length_append] at this
    omega
  rw [hn, State.slice_append] at h
  exact List.append_inj h (State.slice_length ..)

@[simp] theorem le32Bytes_length (v : Nat) : (le32Bytes v).length = 4 := rfl

/-- The four bytes of a value of 32 bits make it up again (00_scope.md R12). -/
theorem le32_toByte {v : Nat} (h : v < 2 ^ 32) :
    le32 (toByte v) (toByte (v / 2 ^ 8)) (toByte (v / 2 ^ 16)) (toByte (v / 2 ^ 24)) = v := by
  simp only [le32, toByte, BitVec.toNat_ofNat]
  omega

/-- Where the four bytes of a value lie, the word is that value. -/
theorem State.wordAt_of_slice {v : Nat} (hv : v < 2 ^ 32) (h : s.slice sp a 4 = le32Bytes v) :
    s.wordAt sp a = v := by
  simp only [State.slice_succ, State.slice_zero, le32Bytes, List.cons.injEq, and_true] at h
  obtain ⟨h0, h1, h2, h3⟩ := h
  rw [State.wordAt, h0, h1, h2, h3, le32_toByte hv]

/-- A 32-bit load of backed bytes goes on with the word there (20_memory.md R61). -/
theorem load32_eq_wordAt (h : s.backed sp (a + 3) = true) (k : Nat → Result) :
    load32 sp a s k = k (s.wordAt sp a) :=
  load32_of_backed h k

/-- A 32-bit load from `DSRC` depends on no register of `DEC`. -/
theorem load32_setDec {d : Dec} (hd : d.dsrc = s.dec.dsrc) (k : Nat → Result) :
    load32 .dsrc a (s.setDec d) k = load32 .dsrc a s k := by
  have hbyte (x : Nat) : (s.setDec d).byteAt .dsrc x = s.byteAt .dsrc x :=
    State.byteAt_congr (s := s) (t := s.setDec d) (sp := .dsrc) hd rfl x
  simp only [load32, load, hbyte, State.backed_congr (State.setDec_plat s d)]

/-! The section of a block in `DSRC`. -/

/-- Where the field stream of a section begins (30_encoding.md R104, R105). -/
def fieldStart (f : Framing) (n : Nat) : Nat :=
  match f with
  | .prefixed => 12 + ceil8 n
  | .unprefixed => 8 + ceil8 n

/-- `DSRC` holds the section of a block, part by part, and `SRC_LEN` is where it ends. -/
structure State.HoldsSection (s : State) (b : Block) : Prop where
  uncompSize : s.wordAt .dsrc 0 = b.uncompSize
  opCount : s.wordAt .dsrc 4 = b.opCount
  bitmap : s.slice .dsrc 8 (ceil8 b.opCount) = b.bitmap
  fieldsLength : s.dec.cfg.framing = .prefixed →
    s.wordAt .dsrc (8 + ceil8 b.opCount) = b.fields.length
  fields : s.slice .dsrc (fieldStart s.dec.cfg.framing b.opCount) b.fields.length = b.fields
  srcLen : s.dec.srcLen.toNat = fieldStart s.dec.cfg.framing b.opCount + b.fields.length

/-- The four bytes before the field stream that only the one framing has (30_encoding.md R104, R105). -/
def sizeField (f : Framing) (v : Nat) : List Byte :=
  match f with
  | .prefixed => le32Bytes v
  | .unprefixed => []

/-- A serialized block part by part, each with all that follows it. -/
theorem serialize_eq (b : Block) (f : Framing) :
    serialize b f = le32Bytes b.uncompSize ++ (le32Bytes b.opCount ++ (b.bitmap ++
      (sizeField f b.fields.length ++ b.fields))) := by
  cases f <;> simp [serialize, sizeField]

theorem fieldStart_eq (f : Framing) (n v : Nat) :
    fieldStart f n = 8 + ceil8 n + (sizeField f v).length := by
  cases f <;> simp only [fieldStart, sizeField, le32Bytes_length, List.length_nil] <;> omega

/-- The serialization of a block is its section. -/
theorem State.holdsSection_of_slice (hm : b.bitmap.length = ceil8 b.opCount)
    (hu : b.uncompSize < 2 ^ 32) (hn : b.opCount < 2 ^ 32) (hfs : b.fields.length < 2 ^ 32)
    (h : s.slice .dsrc 0 s.dec.srcLen.toNat = serialize b s.dec.cfg.framing) :
    s.HoldsSection b := by
  rw [serialize_eq] at h
  have hlen := congrArg List.length h
  simp only [State.slice_length, List.length_append, le32Bytes_length, hm] at hlen
  have hstart := fieldStart_eq s.dec.cfg.framing b.opCount b.fields.length
  obtain ⟨hword0, h⟩ := State.slice_eq_append h
  obtain ⟨hword4, h⟩ := State.slice_eq_append h
  obtain ⟨hbm, h⟩ := State.slice_eq_append h
  obtain ⟨hsize, hfields⟩ := State.slice_eq_append h
  simp only [le32Bytes_length, hm, Nat.zero_add, Nat.reduceAdd, ← hstart]
    at hword0 hword4 hbm hsize hfields
  exact {
    uncompSize := State.wordAt_of_slice hu hword0
    opCount := State.wordAt_of_slice hn hword4
    bitmap := hbm
    fieldsLength := fun hf => State.wordAt_of_slice hfs (by simpa [hf, sizeField] using hsize)
    fields := by
      rwa [show s.dec.srcLen.toNat - 4 - 4 - ceil8 b.opCount -
        (sizeField s.dec.cfg.framing b.fields.length).length = b.fields.length by omega] at hfields
    srcLen := by omega }

/-! The parse. -/

/-- The descriptor registers that describe a block whose section begins at address 0
(42_host_commands.md R196). -/
def Dec.describing (d : Dec) (b : Block) : Dec :=
  { d with
    uncompSize := toWord b.uncompSize, opCount := toWord b.opCount
    bmBase := 8, bmLen := toWord (ceil8 b.opCount)
    fsBase := toWord (fieldStart d.cfg.framing b.opCount), fsLen := toWord b.fields.length }

/-- A section that `DSRC` holds is parsed without an error (42_host_commands.md R196). -/
theorem parseSection_of_holdsSection (h : s.HoldsSection b)
    (hcap : s.dec.srcLen.toNat ≤ s.plat.dsrcCap) (k : State → Result) :
    parseSection s k = k (s.setDec (s.dec.describing b)) := by
  have backed {x : Nat} (hx : x < s.dec.srcLen.toNat) : s.backed .dsrc x = true :=
    State.backed_of_lt hx hcap (Nat.le_of_lt s.dec.srcLen.isLt)
  have hlen := h.srcLen
  have hbm : 8 + ceil8 b.opCount ≤ s.dec.srcLen.toNat := by
    rw [hlen]; unfold fieldStart; split <;> omega
  unfold parseSection
  rw [if_neg (by omega), load32_eq_wordAt (backed (by omega)), load32_eq_wordAt (backed (by omega)),
    h.uncompSize, h.opCount]
  dsimp only
  rw [if_neg (by omega)]
  cases hf : s.dec.cfg.framing with
  | prefixed =>
    rw [hf, fieldStart] at hlen
    simp only [State.setDec_dec, hf]
    rw [if_neg (by omega), load32_setDec (by rfl), load32_setDec (by rfl),
      load32_eq_wordAt (backed (by omega)), h.fieldsLength hf, if_neg (by omega), Dec.describing, hf]
    rfl
  | unprefixed =>
    rw [hf, fieldStart] at hlen
    have hrest : s.dec.srcLen.toNat - (8 + ceil8 b.opCount) = b.fields.length := by omega
    simp only [State.setDec_dec, hf, hrest, Dec.describing]
    rfl

/-- What step `BEGIN` leaves of a section that `DSRC` holds (42_host_commands.md R195, R196). -/
def State.sectionOpened (s : State) (b : Block) : State :=
  s.setDec
    { s.dec.describing b with dout := s.dec.dout.zeroFill b.uncompSize, phase := .op }

/-- Step `BEGIN` on a section that `DSRC` holds: it is parsed and the output opened. -/
theorem decBegin_of_holdsSection (h : s.HoldsSection b) (hmode : s.dec.mode = .sectioned)
    (hbegin : s.beginPasses) (hu : b.uncompSize < 2 ^ 32) (hout : b.uncompSize ≤ s.plat.doutCap) :
    decBegin s = .next (s.sectionOpened b) := by
  obtain ⟨hsplit, hwindow, hcap⟩ := hbegin
  have hcfg : cfgValid s.dec.split s.dec.window.toNat = true := decide_eq_true ⟨hsplit, hwindow⟩
  have hsize : (toWord b.uncompSize).toNat = b.uncompSize := toNat_toWord hu
  have hopen : openOutput (s.setDec (s.dec.describing b)) = .next (s.sectionOpened b) := by
    rw [openOutput, State.setDec_dec, Dec.describing, hsize, if_neg (by exact Nat.not_lt.mpr hout)]
    rfl
  rw [decBegin, hcfg, if_neg (by decide), if_neg (by omega), hmode]
  exact (parseSection_of_holdsSection h hcap openOutput).trans hopen

/-- The descriptor registers after step `BEGIN` describe the block. -/
theorem State.decBlock_sectionOpened (h : s.HoldsSection b) (hu : b.uncompSize < 2 ^ 32)
    (hn : b.opCount < 2 ^ 32) (hfs : b.fields.length < 2 ^ 32) :
    (s.sectionOpened b).decBlock = b := by
  have hstart : fieldStart s.dec.cfg.framing b.opCount < 2 ^ 32 := by
    have := s.dec.srcLen.isLt
    rw [h.srcLen] at this
    omega
  have hbm : ceil8 b.opCount < 2 ^ 32 := by rw [ceil8]; omega
  have hslice (x n : Nat) : (s.sectionOpened b).slice .dsrc x n = s.slice .dsrc x n := rfl
  have hbase : (8 : Word).toNat = 8 := rfl
  simp only [State.decBlock, hslice]
  simp only [State.sectionOpened, State.setDec_dec, Dec.describing, toNat_toWord hu,
    toNat_toWord hn, toNat_toWord hfs, toNat_toWord hbm, toNat_toWord hstart, hbase, h.bitmap,
    h.fields]

/-- Settles O19: `DSRC` holds the section of the block part by part, so step `BEGIN` parses it without
an error and leaves the registers that describe it. -/
theorem sectionParseInvertsSerialize : Obligations.SectionParseInvertsSerialize := by
  refine ⟨fun s b hmoves hphase hmode hbegin hm hu hn hfs hout hslice => ?_, by decide, by decide⟩
  have hs : s.popped.HoldsSection b := State.holdsSection_of_slice hm hu hn hfs hslice
  refine ⟨s.popped.sectionOpened b, ?_, rfl, hmoves.1, State.decBlock_sectionOpened hs hu hn hfs⟩
  rw [step_of_decMoves hmoves, decTurn_begin (s := s.popped) hmoves.1 hphase]
  exact decBegin_of_holdsSection hs hmode hbegin hu hout

end Sys2Proof.Machine
end

section
/-! PROOF. Reserved values written to `CTRL` (30_encoding.md R110). -/

namespace Sys2Proof.Machine

/-- The decoder's command values are 1 and 2 (30_encoding.md R113). -/
theorem decodeCommand_dec_reserved {v : Word} (h1 : v ≠ 1#32) (h2 : v ≠ 2#32) :
    decodeCommand .dec v = .error .reservedCommand := by
  rw [decodeCommand, if_neg h1, if_neg h2]

/-- The encoder's one command value is 1 (30_encoding.md R113). -/
theorem decodeCommand_enc_reserved {v : Word} (h1 : v ≠ 1#32) :
    decodeCommand .enc v = .error .reservedCommand := by
  rw [decodeCommand, if_neg h1]

/-- A value that is no command of the unit changes nothing at its `CTRL`, whether the unit is `BUSY` or
not. -/
theorem hostMove_ctrl_of_reserved {u : UnitId} {v : Word} {r : DecodeReject}
    (h : decodeCommand u v = .error r) (s : State) :
    hostMove (.regWrite u ctrlOffset v) s = .next s := by
  rw [hostMove, hostRegWrite]
  split
  · rfl
  · rw [if_pos rfl, h]

/-- Settles O26: neither unit's decoder of commands knows the value. -/
theorem reservedCommandsAreIgnored : Obligations.ReservedCommandsAreIgnored :=
  fun s _ => ⟨fun h1 h2 => hostMove_ctrl_of_reserved (decodeCommand_dec_reserved h1 h2) s,
    fun h1 => hostMove_ctrl_of_reserved (decodeCommand_enc_reserved h1) s⟩

end Sys2Proof.Machine
end

section
/-! PROOF. The match search of the reference function (40_encoder.md R122 to R124). -/

namespace Sys2Proof.Machine

variable {input : List Byte} {l w pos : Nat}

theorem refMatchLen_le (input : List Byte) (i pos cap : Nat) :
    refMatchLen input i pos cap ≤ cap := by
  induction cap generalizing i pos with
  | zero => exact Nat.le_refl 0
  | succ cap ih =>
    rw [refMatchLen]
    split
    · exact Nat.succ_le_succ (ih _ _)
    · exact Nat.zero_le _

/-- Below the match length the two ranges of the input agree. -/
theorem getElem?_eq_of_lt_refMatchLen {i pos cap k : Nat} (h : k < refMatchLen input i pos cap) :
    input[i + k]? = input[pos + k]? := by
  induction cap generalizing i pos k with
  | zero => exact absurd h (Nat.not_lt_zero k)
  | succ cap ih =>
    rw [refMatchLen] at h
    split at h
    case isTrue heq =>
      cases k with
      | zero => exact heq
      | succ k => simpa [Nat.add_assoc, Nat.add_comm 1] using ih (Nat.lt_of_succ_lt_succ h)
    case isFalse => exact absurd h (Nat.not_lt_zero k)

/-- The match length of the candidate offset `d` (40_encoder.md R123). -/
def candidateLen (input : List Byte) (l pos d : Nat) : Nat :=
  refMatchLen input (pos - d) pos (refCap input l pos)

theorem candidateLen_le (input : List Byte) (l pos d : Nat) :
    candidateLen input l pos d ≤ refCap input l pos :=
  refMatchLen_le ..

theorem refCandidates_eq (input : List Byte) (l w pos : Nat) :
    refCandidates input l w pos =
      (List.range (min pos w)).map fun k => (candidateLen input l pos (k + 1), k + 1) := rfl

/-- The largest match length over the candidates, 0 when there is none (40_encoder.md R124). -/
def longestLen (input : List Byte) (l w pos : Nat) : Nat :=
  ((refCandidates input l w pos).map Prod.fst).foldl max 0

theorem bestMatch_eq (input : List Byte) (l w pos : Nat) :
    bestMatch input l w pos =
      if longestLen input l w pos = 0 then (0, 0)
      else ((refCandidates input l w pos).find? (·.1 = longestLen input l w pos)).getD (0, 0) := by
  unfold bestMatch longestLen
  dsimp only
  congr 1
  split <;> simp only [*, Option.getD_some, Option.getD_none]

/-- No candidate is longer than the longest. -/
theorem candidateLen_le_longestLen {d : Nat} (h1 : 1 ≤ d) (hd : d ≤ min pos w) :
    candidateLen input l pos d ≤ longestLen input l w pos := by
  have hmax := (List.max?_eq_some_iff.mp (List.max?_cons' (x := 0)
    (xs := (refCandidates input l w pos).map Prod.fst))).2
  refine hmax _ (List.mem_cons_of_mem _ ?_)
  rw [refCandidates_eq, List.map_map]
  exact List.mem_map.mpr ⟨d - 1, List.mem_range.mpr (by omega), by simp [Nat.sub_add_cancel h1]⟩

/-- The longest length is a candidate's, unless it is 0. -/
theorem exists_candidateLen_eq (h : longestLen input l w pos ≠ 0) :
    ∃ k < min pos w, candidateLen input l pos (k + 1) = longestLen input l w pos := by
  have hmem := (List.max?_eq_some_iff.mp (List.max?_cons' (x := 0)
    (xs := (refCandidates input l w pos).map Prod.fst))).1
  have hcand : longestLen input l w pos ∈ (refCandidates input l w pos).map Prod.fst :=
    (List.mem_cons.mp hmem).resolve_left h
  rw [refCandidates_eq, List.map_map] at hcand
  obtain ⟨k, hk, heq⟩ := List.mem_map.mp hcand
  exact ⟨k, List.mem_range.mp hk, heq⟩

/-- The first candidate of the longest length is the nearest one (40_encoder.md R124). -/
theorem bestMatch_of_longestLen_ne_zero (h : longestLen input l w pos ≠ 0) :
    ∃ d, bestMatch input l w pos = (candidateLen input l pos d, d) ∧ 1 ≤ d ∧ d ≤ min pos w ∧
      candidateLen input l pos d = longestLen input l w pos ∧
      ∀ d', 1 ≤ d' → d' < d → candidateLen input l pos d' < longestLen input l w pos := by
  have hfind := bestMatch_eq input l w pos
  rw [if_neg h, refCandidates_eq, List.find?_map] at hfind
  cases hk : (List.range (min pos w)).find? ((fun c : Nat × Nat =>
      decide (c.1 = longestLen input l w pos)) ∘ fun k => (candidateLen input l pos (k + 1), k + 1))
  case none =>
    obtain ⟨k, hlt, heq⟩ := exists_candidateLen_eq h
    exact absurd (decide_eq_true heq) (List.find?_eq_none.mp hk k (List.mem_range.mpr hlt))
  case some k =>
    rw [hk] at hfind
    obtain ⟨heq, hlt, hfirst⟩ := List.find?_range_eq_some.mp hk
    have hlt := List.mem_range.mp hlt
    refine ⟨k + 1, hfind, by omega, hlt, of_decide_eq_true heq, fun d' h1 hd' => ?_⟩
    have hne := hfirst (d' - 1) (by omega)
    simp only [Function.comp, Nat.sub_add_cancel h1, Bool.not_eq_true', decide_eq_false_iff_not] at hne
    exact Nat.lt_of_le_of_ne (candidateLen_le_longestLen h1 (by omega)) hne

theorem bestMatch_fst (input : List Byte) (l w pos : Nat) :
    (bestMatch input l w pos).1 = longestLen input l w pos := by
  by_cases h : longestLen input l w pos = 0
  · rw [bestMatch_eq, if_pos h, h]
  · obtain ⟨d, hbest, _, _, hlen, _⟩ := bestMatch_of_longestLen_ne_zero h
    rw [hbest, ← hlen]

/-- Settles O38: the best length is the maximum over the candidates, and `find?` on the candidates,
nearest first, stops at the smallest offset that attains it. -/
theorem bestMatchIsTheNearestLongest : Obligations.BestMatchIsTheNearestLongest := by
  intro input l w pos _
  dsimp only
  rw [bestMatch_fst]
  refine ⟨fun d' => candidateLen_le_longestLen, ?_⟩
  split
  case isTrue h => rw [bestMatch_eq, if_pos h]
  case isFalse h =>
    obtain ⟨d, hbest, h1, hd, hlen, hfirst⟩ := bestMatch_of_longestLen_ne_zero h
    rw [hbest]
    exact ⟨h1, hd, hlen, hfirst⟩

end Sys2Proof.Machine
end

section
/-! PROOF. Disassembling an assembled listing gives its operations (30_encoding.md R91, R92, R111). -/

namespace Sys2Proof.Machine

/-! The bitmap. -/

/-- The sum in `bitmapByte`: the first `n` bits of a stream as a natural. -/
def bitSum (f : Nat → Bool) (n : Nat) : Nat :=
  (List.range n).foldl (fun acc j => acc + (f j).toNat * 2 ^ j) 0

theorem bitSum_succ (f : Nat → Bool) (n : Nat) :
    bitSum f (n + 1) = 2 ^ n * (f n).toNat + bitSum f n := by
  simp only [bitSum, List.range_succ, List.foldl_append, List.foldl_cons, List.foldl_nil]
  rw [Nat.add_comm, Nat.mul_comm]

theorem bitSum_lt (f : Nat → Bool) (n : Nat) : bitSum f n < 2 ^ n := by
  induction n with
  | zero => exact Nat.one_pos
  | succ n ih =>
    rw [bitSum_succ, Nat.pow_succ]
    cases f n <;> simp <;> omega

theorem testBit_bitSum (f : Nat → Bool) {n j : Nat} (h : j < n) : (bitSum f n).testBit j = f j := by
  induction n with
  | zero => exact absurd h (Nat.not_lt_zero j)
  | succ n ih =>
    rw [bitSum_succ, Nat.testBit_two_pow_mul_add _ (bitSum_lt f n)]
    split
    case isTrue hj => exact ih hj
    case isFalse hj =>
      obtain rfl : j = n := by omega
      cases f j <;> simp

/-- Bit `j` of byte `k` is control bit `8 * k + j` (20_memory.md R65). -/
theorem getLsbD_bitmapByte (bits : List Bool) (k : Nat) {j : Nat} (h : j < 8) :
    (bitmapByte bits k).getLsbD j = bits.getD (8 * k + j) false := by
  have hbit := testBit_bitSum (fun j => bits.getD (8 * k + j) false) h
  rw [bitmapByte, toByte, BitVec.getLsbD_ofNat, decide_eq_true h, Bool.true_and]
  exact hbit

@[simp] theorem bitmapOf_length (bits : List Bool) : (bitmapOf bits).length = ceil8 bits.length := by
  simp [bitmapOf]

/-- The bitmap holds the control bits, and zeros after the last (30_encoding.md R92). -/
theorem ctrlBit_bitmapOf (bits : List Bool) (i : Nat) :
    ctrlBit ((bitmapOf bits).getD (i / 8) 0) i = bits.getD i false := by
  by_cases h : i / 8 < ceil8 bits.length
  · have hbyte : (bitmapOf bits).getD (i / 8) 0 = bitmapByte bits (i / 8) := by
      simp [bitmapOf, List.getElem?_range h]
    rw [hbyte, ctrlBit, getLsbD_bitmapByte _ _ (Nat.mod_lt i (by decide)), Nat.div_add_mod]
  · have hbits : bits.length ≤ i := by unfold ceil8 at h; omega
    rw [List.getD_eq_default _ _ (by simpa using h), List.getD_eq_default _ _ hbits]
    simp [ctrlBit]

/-! The entries. -/

variable {l u i : Nat} {ops : List Operation}

theorem assemble_bitmap_length (l u : Nat) (ops : List Operation) :
    (assemble l u ops).bitmap.length = ceil8 ops.length := by
  rw [assemble, bitmapOf_length, List.length_map]

theorem Operation.entry_length (l : Nat) (op : Operation) :
    (op.entry l).length = entryLength op.ctrl := by
  cases op <;> rfl

@[simp] theorem assemble_ctrl (l u : Nat) (ops : List Operation) (i : Nat) :
    (assemble l u ops).ctrl i = (ops.map Operation.ctrl).getD i false :=
  ctrlBit_bitmapOf _ i

theorem assemble_ctrl_of_lt (hi : i < ops.length) : (assemble l u ops).ctrl i = ops[i].ctrl := by
  simp [List.getElem?_eq_getElem hi]

/-- The field stream of a listing (30_encoding.md R91). -/
def fieldsOf (l : Nat) (ops : List Operation) : List Byte :=
  (ops.map (Operation.entry l)).flatten

theorem fieldsOf_append (l : Nat) (xs ys : List Operation) :
    fieldsOf l (xs ++ ys) = fieldsOf l xs ++ fieldsOf l ys := by
  simp [fieldsOf]

theorem fieldsOf_singleton (l : Nat) (op : Operation) : fieldsOf l [op] = op.entry l := by
  simp [fieldsOf]

/-- An entry starts where the entries before it end (30_encoding.md R91). -/
theorem assemble_entryPos (hi : i ≤ ops.length) :
    (assemble l u ops).entryPos i = (fieldsOf l (ops.take i)).length := by
  induction i with
  | zero => rfl
  | succ i ih =>
    rw [Block.entryPos, ih (Nat.le_of_succ_le hi), assemble_ctrl_of_lt hi,
      ← Operation.entry_length l, ← fieldsOf_singleton l ops[i], ← List.length_append,
      ← fieldsOf_append, List.take_append_getElem]

theorem assemble_fields_eq (l u i : Nat) (ops : List Operation) :
    (assemble l u ops).fields = fieldsOf l (ops.take i) ++ fieldsOf l (ops.drop i) := by
  rw [← fieldsOf_append, List.take_append_drop]
  rfl

theorem assemble_fields_drop_entryPos (hi : i ≤ ops.length) :
    (assemble l u ops).fields.drop ((assemble l u ops).entryPos i) = fieldsOf l (ops.drop i) := by
  rw [assemble_entryPos hi, assemble_fields_eq l u i, List.drop_left]

theorem assemble_entryPos_le (hi : i ≤ ops.length) :
    (assemble l u ops).entryPos i ≤ (assemble l u ops).fields.length := by
  rw [assemble_entryPos hi, assemble_fields_eq l u i, List.length_append]
  exact Nat.le_add_right _ _

theorem assemble_fields_length (l u : Nat) (ops : List Operation) :
    (assemble l u ops).fields.length = (assemble l u ops).entryPos ops.length := by
  rw [assemble_entryPos (Nat.le_refl _), List.take_length]
  rfl

/-! The operations. -/

/-- The operands fit their fields (30_encoding.md R101). -/
def Operation.encodable (l : Nat) : Operation → Prop
  | .lit _ => True
  | .ref offset length => (Split.mk (16 - l) l).admits offset length = true

/-- The two bytes of a value of 16 bits make it up again (00_scope.md R12). -/
theorem le16_toByte {v : Nat} (h : v < 2 ^ 16) : le16 (toByte v) (toByte (v / 256)) = v := by
  simp only [le16, toByte, BitVec.toNat_ofNat]
  omega

theorem getD_fields_assemble (hi : i < ops.length) {j : Nat} (hj : j < (ops[i].entry l).length) :
    (assemble l u ops).fields.getD ((assemble l u ops).entryPos i + j) 0 =
      (ops[i].entry l)[j] := by
  have hdrop := assemble_fields_drop_entryPos (l := l) (u := u) (Nat.le_of_lt hi)
  rw [List.drop_eq_getElem_cons hi, fieldsOf, List.map_cons, List.flatten_cons] at hdrop
  rw [List.getD_eq_getElem?_getD, ← List.getElem?_drop, hdrop, List.getElem?_append_left hj,
    List.getElem?_eq_getElem hj, Option.getD_some]

/-- Disassembling inverts assembling where the operands fit. -/
theorem assemble_operation (hl : l ≤ 16) (hi : i < ops.length) (henc : ops[i].encodable l) :
    (assemble l u ops).operation l i = ops[i] := by
  have hctrl := assemble_ctrl_of_lt (l := l) (u := u) hi
  have hbyte {j : Nat} := getD_fields_assemble (l := l) (u := u) hi (j := j)
  cases hop : ops[i] with
  | lit value =>
    simp only [hop, Operation.ctrl, Operation.entry] at hctrl hbyte
    rw [Block.operation, hctrl]
    exact congrArg Operation.lit (hbyte (j := 0) Nat.one_pos)
  | ref offset length =>
    simp only [hop, Operation.ctrl, Operation.entry, Operation.encodable] at hctrl hbyte henc
    have hv : (Split.mk (16 - l) l).valid = true := Split.valid_iff.mpr (Nat.sub_add_cancel hl)
    have h0 := hbyte (j := 0) Nat.two_pos
    have h1 := hbyte (j := 1) Nat.one_lt_two
    obtain ⟨ho, _, hlen, hlen'⟩ := Split.admits_iff.mp henc
    obtain ⟨hoff, hlength⟩ := unpack_packField ho hlen hlen'
    rw [Nat.add_zero] at h0
    rw [Block.operation, hctrl]
    dsimp only
    rw [h0, h1]
    simp only [le16Bytes, List.getElem_cons_zero, List.getElem_cons_succ]
    rw [le16_toByte (packField_lt hv henc), hoff, hlength]

/-- The bytes a listing produces. -/
def produced (ops : List Operation) : Nat :=
  (ops.map Operation.produces).sum

theorem produced_append (xs ys : List Operation) :
    produced (xs ++ ys) = produced xs + produced ys := by
  simp [produced]

theorem produced_cons (op : Operation) (ops : List Operation) :
    produced (op :: ops) = op.produces + produced ops := by
  simp [produced]

theorem produced_take_succ (hi : i < ops.length) :
    produced (ops.take (i + 1)) = produced (ops.take i) + ops[i].produces := by
  rw [← List.take_append_getElem hi, produced_append, produced_cons]
  rfl

theorem assemble_outPos (hl : l ≤ 16) (henc : ∀ op ∈ ops, op.encodable l) (hi : i ≤ ops.length) :
    (assemble l u ops).outPos l i = produced (ops.take i) := by
  induction i with
  | zero => rfl
  | succ i ih =>
    rw [Block.outPos, ih (Nat.le_of_succ_le hi), produced_take_succ hi,
      assemble_operation hl hi (henc _ (List.getElem_mem hi))]

end Sys2Proof.Machine
end

section
/-! PROOF. What `Compress` yields covers the input operation by operation (40_encoder.md R121 to R125),
so its sizes are bounded (R145) and `Decode` gives the input back (R141). -/

namespace Sys2Proof.Machine

/-! Operations that cover a piece of the input. -/

/-- A back-reference from position `pos` that the encoder may choose: the bytes it stands for are in the
window, are as many as the split and `MINM` allow, and are those of the input
(40_encoder.md R123 to R125). -/
structure IsMatch (input : List Byte) (l w minm pos offset length : Nat) : Prop where
  minm_le : minm ≤ length
  length_le : length ≤ 2 ^ l
  inside : pos + length ≤ input.length
  offset_pos : 1 ≤ offset
  offset_le_pos : offset ≤ pos
  offset_le_window : offset ≤ w
  agree : ∀ k < length, input[pos - offset + k]? = input[pos + k]?

/-- The operation stands for the bytes of the input from position `pos` on. -/
inductive Operation.Covers (input : List Byte) (l w minm pos : Nat) : Operation → Prop
  | lit {value : Byte} (h : input[pos]? = some value) : Covers input l w minm pos (.lit value)
  | ref {offset length : Nat} (h : IsMatch input l w minm pos offset length) :
    Covers input l w minm pos (.ref offset length)

/-- The operations cover the input from a position to its end. -/
def coversFrom (input : List Byte) (l w minm : Nat) : (pos : Nat) → List Operation → Prop
  | pos, [] => pos = input.length
  | pos, op :: ops =>
    op.Covers input l w minm pos ∧ coversFrom input l w minm (pos + op.produces) ops

variable {input : List Byte} {l w minm pos : Nat} {op : Operation} {ops : List Operation}

theorem Operation.Covers.inside (h : op.Covers input l w minm pos) :
    pos + op.produces ≤ input.length := by
  cases h with
  | lit h => exact (List.getElem?_eq_some_iff.mp h).1
  | ref h => exact h.inside

/-- An entry is no longer than what it stands for (40_encoder.md R145). -/
theorem Operation.Covers.entryLength_le (hm : 2 ≤ minm) (h : op.Covers input l w minm pos) :
    entryLength op.ctrl ≤ op.produces := by
  cases h with
  | lit h => exact Nat.le_refl 1
  | ref h => exact hm.trans h.minm_le

theorem Operation.Covers.produces_pos (hm : 2 ≤ minm) (h : op.Covers input l w minm pos) :
    1 ≤ op.produces := by
  have hentry := h.entryLength_le hm
  have : 1 ≤ entryLength op.ctrl := by cases op.ctrl <;> decide
  omega

theorem Operation.Covers.encodable (hw : w ≤ 2 ^ (16 - l)) (hm : 2 ≤ minm)
    (h : op.Covers input l w minm pos) : op.encodable l := by
  cases h with
  | lit h => trivial
  | ref h =>
    have hlen := h.minm_le
    exact Split.admits_iff.mpr
      ⟨h.offset_pos, h.offset_le_window.trans hw, by omega, h.length_le⟩

theorem Operation.Covers.reaches (h : op.Covers input l w minm pos) : op.reaches pos = true := by
  cases h with
  | lit h => rfl
  | ref h => exact decide_eq_true h.offset_le_pos

/-- What is left after some of the operations covers the rest of the input. -/
theorem coversFrom_drop (h : coversFrom input l w minm pos ops) {i : Nat} (hi : i ≤ ops.length) :
    coversFrom input l w minm (pos + produced (ops.take i)) (ops.drop i) := by
  induction ops generalizing pos i with
  | nil => simpa [produced] using h
  | cons op ops ih =>
    cases i with
    | zero => exact h
    | succ i =>
      rw [List.take_succ_cons, List.drop_succ_cons, produced_cons, ← Nat.add_assoc]
      exact ih h.2 (Nat.le_of_succ_le_succ hi)

theorem coversFrom_produced (h : coversFrom input l w minm pos ops) :
    pos + produced ops = input.length := by
  have hend := coversFrom_drop h (Nat.le_refl ops.length)
  rwa [List.take_length, List.drop_length] at hend

/-- Each operation covers the input where the operations before it end. -/
theorem coversFrom_getElem (h : coversFrom input l w minm pos ops) {i : Nat} (hi : i < ops.length) :
    ops[i].Covers input l w minm (pos + produced (ops.take i)) := by
  have hrest := coversFrom_drop h (Nat.le_of_lt hi)
  rw [List.drop_eq_getElem_cons hi] at hrest
  exact hrest.1

theorem coversFrom_encodable (hw : w ≤ 2 ^ (16 - l)) (hm : 2 ≤ minm)
    (h : coversFrom input l w minm pos ops) : ∀ op ∈ ops, op.encodable l := by
  intro op hop
  obtain ⟨i, hi, rfl⟩ := List.getElem_of_mem hop
  exact (coversFrom_getElem h hi).encodable hw hm

theorem coversFrom_length_le (hm : 2 ≤ minm) (h : coversFrom input l w minm pos ops) :
    ops.length ≤ produced ops := by
  induction ops generalizing pos with
  | nil => exact Nat.zero_le _
  | cons op ops ih =>
    obtain ⟨hop, hrest⟩ := h
    have hpos := hop.produces_pos hm
    have hops := ih hrest
    rw [List.length_cons, produced_cons]
    omega

theorem coversFrom_fields_le (hm : 2 ≤ minm) (h : coversFrom input l w minm pos ops) :
    (fieldsOf l ops).length ≤ produced ops := by
  induction ops generalizing pos with
  | nil => exact Nat.zero_le _
  | cons op ops ih =>
    obtain ⟨hop, hrest⟩ := h
    have hentry := hop.entryLength_le hm
    have hops := ih hrest
    rw [fieldsOf, List.map_cons, List.flatten_cons, List.length_append, Operation.entry_length,
      produced_cons]
    exact Nat.add_le_add hentry hops

/-! `Compress`. -/

/-- A long enough best match is a back-reference the encoder may choose. -/
theorem isMatch_bestMatch (hm : 2 ≤ minm) (hr : minm ≤ (bestMatch input l w pos).1) :
    IsMatch input l w minm pos (bestMatch input l w pos).2 (bestMatch input l w pos).1 := by
  have hne : longestLen input l w pos ≠ 0 := by rw [← bestMatch_fst]; omega
  obtain ⟨d, hbest, h1, hd, -, -⟩ := bestMatch_of_longestLen_ne_zero hne
  rw [hbest] at hr ⊢
  have hcap : candidateLen input l pos d ≤ min (2 ^ l) (input.length - pos) :=
    candidateLen_le input l pos d
  dsimp only at hr ⊢
  exact {
    minm_le := hr
    length_le := by omega
    inside := by omega
    offset_pos := h1
    offset_le_pos := by omega
    offset_le_window := by omega
    agree := fun k hk => getElem?_eq_of_lt_refMatchLen hk }

theorem greedyOp_of_le (h : minm ≤ (bestMatch input l w pos).1) :
    greedyOp input l w minm pos =
      (.ref (bestMatch input l w pos).2 (bestMatch input l w pos).1,
        (bestMatch input l w pos).1) :=
  if_pos h

theorem greedyOp_of_lt (h : (bestMatch input l w pos).1 < minm) :
    greedyOp input l w minm pos = (.lit (input.getD pos 0), 1) :=
  if_neg (Nat.not_le.mpr h)

/-- The chosen operation covers the input, by as much as the position advances (40_encoder.md R125). -/
theorem greedyOp_covers (hm : 2 ≤ minm) (hpos : pos < input.length) :
    (greedyOp input l w minm pos).1.Covers input l w minm pos ∧
      (greedyOp input l w minm pos).2 = (greedyOp input l w minm pos).1.produces := by
  rcases Nat.lt_or_ge (bestMatch input l w pos).1 minm with h | h
  · rw [greedyOp_of_lt h]
    exact ⟨.lit (by simp [hpos]), rfl⟩
  · rw [greedyOp_of_le h]
    exact ⟨.ref (isMatch_bestMatch hm h), rfl⟩

theorem greedyOps_of_lt {fuel : Nat} (h : pos < input.length) :
    greedyOps input l w minm (fuel + 1) pos =
      (greedyOp input l w minm pos).1 ::
        greedyOps input l w minm fuel (pos + (greedyOp input l w minm pos).2) :=
  if_pos h

theorem greedyOps_of_eq (fuel : Nat) (h : pos = input.length) :
    greedyOps input l w minm fuel pos = [] := by
  cases fuel with
  | zero => rfl
  | succ fuel => exact if_neg (by omega)

theorem greedyOps_coversFrom (hm : 2 ≤ minm) {fuel : Nat} (hpos : pos ≤ input.length)
    (hfuel : input.length - pos ≤ fuel) :
    coversFrom input l w minm pos (greedyOps input l w minm fuel pos) := by
  induction fuel generalizing pos with
  | zero =>
    have hend : pos = input.length := by omega
    rwa [greedyOps_of_eq 0 hend]
  | succ fuel ih =>
    rcases Nat.eq_or_lt_of_le hpos with hend | hlt
    · rwa [greedyOps_of_eq _ hend]
    · obtain ⟨hcovers, hadvance⟩ := greedyOp_covers (l := l) (w := w) hm hlt
      have hstep := hcovers.produces_pos hm
      rw [greedyOps_of_lt hlt, hadvance]
      exact ⟨hcovers, ih hcovers.inside (by omega)⟩

/-- The operations of a compressed input. -/
def compressOps (input : List Byte) (l w minm : Nat) : List Operation :=
  greedyOps input l w minm input.length 0

theorem compress_eq (input : List Byte) (l w minm : Nat) :
    compress input l w minm = assemble l input.length (compressOps input l w minm) := rfl

theorem compressOps_coversFrom (hm : 2 ≤ minm) :
    coversFrom input l w minm 0 (compressOps input l w minm) :=
  greedyOps_coversFrom hm (Nat.zero_le _) (Nat.le_refl _)

/-- Settles O54: the operations cover the input, each with an entry no longer than what it stands for. -/
theorem compressKeepsItsBounds : Obligations.CompressKeepsItsBounds := by
  intro input l w minm hl hw hm
  have hcovers := compressOps_coversFrom (input := input) (l := l) (w := w) hm
  have htotal := coversFrom_produced hcovers
  have hcount := coversFrom_length_le hm hcovers
  have hfields := coversFrom_fields_le hm hcovers
  dsimp only
  rw [compress_eq]
  refine ⟨fun i hi offset length hop => ?_, ?_, ?_, ?_⟩
  · rw [assemble_operation hl hi (coversFrom_encodable hw hm hcovers _ (List.getElem_mem hi))] at hop
    have hmatch := coversFrom_getElem hcovers hi
    rw [hop] at hmatch
    cases hmatch with | ref hmatch =>
    exact ⟨hmatch.minm_le, hmatch.length_le, hmatch.offset_pos, hmatch.offset_le_window⟩
  · show (compressOps input l w minm).length ≤ input.length
    omega
  · show (fieldsOf l (compressOps input l w minm)).length ≤ input.length
    omega
  · exact assemble_bitmap_length ..

/-! Well-formedness. -/

theorem assemble_wellFormed (hl : l ≤ 16) (hw : w ≤ 2 ^ (16 - l)) (hm : 2 ≤ minm)
    (h : coversFrom input l w minm 0 ops) : (assemble l input.length ops).wellFormed l := by
  have henc := coversFrom_encodable hw hm h
  have hout {i : Nat} (hi : i ≤ ops.length) := assemble_outPos (u := input.length) hl henc hi
  refine ⟨?_, fun i hi => ?_, assemble_fields_length .., fun i hi => ?_, ?_⟩
  · exact assemble_bitmap_length ..
  · rw [assemble_ctrl, List.getD_eq_default _ _ (by rw [List.length_map]; exact hi)]
  · have hi : i < ops.length := hi
    have hcov := coversFrom_getElem h hi
    rw [assemble_operation hl hi (henc _ (List.getElem_mem hi)), hout (Nat.le_of_lt hi)]
    rw [Nat.zero_add] at hcov
    exact hcov.reaches
  · have htotal := coversFrom_produced h
    rw [Nat.zero_add] at htotal
    refine (hout (Nat.le_refl _)).trans ?_
    rw [List.take_length]
    exact htotal

/-! `Decode` on a well-formed block. -/

/-- The output when the first `o` bytes of the input have been produced; the rest is 0
(42_host_commands.md R195). -/
def outputUpTo (input : List Byte) (o : Nat) : List Byte :=
  input.take o ++ List.replicate (input.length - o) 0

@[simp] theorem outputUpTo_zero (input : List Byte) :
    outputUpTo input 0 = List.replicate input.length 0 := rfl

@[simp] theorem outputUpTo_length (input : List Byte) : outputUpTo input input.length = input := by
  simp [outputUpTo]

theorem getElem?_outputUpTo {o j : Nat} (hj : j < o) (ho : o ≤ input.length) :
    (outputUpTo input o)[j]? = input[j]? := by
  rw [outputUpTo, List.getElem?_append_left (by simp; omega), List.getElem?_take, if_pos hj]

/-- Producing the next byte of the input. -/
theorem outputUpTo_set {o : Nat} {v : Byte} (h : input[o]? = some v) :
    (outputUpTo input o).set o v = outputUpTo input (o + 1) := by
  obtain ⟨ho, rfl⟩ := List.getElem?_eq_some_iff.mp h
  have hrest : input.length - o = input.length - (o + 1) + 1 := by omega
  have htake : (input.take o).length = o := List.length_take_of_le (Nat.le_of_lt ho)
  rw [outputUpTo, outputUpTo, List.set_append, htake, if_neg (Nat.lt_irrefl o), Nat.sub_self, hrest,
    List.replicate_succ, List.set_cons_zero, ← List.take_append_getElem ho, List.append_assoc]
  rfl

/-- The copy loop produces the bytes that a match stands for, those it has itself just written
included (41_decoder.md R158, R159). -/
theorem copyLoop_outputUpTo {offset cnt o : Nat} (h1 : 1 ≤ offset) (hoff : offset ≤ o)
    (hin : o + cnt ≤ input.length) (hagree : ∀ k < cnt, input[o - offset + k]? = input[o + k]?) :
    copyLoop input.length offset cnt (outputUpTo input o) o =
      some (outputUpTo input (o + cnt), o + cnt) := by
  induction cnt generalizing o with
  | zero => rfl
  | succ cnt ih =>
    have ho : o < input.length := by omega
    have hbyte : input[o]? = some ((outputUpTo input o).getD (o - offset) 0) := by
      rw [List.getD_eq_getElem?_getD, getElem?_outputUpTo (by omega) (by omega),
        show input[o - offset]? = input[o]? from hagree 0 (Nat.succ_pos cnt),
        List.getElem?_eq_getElem ho, Option.getD_some]
    rw [copyLoop, if_neg (by omega), outputUpTo_set hbyte,
      ih (by omega) (by omega) fun k hk => ?_, Nat.add_assoc, Nat.add_comm 1]
    have := hagree (k + 1) (by omega)
    rwa [show o - offset + (k + 1) = o + 1 - offset + k by omega,
      show o + (k + 1) = o + 1 + k by omega] at this

theorem getElem?_eq_some_getD {xs : List Byte} {i : Nat} (h : i < xs.length) :
    xs[i]? = some (xs.getD i 0) := by
  rw [List.getD_eq_getElem _ _ h, List.getElem?_eq_getElem h]

section
variable {b : Block} {strict : Bool} {uncomp left i o : Nat} {out : List Byte}

/-- The bitmap byte of an operation is there. -/
theorem Block.bitmap_getElem? (hbm : b.bitmap.length = ceil8 b.opCount) (hi : i < b.opCount) :
    b.bitmap[i / 8]? = some (b.bitmap.getD (i / 8) 0) := by
  have hlt : i / 8 < b.bitmap.length := by rw [hbm, ceil8]; omega
  exact getElem?_eq_some_getD hlt

/-- One round of `Decode` on a literal (41_decoder.md R151). -/
theorem decodeLoop_lit {v : Byte} (hbm : b.bitmap.length = ceil8 b.opCount) (hi : i < b.opCount)
    (hfs : b.entryPos (i + 1) ≤ b.fields.length) (ho : o < uncomp)
    (hop : b.operation l i = .lit v) :
    decodeLoop l strict uncomp b.bitmap b.fields (left + 1) i (b.entryPos i) o out =
      decodeLoop l strict uncomp b.bitmap b.fields left (i + 1) (b.entryPos (i + 1)) (o + 1)
        (out.set o v) := by
  cases hctrl : b.ctrl i <;> simp only [Block.operation, hctrl] at hop <;> cases hop
  have hnext : b.entryPos (i + 1) = b.entryPos i + 1 := by rw [Block.entryPos, hctrl]; rfl
  rw [decodeLoop, if_neg (Nat.not_le.mpr ho), Block.bitmap_getElem? hbm hi]
  rw [Block.ctrl] at hctrl
  simp only [hctrl, getElem?_eq_some_getD (by omega : b.entryPos i < b.fields.length), hnext]

/-- One round of `Decode` on a back-reference whose copy ends well (41_decoder.md R151). -/
theorem decodeLoop_ref {offset length o' : Nat} {out' : List Byte}
    (hbm : b.bitmap.length = ceil8 b.opCount) (hi : i < b.opCount)
    (hfs : b.entryPos (i + 1) ≤ b.fields.length) (ho : o < uncomp)
    (hop : b.operation l i = .ref offset length)
    (hcopy : copyLoop uncomp offset length out o = some (out', o')) :
    decodeLoop l strict uncomp b.bitmap b.fields (left + 1) i (b.entryPos i) o out =
      decodeLoop l strict uncomp b.bitmap b.fields left (i + 1) (b.entryPos (i + 1)) o' out' := by
  cases hctrl : b.ctrl i <;> simp only [Block.operation, hctrl] at hop <;> cases hop
  have hnext : b.entryPos (i + 1) = b.entryPos i + 2 := by rw [Block.entryPos, hctrl]; rfl
  rw [decodeLoop, if_neg (Nat.not_le.mpr ho), Block.bitmap_getElem? hbm hi]
  rw [Block.ctrl] at hctrl
  simp only [hctrl, getElem?_eq_some_getD (by omega : b.entryPos i < b.fields.length),
    getElem?_eq_some_getD (by omega : b.entryPos i + 1 < b.fields.length), hcopy, hnext]

end

/-- From any operation on, `Decode` completes the input that the operations cover (41_decoder.md R151). -/
theorem decodeLoop_of_coversFrom (hl : l ≤ 16) (hw : w ≤ 2 ^ (16 - l)) (hm : 2 ≤ minm)
    (h : coversFrom input l w minm 0 ops) (strict : Bool) {left i : Nat}
    (hleft : i + left = ops.length) :
    decodeLoop l strict input.length (assemble l input.length ops).bitmap
        (assemble l input.length ops).fields left i ((assemble l input.length ops).entryPos i)
        (produced (ops.take i)) (outputUpTo input (produced (ops.take i))) =
      .ok input input.length false := by
  induction left generalizing i with
  | zero =>
    have htotal := coversFrom_produced h
    rw [Nat.zero_add] at htotal
    rw [decodeLoop, show i = ops.length from hleft, List.take_length, htotal, outputUpTo_length]
    simp [decodeEnd]
  | succ left ih =>
    have hi : i < ops.length := by omega
    have hbm := assemble_bitmap_length l input.length ops
    have hfs := assemble_entryPos_le (l := l) (u := input.length) hi
    have hcov := coversFrom_getElem h hi
    have hop := assemble_operation (u := input.length) hl hi (hcov.encodable hw hm)
    have hrest := ih (i := i + 1) (by omega)
    rw [Nat.zero_add] at hcov
    have ho : produced (ops.take i) < input.length := by
      have := hcov.inside
      have := hcov.produces_pos hm
      omega
    rw [produced_take_succ hi] at hrest
    rw [← hrest]
    generalize ops[i] = op at hcov hop
    cases hcov with
    | lit hv => rw [decodeLoop_lit hbm hi hfs ho hop, outputUpTo_set hv, Operation.produces]
    | ref hmatch =>
      exact decodeLoop_ref hbm hi hfs ho hop
        (copyLoop_outputUpTo hmatch.offset_pos hmatch.offset_le_pos hmatch.inside hmatch.agree)

/-- Settles O55: by `assemble_wellFormed` and `decodeLoop_of_coversFrom`, since what `Compress` yields
covers the input. -/
theorem roundTrip : Obligations.RoundTrip := by
  intro input l w minm strict hl hw hm
  have hcovers := compressOps_coversFrom (input := input) (l := l) (w := w) hm
  rw [compress_eq]
  exact ⟨assemble_wellFormed hl hw hm hcovers,
    decodeLoop_of_coversFrom hl hw hm hcovers strict (Nat.zero_add _)⟩

end Sys2Proof.Machine
end

section
/-! PROOF. The encoder's steps `BEGIN` and `POS` (40_encoder.md R132, R133). -/

namespace Sys2Proof.Machine

variable {s : State}

/-- A turn that answers the state with another encoder unit is a step that changes nothing outside it. -/
theorem step_of_encTurn_setEnc {e : Enc} (hmoves : s.encMoves)
    (h : encTurn s.popped = .next (s.popped.setEnc e)) :
    ∃ t, step s = .next t ∧ s.popped.onlyEnc t ∧ t.enc = e :=
  ⟨_, (step_of_encMoves hmoves).trans h, ⟨rfl, rfl, rfl, rfl, rfl⟩, rfl⟩

theorem Enc.cfgValid_iff (e : Enc) :
    cfgValid e.split e.window.toNat = true ↔
      e.cfg.offsetBits.toNat + e.cfg.lengthBits.toNat = 16
        ∧ e.window.toNat ≤ 2 ^ e.cfg.offsetBits.toNat :=
  decide_eq_true_iff

/-! Step `BEGIN`. -/

/-- The first check (42_host_commands.md R201): the configuration and `MIN_MATCH`. -/
abbrev Enc.configFails (e : Enc) : Prop :=
  ¬ (e.cfg.offsetBits.toNat + e.cfg.lengthBits.toNat = 16
      ∧ e.window.toNat ≤ 2 ^ e.cfg.offsetBits.toNat)
    ∨ e.minMatch.toNat < 2

/-- The second check (42_host_commands.md R201): the input and the worst case of the output. -/
abbrev State.encCapacityFails (s : State) : Prop :=
  s.plat.esrcCap < s.enc.inLen.toNat ∨ s.plat.efsCap < s.enc.inLen.toNat
    ∨ s.plat.ebmCap < ceil8 s.enc.inLen.toNat

/-- The registers after the checks (40_encoder.md R132). -/
def Enc.begun (e : Enc) : Enc :=
  { e with
    pos := 0, opCount := 0, fsLen := 0, bmLen := 0, uncompSize := 0, bmAcc := 0
    phase := .pos }

theorem Enc.configFails_iff (e : Enc) :
    e.configFails ↔
      (!cfgValid e.split e.window.toNat || decide (e.minMatch.toNat < 2)) = true := by
  rw [Enc.configFails, ← Enc.cfgValid_iff]
  simp

theorem encBegin_of_configFails (h : s.enc.configFails) :
    encBegin s = .next (s.setEnc (s.enc.failed .configMismatch)) :=
  if_pos (s.enc.configFails_iff.mp h)

theorem encBegin_of_capacityFails (hc : ¬ s.enc.configFails) (h : s.encCapacityFails) :
    encBegin s = .next (s.setEnc (s.enc.failed .capacity)) :=
  (if_neg (mt s.enc.configFails_iff.mpr hc)).trans (if_pos h)

theorem encBegin_of_passes (hc : ¬ s.enc.configFails) (h : ¬ s.encCapacityFails) :
    encBegin s = .next (s.setEnc s.enc.begun) :=
  (if_neg (mt s.enc.configFails_iff.mpr hc)).trans (if_neg h)

/-- Settles O34: the step is `encBegin`, one of its three outcomes for each outcome of the checks. -/
theorem encoderBeginChecksAndClears : Obligations.EncoderBeginChecksAndClears := by
  intro s hmoves hphase
  have hturn := encTurn_begin (s := s.popped) hmoves.1 hphase
  split_ifs with hc hcap
  · exact step_of_encTurn_setEnc hmoves (hturn.trans (encBegin_of_configFails hc))
  · exact step_of_encTurn_setEnc hmoves (hturn.trans (encBegin_of_capacityFails hc hcap))
  · exact step_of_encTurn_setEnc hmoves (hturn.trans (encBegin_of_passes hc hcap))

/-! Step `POS`. -/

/-- What the invariant says of an encoder past `BEGIN`. -/
theorem State.Inv.enc_running (h : s.Inv) (hr : s.enc.running) :
    s.encExtentsOk ∧ s.enc.countersOk ∧ s.searchOk := by
  obtain ⟨-, -, -, -, -, -, hrunning⟩ := h
  exact hrunning hr

/-- The registers with the limits of the search at `POS` (40_encoder.md R133). -/
def Enc.searching (e : Enc) : Enc :=
  { e with
    cap := toCount (min (2 ^ e.split.lengthBits) (e.inLen.toNat - e.pos.toNat))
    dmax := toCount (min e.pos.toNat e.window.toNat)
    bestLen := 0, bestOff := 0, scanD := 1
    phase := .scan }

theorem encPos_of_end (h : s.enc.pos = s.enc.inLen) :
    encPos s = .next (s.setEnc { s.enc with phase := .flush }) :=
  if_pos h

theorem encPos_of_ne (h : s.enc.pos ≠ s.enc.inLen) :
    encPos s = .next (s.setEnc s.enc.searching) :=
  if_neg h

/-- In a valid configuration neither limit wraps (10_state.md R25). -/
theorem Enc.searching_limits {e : Enc} (h : cfgValid e.split e.window.toNat = true) :
    e.searching.cap.toNat = min (2 ^ e.cfg.lengthBits.toNat) (e.inLen.toNat - e.pos.toNat)
      ∧ e.searching.dmax.toNat = min e.pos.toNat e.window.toNat := by
  obtain ⟨hsum, hwindow⟩ := e.cfgValid_iff.mp h
  have hl : 2 ^ e.cfg.lengthBits.toNat ≤ 2 ^ 16 := Nat.pow_le_pow_right Nat.two_pos (by omega)
  have ho : 2 ^ e.cfg.offsetBits.toNat ≤ 2 ^ 16 := Nat.pow_le_pow_right Nat.two_pos (by omega)
  exact ⟨toNat_toCount (lt_of_le_of_lt (min_le_left _ _) (lt_of_le_of_lt hl (by decide))),
    toNat_toCount (by omega)⟩

/-- Settles O35: the step is `encPos`, and in a valid configuration the limits fit their registers. -/
theorem posStepSetsUpTheSearch : Obligations.PosStepSetsUpTheSearch := by
  intro s hinv hmoves hphase
  have hturn := encTurn_pos (s := s.popped) hmoves.1 hphase
  obtain ⟨⟨hcfg, -⟩, -, -⟩ := hinv.enc_running (.inl hphase)
  split_ifs with hend
  · exact step_of_encTurn_setEnc hmoves (hturn.trans (encPos_of_end hend))
  · obtain ⟨t, hstep, honly, henc⟩ :=
      step_of_encTurn_setEnc hmoves (hturn.trans (encPos_of_ne hend))
    obtain ⟨hcap, hdmax⟩ := Enc.searching_limits hcfg
    refine ⟨t, hstep, honly, ?_⟩
    rw [henc]
    exact ⟨hcap, hdmax, rfl⟩

end Sys2Proof.Machine
end

section
/-! PROOF. The encoder's step `EMIT`: a literal or a back-reference and its control bit
(40_encoder.md R126 to R128, R135). -/

namespace Sys2Proof.Machine

variable {s : State} {c : Bool} {n advance : Nat}

/-! What a byte reads as after a change. -/

theorem State.byteAt_setMem_write (s : State) (sp sp' : Space) (a x : Nat) (v : Byte) :
    (s.setMem sp ((s.mem sp).write a v)).byteAt sp' x =
      if sp' = sp ∧ x = a then v else s.byteAt sp' x := by
  by_cases hsp : sp' = sp
  · subst hsp
    by_cases hx : x = a
    · subst hx
      simp
    · rw [State.byteAt_setMem_other _ _ _ hx, if_neg fun h => hx h.2]
  · rw [State.byteAt_setMem_space _ _ _ hsp, if_neg fun h => hsp h.1]

/-- Registers are no memory. -/
theorem State.byteAt_setEnc {e : Enc} (hesrc : e.esrc = s.enc.esrc) (hebm : e.ebm = s.enc.ebm)
    (hefs : e.efs = s.enc.efs) (sp : Space) (x : Nat) :
    (s.setEnc e).byteAt sp x = s.byteAt sp x := by
  have hmem : (s.setEnc e).mem sp = s.mem sp := by cases sp <;> simp [*]
  exact State.byteAt_congr hmem rfl x

/-! The control bit. -/

/-- The accumulator with the next control bit (40_encoder.md R128). -/
def Enc.accWith (e : Enc) (c : Bool) : Byte :=
  e.bmAcc ||| (BitVec.ofNat 8 c.toNat <<< (e.opCount.toNat % 8))

theorem Enc.accWith_false (e : Enc) : e.accWith false = e.bmAcc := by
  simp [Enc.accWith]

/-- The pending bits lie below the new one, so the bitwise or is the sum. -/
theorem Enc.accWith_true {e : Enc} (h : e.bmAcc.toNat < 2 ^ (e.opCount.toNat % 8)) :
    e.accWith true = toByte (e.bmAcc.toNat + 2 ^ (e.opCount.toNat % 8)) := by
  have hk : 2 ^ (e.opCount.toNat % 8) < 2 ^ 8 :=
    Nat.pow_lt_pow_right (by decide) (Nat.mod_lt _ (by decide))
  have hor := Nat.two_pow_add_eq_or_of_lt h 1
  rw [Nat.mul_one, Nat.lor_comm] at hor
  apply BitVec.eq_of_toNat_eq
  rw [Enc.accWith, BitVec.toNat_or, BitVec.toNat_shiftLeft, BitVec.toNat_ofNat, BitVec.toNat_ofNat,
    Nat.add_comm, hor, Bool.toNat_true, Nat.one_mod, Nat.one_shiftLeft, Nat.mod_eq_of_lt hk,
    Nat.mod_eq_of_lt (a := _ ||| _)]
  exact Nat.or_lt_two_pow e.bmAcc.isLt hk

/-- `AppendControlBit` on the registers and the bitmap (40_encoder.md R128). -/
def Enc.withControlBit (e : Enc) (c : Bool) : Enc :=
  { e with
    ebm := if e.opCount.toNat % 8 = 7 then e.ebm.write (e.opCount.toNat / 8) (e.accWith c) else e.ebm
    bmAcc := if e.opCount.toNat % 8 = 7 then 0 else e.accWith c
    opCount := toWord (e.opCount.toNat + 1) }

theorem appendControlBit_of_backed (h : s.backed .ebm (s.enc.opCount.toNat / 8) = true) (c : Bool)
    (k : State → Result) :
    appendControlBit c s k = k (s.setEnc (s.enc.withControlBit c)) := by
  rcases appendControlBit_cases c s k with ⟨h7, -, hk⟩ | ⟨-, hb, -⟩ | ⟨h7, hk⟩
  · rw [hk, Enc.withControlBit, if_pos h7, if_pos h7]
    rfl
  · rw [h] at hb
    cases hb
  · rw [hk, Enc.withControlBit, if_neg h7, if_neg h7]
    rfl

theorem byteAt_withControlBit (s : State) (c : Bool) (sp : Space) (x : Nat) :
    (s.setEnc (s.enc.withControlBit c)).byteAt sp x =
      if sp = .ebm ∧ x = s.enc.opCount.toNat / 8 ∧ s.enc.opCount.toNat % 8 = 7 then s.enc.accWith c
      else s.byteAt sp x := by
  by_cases h7 : s.enc.opCount.toNat % 8 = 7
  · have hebm : (s.enc.withControlBit c).ebm =
        s.enc.ebm.write (s.enc.opCount.toNat / 8) (s.enc.accWith c) := if_pos h7
    simp only [h7, and_true]
    rw [← State.byteAt_setMem_write]
    exact State.byteAt_setEnc (s := s.setMem .ebm _) (e := s.enc.withControlBit c) rfl hebm rfl sp x
  · have hebm : (s.enc.withControlBit c).ebm = s.enc.ebm := if_neg h7
    rw [if_neg fun h => h7 h.2.2]
    exact State.byteAt_setEnc (s := s) (e := s.enc.withControlBit c) rfl hebm rfl sp x

/-! The end of an emission. -/

/-- The state after an operation is emitted: its entry of `n` bytes has been stored, its control bit
joins the bitmap, the input position advances (40_encoder.md R126, R127, R135). -/
def State.emitted (s : State) (c : Bool) (n advance : Nat) : State :=
  s.setEnc
    { s.enc.withControlBit c with
      fsLen := toWord (s.enc.fsLen.toNat + n), pos := toWord (s.enc.pos.toNat + advance)
      phase := .pos }

/-- The registers of an emission and its control bit, the entry having been stored. -/
theorem appendControlBit_emitted (h : s.backed .ebm (s.enc.opCount.toNat / 8) = true) :
    appendControlBit c
        (s.setEnc
          { s.enc with
            fsLen := toWord (s.enc.fsLen.toNat + n), pos := toWord (s.enc.pos.toNat + advance) })
        (fun s => .next (s.setEnc { s.enc with phase := .pos })) =
      .next (s.emitted c n advance) := by
  rw [appendControlBit_of_backed]
  · rfl
  · exact h

theorem State.byteAt_emitted (s : State) (c : Bool) (n advance : Nat) (sp : Space) (x : Nat) :
    (s.emitted c n advance).byteAt sp x =
      if sp = .ebm ∧ x = s.enc.opCount.toNat / 8 ∧ s.enc.opCount.toNat % 8 = 7 then s.enc.accWith c
      else s.byteAt sp x := by
  rw [← byteAt_withControlBit]
  exact State.byteAt_setEnc (s := s.setEnc (s.enc.withControlBit c)) rfl rfl rfl sp x

/-- The registers after an emission, where storing the entry has changed nothing of `ENC` but `EFS`. -/
theorem State.emitted_enc {e : Enc} {m : Memory} (h : s.enc = { e with efs := m }) :
    (s.emitted c n advance).enc =
      { e with
        fsLen := toWord (e.fsLen.toNat + n), pos := toWord (e.pos.toNat + advance)
        opCount := toWord (e.opCount.toNat + 1)
        bmAcc := if e.opCount.toNat % 8 = 7 then 0 else e.accWith c
        phase := .pos
        ebm := (s.emitted c n advance).enc.ebm, efs := (s.emitted c n advance).enc.efs } := by
  simp only [State.emitted, State.setEnc_enc, h]
  rfl

theorem State.onlyEnc_emitted {s₀ : State} (h : s₀.onlyEnc s) : s₀.onlyEnc (s.emitted c n advance) :=
  h

/-- The state in which a literal's byte is stored (40_encoder.md R126). -/
def State.litStored (s : State) : State :=
  s.setMem .efs ((s.mem .efs).write s.enc.fsLen.toNat (s.byteAt .esrc s.enc.pos.toNat))

theorem State.onlyEnc_litStored (s : State) : s.onlyEnc s.litStored :=
  ⟨rfl, rfl, rfl, rfl, rfl⟩

theorem State.litStored_enc (s : State) :
    s.litStored.enc = { s.enc with efs := s.litStored.enc.efs } := rfl

theorem State.byteAt_litStored (s : State) (sp : Space) (x : Nat) :
    s.litStored.byteAt sp x =
      if sp = .efs ∧ x = s.enc.fsLen.toNat then s.byteAt .esrc s.enc.pos.toNat
      else s.byteAt sp x :=
  State.byteAt_setMem_write ..

theorem encEmit_lit (hlt : s.enc.bestLen.toNat < s.enc.minMatch.toNat)
    (hsrc : s.backed .esrc s.enc.pos.toNat = true) (hdst : s.backed .efs s.enc.fsLen.toNat = true)
    (hbm : s.backed .ebm (s.enc.opCount.toNat / 8) = true) :
    encEmit s = .next (s.litStored.emitted false 1 1) := by
  rw [encEmit]
  dsimp only
  rw [if_neg (Nat.not_le.mpr hlt), emitLit, load_of_backed hsrc, store_of_backed hdst]
  exact appendControlBit_emitted (s := s.litStored) hbm

/-- The field of the back-reference that the search has found (40_encoder.md R127). -/
def Enc.field (e : Enc) : Nat :=
  packField e.split.lengthBits e.bestOff.toNat e.bestLen.toNat

/-- The state in which a back-reference's field is stored, low byte first (40_encoder.md R127). -/
def State.refStored (s : State) : State :=
  let s' := s.setMem .efs ((s.mem .efs).write s.enc.fsLen.toNat (toByte (s.enc.field % 256)))
  s'.setMem .efs ((s'.mem .efs).write (s.enc.fsLen.toNat + 1) (toByte (s.enc.field / 256)))

theorem State.onlyEnc_refStored (s : State) : s.onlyEnc s.refStored :=
  ⟨rfl, rfl, rfl, rfl, rfl⟩

theorem State.refStored_enc (s : State) :
    s.refStored.enc = { s.enc with efs := s.refStored.enc.efs } := rfl

theorem State.byteAt_refStored (s : State) (sp : Space) (x : Nat) :
    s.refStored.byteAt sp x =
      if sp = .efs ∧ x = s.enc.fsLen.toNat then toByte (s.enc.field % 256)
      else if sp = .efs ∧ x = s.enc.fsLen.toNat + 1 then toByte (s.enc.field / 256)
      else s.byteAt sp x := by
  rw [State.refStored, State.byteAt_setMem_write, State.byteAt_setMem_write]
  by_cases hx : x = s.enc.fsLen.toNat
  · simp [hx]
  · simp [hx]

theorem encEmit_ref (hle : s.enc.minMatch.toNat ≤ s.enc.bestLen.toNat)
    (hdst : s.backed .efs (s.enc.fsLen.toNat + 1) = true)
    (hbm : s.backed .ebm (s.enc.opCount.toNat / 8) = true) :
    encEmit s = .next (s.refStored.emitted true 2 s.enc.bestLen.toNat) := by
  rw [encEmit]
  dsimp only
  rw [if_pos hle, emitRef]
  dsimp only
  rw [store_of_backed (State.backed_mono hdst (Nat.le_succ _)), store_of_backed]
  · exact appendControlBit_emitted (s := s.refStored) hbm
  · exact hdst

/-! What the invariant says of a state in phase `EMIT`. -/

/-- The byte of the next control bit is backed, since there is at most one operation for a byte of the
input (40_encoder.md R145, 42_host_commands.md R201). -/
theorem backed_ebm_of_inv (hinv : s.Inv) (hr : s.enc.running)
    (hpos : s.enc.pos.toNat < s.enc.inLen.toNat) :
    s.backed .ebm (s.enc.opCount.toNat / 8) = true := by
  obtain ⟨⟨-, -, -, -, hcap⟩, ⟨-, -, hop, -, -⟩, -⟩ := hinv.enc_running hr
  have hlen := s.enc.inLen.isLt
  refine State.backed_of_lt (n := ceil8 s.enc.inLen.toNat) ?_ hcap ?_ <;> unfold ceil8 <;> omega

/-- A byte below the end of the input is backed in `EFS` (42_host_commands.md R201). -/
theorem backed_efs_of_inv (hinv : s.Inv) (hr : s.enc.running) {a : Nat}
    (ha : a < s.enc.inLen.toNat) : s.backed .efs a = true := by
  obtain ⟨⟨-, -, -, hcap, -⟩, -, -⟩ := hinv.enc_running hr
  exact State.backed_of_lt ha hcap (Nat.le_of_lt s.enc.inLen.isLt)

theorem backed_esrc_of_inv (hinv : s.Inv) (hr : s.enc.running) {a : Nat}
    (ha : a < s.enc.inLen.toNat) : s.backed .esrc a = true := by
  obtain ⟨⟨-, -, hcap, -, -⟩, -, -⟩ := hinv.enc_running hr
  exact State.backed_of_lt ha hcap (Nat.le_of_lt s.enc.inLen.isLt)

/-- A match long enough to emit is one of the window, and its operands are in the domain of `Pack`
(30_encoding.md R101, 40_encoder.md R127). -/
theorem emit_operands (hinv : s.Inv) (hphase : s.enc.phase = .emit)
    (hle : s.enc.minMatch.toNat ≤ s.enc.bestLen.toNat) :
    2 ≤ s.enc.bestLen.toNat ∧ s.enc.bestLen.toNat ≤ s.enc.cap.toNat
      ∧ 1 ≤ s.enc.bestOff.toNat ∧ s.enc.bestOff.toNat ≤ min s.enc.pos.toNat s.enc.window.toNat
      ∧ s.enc.split.valid = true
      ∧ s.enc.split.admits s.enc.bestOff.toNat s.enc.bestLen.toNat = true := by
  obtain ⟨⟨hcfg, hmin, -⟩, -, hlimits, -, hbest⟩ :=
    hinv.enc_running (.inr (.inr (.inl hphase)))
  obtain ⟨hsum, hwindow⟩ := s.enc.cfgValid_iff.mp hcfg
  obtain ⟨-, hcap, hdmax⟩ := hlimits (.inr hphase)
  obtain ⟨-, -, -, hattained⟩ := hbest hphase
  obtain ⟨h1, hoff, hlen⟩ := hattained (by omega)
  have hlen : s.enc.bestLen.toNat ≤ s.enc.cap.toNat := hlen ▸ matchLen_le ..
  have hcap : s.enc.cap.toNat ≤ 2 ^ s.enc.split.lengthBits := hcap ▸ min_le_left _ _
  have hoff : s.enc.bestOff.toNat ≤ min s.enc.pos.toNat s.enc.window.toNat := hdmax ▸ hoff
  exact ⟨by omega, hlen, h1, hoff, Split.valid_iff.mpr hsum, Split.admits_iff.mpr
    ⟨h1, (hoff.trans (min_le_right _ _)).trans hwindow, by omega, hlen.trans hcap⟩⟩

/-! The step. -/

theorem encEmit_lit_of_inv (hinv : s.Inv) (hphase : s.enc.phase = .emit)
    (hlt : s.enc.bestLen.toNat < s.enc.minMatch.toNat) :
    encEmit s = .next (s.litStored.emitted false 1 1) := by
  have hr : s.enc.running := .inr (.inr (.inl hphase))
  obtain ⟨-, ⟨-, hfs, -, -, -⟩, hlimits, -⟩ := hinv.enc_running hr
  obtain ⟨hpos, -, -⟩ := hlimits (.inr hphase)
  exact encEmit_lit hlt (backed_esrc_of_inv hinv hr hpos)
    (backed_efs_of_inv hinv hr (lt_of_le_of_lt hfs hpos)) (backed_ebm_of_inv hinv hr hpos)

/-- The field fits before the end of the input, since a match is at least two bytes long. -/
theorem encEmit_ref_of_inv (hinv : s.Inv) (hphase : s.enc.phase = .emit)
    (hle : s.enc.minMatch.toNat ≤ s.enc.bestLen.toNat) :
    encEmit s = .next (s.refStored.emitted true 2 s.enc.bestLen.toNat) := by
  have hr : s.enc.running := .inr (.inr (.inl hphase))
  obtain ⟨-, ⟨-, hfs, -, -, -⟩, hlimits, -⟩ := hinv.enc_running hr
  obtain ⟨hpos, hcap, -⟩ := hlimits (.inr hphase)
  obtain ⟨hlen, hlen', -⟩ := emit_operands hinv hphase hle
  exact encEmit_ref hle (backed_efs_of_inv hinv hr (by omega)) (backed_ebm_of_inv hinv hr hpos)

theorem step_of_encEmit {t : State} (hmoves : s.encMoves) (hphase : s.enc.phase = .emit)
    (h : encEmit s.popped = .next t) : step s = .next t :=
  (step_of_encMoves hmoves).trans ((encTurn_emit (s := s.popped) hmoves.1 hphase).trans h)

/-- Settles O40: the step stores the byte and appends a 0, which leaves the accumulator's bits. -/
theorem emitStepWritesALiteral : Obligations.EmitStepWritesALiteral := by
  intro s hinv hmoves hphase hlt
  have hemit := encEmit_lit_of_inv (State.Inv_popped hinv) hphase hlt
  refine ⟨_, step_of_encEmit hmoves hphase hemit,
    State.onlyEnc_emitted (State.onlyEnc_litStored _), ?_, fun sp x => ?_⟩
  · rw [← s.enc.accWith_false]
    exact State.emitted_enc s.popped.litStored_enc
  · rw [State.byteAt_emitted, Enc.accWith_false, State.litStored_enc, State.byteAt_litStored]
    cases sp <;> simp

/-- Settles O41: the operands are in the domain of `Pack`; the step stores the two bytes of the field and
appends a 1 above the pending bits. -/
theorem emitStepWritesABackReference : Obligations.EmitStepWritesABackReference := by
  intro s hinv hmoves hphase hle
  have hemit := encEmit_ref_of_inv (State.Inv_popped hinv) hphase hle
  obtain ⟨-, hlen, h1, hoff, hvalid, hadmits⟩ := emit_operands hinv hphase hle
  obtain ⟨⟨hcfg, -⟩, ⟨-, -, -, hpending, -⟩, hlimits, -⟩ :=
    hinv.enc_running (.inr (.inr (.inl hphase)))
  obtain ⟨-, hwindow⟩ := s.enc.cfgValid_iff.mp hcfg
  obtain ⟨-, hcap, -⟩ := hlimits (.inr hphase)
  have hfield : s.enc.field =
      (s.enc.bestOff.toNat - 1) * 2 ^ s.enc.cfg.lengthBits.toNat + (s.enc.bestLen.toNat - 1) := by
    obtain ⟨-, -, hl, hl'⟩ := Split.admits_iff.mp hadmits
    exact packField_eq_add _ (by omega)
  have hacc := Enc.accWith_true hpending
  dsimp only
  rw [← hfield, ← hacc]
  refine ⟨_, step_of_encEmit hmoves hphase hemit,
    State.onlyEnc_emitted (State.onlyEnc_refStored _), packField_lt hvalid hadmits, h1, hoff, hwindow,
    hlen, hcap ▸ min_le_left _ _, State.emitted_enc s.popped.refStored_enc, fun sp x => ?_⟩
  rw [State.byteAt_emitted, State.refStored_enc, State.byteAt_refStored]
  cases sp <;> simp [Enc.field, Enc.accWith]

end Sys2Proof.Machine
end

section
/-! PROOF. The decoder's steps `LIT`, `REF` and `COPY` and the end of a run
(41_decoder.md R156 to R158, R160). -/

namespace Sys2Proof.Machine

variable {s : State}

/-! From a turn of `DEC` to the machine's step. -/

/-- A turn that answers the state with another decoder unit is a step that changes nothing outside it. -/
theorem step_of_decTurn_setDec {d : Dec} (hmoves : s.decMoves)
    (h : decTurn s.popped = .next (s.popped.setDec d)) :
    ∃ t, step s = .next t ∧ s.popped.onlyDec t ∧ t.dec = d :=
  ⟨_, (step_of_decMoves hmoves).trans h, ⟨rfl, rfl, rfl, rfl, rfl⟩, rfl⟩

/-- What the invariant says of a decoder past `BEGIN`. -/
theorem State.Inv.dec_running (h : s.Inv) (hr : s.dec.running) :
    s.decExtentsOk ∧ s.dec.cursorsOk ∧ s.dec.copyOk ∧ s.ctrlSrOk ∧ s.tailZero := by
  obtain ⟨-, -, ⟨-, -, hrunning⟩, -⟩ := h
  exact hrunning hr

/-! One byte of output. -/

/-- The state with the registers `d` and a byte written at `OUT_POS` of `DOUT`. -/
def State.withOutput (s : State) (d : Dec) (v : Byte) : State :=
  s.setDec { d with dout := s.dec.dout.write s.dec.outPos.toNat v }

theorem State.byteAt_withOutput {d : Dec} (hsrc : d.dsrc = s.dec.dsrc) (v : Byte) (sp : Space)
    (x : Nat) : (s.withOutput d v).byteAt sp x =
      if sp = .dout ∧ x = s.dec.outPos.toNat then v else s.byteAt sp x := by
  rw [← State.byteAt_setMem_write]
  refine State.byteAt_congr (s := s.setMem .dout _) (t := s.withOutput d v) ?_ rfl x
  cases sp with
  | dsrc => exact hsrc
  | dout | esrc | ebm | efs => rfl

/-- A turn that writes one byte of output is a step with the frame of R156 and R158. -/
theorem step_of_decTurn_withOutput {d : Dec} {v : Byte} (hmoves : s.decMoves)
    (hsrc : d.dsrc = s.dec.dsrc) (h : decTurn s.popped = .next (s.popped.withOutput d v)) :
    ∃ t, step s = .next t ∧ s.popped.onlyDec t ∧ t.dec = { d with dout := t.dec.dout }
      ∧ t.byteAt .dout s.dec.outPos.toNat = v ∧ s.onlyBytes t .dout s.dec.outPos.toNat 1 := by
  have hbyte := State.byteAt_withOutput (s := s.popped) hsrc v
  refine ⟨_, (step_of_decMoves hmoves).trans h, ⟨rfl, rfl, rfl, rfl, rfl⟩, rfl,
    (hbyte _ _).trans (if_pos ⟨rfl, rfl⟩), fun sp x hx => ?_⟩
  rw [hbyte, State.popped_dec, if_neg, State.popped_byteAt]
  rintro ⟨rfl, rfl⟩
  simp at hx

/-- A byte below the end of the output is backed in `DOUT` (42_host_commands.md R195). -/
theorem backed_dout_of_inv (hinv : s.Inv) (hr : s.dec.running) {a : Nat}
    (ha : a < s.dec.uncompSize.toNat) : s.backed .dout a = true := by
  obtain ⟨⟨-, -, hcap, -, -⟩, -⟩ := hinv.dec_running hr
  exact State.backed_of_lt ha hcap (Nat.le_of_lt s.dec.uncompSize.isLt)

/-! The entry of an operation. -/

theorem Dec.entryMissing_iff (d : Dec) (n : Nat) :
    d.entryMissing n = true ↔ d.fsLen.toNat < d.fsPos.toNat + n :=
  decide_eq_true_iff

/-- An entry inside the field stream is backed in `DSRC`, since the stream lies inside the extent
(42_host_commands.md R195). -/
theorem backed_entry_of_inv (hinv : s.Inv) (hr : s.dec.running) {n : Nat}
    (hn : ¬ s.dec.fsLen.toNat < s.dec.fsPos.toNat + n) :
    ∀ j < n, s.backed .dsrc (s.dec.entryAddr + j) = true := by
  obtain ⟨⟨-, hcap, -, -, hfs⟩, -⟩ := hinv.dec_running hr
  intro j hj
  refine State.backed_of_lt ?_ hcap (Nat.le_of_lt s.dec.srcLen.isLt)
  unfold Dec.entryAddr
  omega

theorem runOperation_of_entryMissing {ctrl : Bool}
    (h : s.dec.fsLen.toNat < s.dec.fsPos.toNat + entryLength ctrl) :
    runOperation ctrl s = .next (s.setDec (s.dec.failed .truncatedStream s.dec.entryAddr)) :=
  if_pos ((s.dec.entryMissing_iff _).mpr h)

/-- An operation step whose entry is there and backed runs the instruction at the cursor. -/
theorem runOperation_of_entry {ctrl : Bool} {i : Instr} {rest : List Byte}
    (h : ¬ s.dec.fsLen.toNat < s.dec.fsPos.toNat + entryLength ctrl)
    (hb : ∀ j < entryLength ctrl, s.backed .dsrc (s.dec.entryAddr + j) = true)
    (hi : decodeOperation s.dec.split ctrl (s.slice .dsrc s.dec.entryAddr (entryLength ctrl))
      = .ok (i, rest)) : runOperation ctrl s = exec i s := by
  rw [runOperation, if_neg (mt (s.dec.entryMissing_iff _).mp h), loadBytes_of_backed hb, hi]

/-! Step `LIT`. -/

/-- The registers after a literal (41_decoder.md R156). -/
def Dec.afterLit (d : Dec) : Dec :=
  { d with
    outPos := toWord (d.outPos.toNat + 1), fsPos := toWord (d.fsPos.toNat + 1)
    opIdx := toWord (d.opIdx.toNat + 1), phase := .op }

theorem execLit_of_backed {v : Byte} (h : ¬ s.dec.fsLen.toNat < s.dec.fsPos.toNat + 1)
    (hb : s.backed .dout s.dec.outPos.toNat = true) :
    execLit v s = .next (s.withOutput s.dec.afterLit v) := by
  rw [execLit, if_neg (mt (s.dec.entryMissing_iff _).mp h), store_of_backed hb]
  rfl

theorem runOperation_lit_of_inv (hinv : s.Inv) (hphase : s.dec.phase = .lit)
    (h : ¬ s.dec.fsLen.toNat < s.dec.fsPos.toNat + 1) :
    runOperation false s =
      .next (s.withOutput s.dec.afterLit (s.byteAt .dsrc s.dec.entryAddr)) := by
  have hr : s.dec.running := .inr (.inl hphase)
  obtain ⟨-, ⟨-, -, -, -, hout⟩, -⟩ := hinv.dec_running hr
  have hrun : runOperation false s = exec (.lit (s.byteAt .dsrc s.dec.entryAddr)) s :=
    runOperation_of_entry h (backed_entry_of_inv hinv hr h) rfl
  exact hrun.trans (execLit_of_backed h (backed_dout_of_inv hinv hr (hout (.inl hphase))))

/-- Settles O10: an entry inside the field stream is backed, and so is `OUT_POS` in phase `LIT`, so the
step runs `LIT` on the entry's byte. -/
theorem litStepEmitsTheEntryByte : Obligations.LitStepEmitsTheEntryByte := by
  intro s hinv hmoves hphase
  have hturn := decTurn_lit (s := s.popped) hmoves.1 hphase
  split_ifs with hmissing
  · exact step_of_decTurn_setDec hmoves
      (hturn.trans (runOperation_of_entryMissing (Nat.lt_succ_of_le hmissing)))
  · have hentry : ¬ s.dec.fsLen.toNat < s.dec.fsPos.toNat + 1 := mt Nat.le_of_lt_succ hmissing
    have hrun := runOperation_lit_of_inv (State.Inv_popped hinv) hphase hentry
    rw [State.popped_byteAt] at hrun
    exact step_of_decTurn_withOutput (d := s.dec.afterLit) hmoves rfl (hturn.trans hrun)

/-! Step `REF`. -/

/-- The registers after the fetch of a back-reference (41_decoder.md R157). -/
def Dec.copying (d : Dec) (offset length : Nat) : Dec :=
  { d with
    curOffset := toCount offset, curRemain := toCount length
    fsPos := toWord (d.fsPos.toNat + 2), phase := .copy }

theorem beginCopy_of_entry {offset length : Nat}
    (h : ¬ s.dec.fsLen.toNat < s.dec.fsPos.toNat + 2) :
    beginCopy offset length s = .next (s.setDec (s.dec.copying offset length)) :=
  if_neg (mt (s.dec.entryMissing_iff _).mp h)

theorem runOperation_ref_of_inv (hinv : s.Inv) (hr : s.dec.running)
    (h : ¬ s.dec.fsLen.toNat < s.dec.fsPos.toNat + 2) :
    runOperation true s = .next (s.setDec (s.dec.copying
      (unpackOffset s.dec.split.lengthBits s.fieldAtCursor)
      (unpackLength s.dec.split.lengthBits s.fieldAtCursor))) := by
  have hrun : runOperation true s = exec (refInstr s.dec.split
      (unpackOffset s.dec.split.lengthBits s.fieldAtCursor)
      (unpackLength s.dec.split.lengthBits s.fieldAtCursor)) s :=
    runOperation_of_entry h (backed_entry_of_inv hinv hr h) rfl
  rw [hrun, exec_refInstr, beginCopy_of_entry h]

/-- The unpacked operands of a 16-bit field fit the hidden registers (10_state.md R24). -/
theorem toNat_toCount_unpack (l : Nat) {field : Nat} (h : field < 2 ^ 16) :
    (toCount (unpackOffset l field)).toNat = field / 2 ^ l + 1
      ∧ (toCount (unpackLength l field)).toNat = field % 2 ^ l + 1 := by
  have hdiv : field / 2 ^ l ≤ field := Nat.div_le_self ..
  have hmod : field % 2 ^ l ≤ field := Nat.mod_le ..
  rw [unpackOffset_eq, unpackLength_eq]
  exact ⟨toNat_toCount (by omega), toNat_toCount (by omega)⟩

/-- Settles O11: the step runs the row of `REF` that the split selects, all of which begin the copy; the
operands of a 16-bit field and the moved cursor fit their registers. -/
theorem refStepUnpacksTheField : Obligations.RefStepUnpacksTheField := by
  intro s hinv hmoves hphase
  have hturn := decTurn_ref (s := s.popped) hmoves.1 hphase
  split_ifs with hmissing
  · exact step_of_decTurn_setDec hmoves (hturn.trans (runOperation_of_entryMissing hmissing))
  · have hrun := runOperation_ref_of_inv (State.Inv_popped hinv) (.inr (.inr (.inl hphase))) hmissing
    obtain ⟨t, hstep, honly, hdec⟩ := step_of_decTurn_setDec hmoves (hturn.trans hrun)
    obtain ⟨hoff, hlen⟩ := toNat_toCount_unpack s.dec.split.lengthBits
      (le16_lt (s.byteAt .dsrc s.dec.entryAddr) (s.byteAt .dsrc (s.dec.entryAddr + 1)))
    have hfs := s.dec.fsLen.isLt
    refine ⟨t, hstep, honly, ?_⟩
    rw [hdec, State.popped_dec]
    exact ⟨hoff, hlen, toNat_toWord (by omega), rfl⟩

/-! Step `COPY`. -/

/-- The registers after one byte of a copy (41_decoder.md R158). -/
def Dec.afterCopy (d : Dec) : Dec :=
  { d with
    outPos := toWord (d.outPos.toNat + 1), curRemain := toCount (d.curRemain.toNat - 1)
    opIdx := if d.curRemain.toNat = 1 then toWord (d.opIdx.toNat + 1) else d.opIdx
    phase := if d.curRemain.toNat = 1 then .op else .copy }

/-- The copy has no room or reaches back past the start of the output (41_decoder.md R158). -/
abbrev Dec.copyFails (d : Dec) : Prop :=
  d.uncompSize.toNat ≤ d.outPos.toNat ∨ d.outPos.toNat < d.curOffset.toNat

theorem decCopy_of_copyFails (h : s.dec.copyFails) :
    decCopy s = .next (s.setDec
      (s.dec.failed .invalidBackReference (s.dec.fsBase.toNat + s.dec.fsPos.toNat - 2))) :=
  if_pos h

/-- A copy with a byte to go moves it, and is over when that was the last one. -/
theorem decCopy_of_backed (h : ¬ s.dec.copyFails) (hphase : s.dec.phase = .copy)
    (hremain : 1 ≤ s.dec.curRemain.toNat) (hb : s.backed .dout s.dec.outPos.toNat = true) :
    decCopy s = .next (s.withOutput s.dec.afterCopy
      (s.byteAt .dout (s.dec.outPos.toNat - s.dec.curOffset.toNat))) := by
  have hlast : s.dec.curRemain.toNat - 1 = 0 ↔ s.dec.curRemain.toNat = 1 := by omega
  rw [decCopy]
  dsimp only
  rw [if_neg h, load_of_backed (State.backed_mono hb (Nat.sub_le ..)), store_of_backed hb]
  simp only [State.setMem_dout, State.setDec_dec, State.mem_dout, hlast, State.withOutput,
    Dec.afterCopy]
  split_ifs
  · rfl
  · simp only [hphase]
    rfl

theorem decCopy_of_inv (hinv : s.Inv) (hphase : s.dec.phase = .copy) (h : ¬ s.dec.copyFails) :
    decCopy s = .next (s.withOutput s.dec.afterCopy
      (s.byteAt .dout (s.dec.outPos.toNat - s.dec.curOffset.toNat))) := by
  have hr : s.dec.running := .inr (.inr (.inr hphase))
  obtain ⟨-, -, hcopy, -⟩ := hinv.dec_running hr
  obtain ⟨hremain, -⟩ := hcopy hphase
  exact decCopy_of_backed h hphase hremain
    (backed_dout_of_inv hinv hr (Nat.lt_of_not_le fun hle => h (.inl hle)))

/-- Settles O12: the byte read lies before `OUT_POS`, which is backed while the output is not full, and
at least one byte of the copy is left. -/
theorem copyStepMovesOneByte : Obligations.CopyStepMovesOneByte := by
  intro s hinv hmoves hphase
  have hturn := decTurn_copy (s := s.popped) hmoves.1 hphase
  by_cases hfails : s.dec.copyFails
  · simp only [if_pos hfails]
    exact step_of_decTurn_setDec hmoves (hturn.trans (decCopy_of_copyFails hfails))
  · simp only [if_neg hfails]
    have hcopy := decCopy_of_inv (State.Inv_popped hinv) hphase hfails
    rw [State.popped_byteAt] at hcopy
    exact step_of_decTurn_withOutput (d := s.dec.afterCopy) hmoves rfl (hturn.trans hcopy)

/-! The end of a run. -/

/-- The operations are over, or the output is full (41_decoder.md R155). -/
abbrev Dec.runOver (d : Dec) : Prop :=
  d.opIdx = d.opCount ∨ d.uncompSize.toNat ≤ d.outPos.toNat

/-- The registers after `Finish` (41_decoder.md R160). -/
def Dec.finished (d : Dec) : Dec :=
  if d.outPos = d.uncompSize then { d with underfill := false, runState := .done, phase := .halt }
  else if d.cfg.strict then { d.failed .underfill d.entryAddr with underfill := true }
  else { d with underfill := true, runState := .done, phase := .halt }

theorem decFinish_eq (s : State) : decFinish s = .next (s.setDec s.dec.finished) := by
  rcases decFinish_cases s with ⟨hstrict, hne, hk⟩ | ⟨hor, hk⟩ <;> rw [hk, Dec.finished]
  · rw [if_neg hne, if_pos hstrict]
    rfl
  · split_ifs with hout hstrict
    · simp only [hout, ne_eq, not_true_eq_false, decide_false]
    · simp [hstrict, hout] at hor
    · simp only [hout, ne_eq, not_false_eq_true, decide_true]

theorem decOp_of_runOver (h : s.dec.runOver) : decOp s = .next (s.setDec s.dec.finished) :=
  (if_pos h).trans (decFinish_eq s)

/-- `Finish` leaves the cursors and the output as they are, and says in `UNDERFILL` whether the output
fell short. -/
theorem Dec.finished_frame (d : Dec) :
    d.finished.outPos = d.outPos ∧ d.finished.uncompSize = d.uncompSize
      ∧ d.finished.opIdx = d.opIdx ∧ d.finished.opCount = d.opCount
      ∧ d.finished.dout = d.dout ∧ (d.finished.underfill = true ↔ d.outPos ≠ d.uncompSize) := by
  unfold Dec.finished
  split_ifs with hout
  · simp [hout]
  · simp [hout, Dec.failed]
  · simp [hout]

/-- Settles O15: the step is `Finish`; in a state of the invariant an output that is not filled is short,
so the run is over because no operation is left. -/
theorem opStepFinishesTheRun : Obligations.OpStepFinishesTheRun := by
  intro s hmoves hphase hover
  have hturn := decTurn_op (s := s.popped) hmoves.1 hphase
  obtain ⟨t, hstep, honly, hdec⟩ := step_of_decTurn_setDec hmoves
    (hturn.trans (decOp_of_runOver (s := s.popped) hover))
  refine ⟨t, hstep, honly, ?_, fun hinv => ?_⟩
  · rw [hdec, State.popped_dec, Dec.finished]
    split_ifs <;> rfl
  obtain ⟨-, ⟨-, -, hle, -, -⟩, -, -, hzero⟩ := hinv.dec_running (.inl hphase)
  obtain ⟨hout, huncomp, hidx, hcount, hdout, hunder⟩ := s.dec.finished_frame
  obtain ⟨-, -, -, -, hepoch⟩ := honly
  rw [hdec, State.popped_dec, hout, huncomp, hidx, hcount, hunder]
  refine ⟨hle, fun hne => hover.resolve_right fun hfull => ?_, fun j hj hlt => ?_⟩
  · exact hne (BitVec.eq_of_toNat_eq (Nat.le_antisymm hle hfull))
  · have hmem : t.mem .dout = s.mem .dout := (congrArg Dec.dout hdec).trans hdout
    rw [State.byteAt_congr hmem hepoch]
    exact hzero j hlt hj

end Sys2Proof.Machine
end

section
/-! PROOF. The START commands (42_host_commands.md R193, R194, R200). -/

namespace Sys2Proof.Machine

/-- A START always answers a next state: the one of a run begun, but for a unit that is `BUSY`. -/
theorem startUnlessBusy_eq (u : UnitId) (mode : RunMode) (s : State) :
    startUnlessBusy u mode s = .next (if s.runStateOf u = .busy then s else startRun u mode s) := by
  rcases startUnlessBusy_cases u mode s with ⟨hbusy, hk⟩ | ⟨hrest, hk⟩
  · rw [hk, if_pos hbusy]
  · rw [hk, if_neg hrest]

/-- A command of the unit written to its `CTRL` is executed; for a `BUSY` unit the write is ignored, and
so is the command itself (42_host_commands.md R191, 30_encoding.md R113). -/
theorem hostMove_ctrl_of_command {u : UnitId} {v : Word} {i : Instr}
    (h : decodeCommand u v = .ok i) (s : State) :
    hostMove (.regWrite u ctrlOffset v) s = exec i s := by
  rw [hostMove, hostRegWrite]
  split
  next hbusy =>
    obtain ⟨mode, hexec⟩ := exec_of_decodeCommand h s
    rw [hexec, startUnlessBusy_eq, if_pos hbusy]
  next => rw [if_pos rfl, h]

/-- Settles O23: the command is a START in mode `BLOCK`, and its value at `DEC.CTRL` is 1. -/
theorem startBlockBeginsARun : Obligations.StartBlockBeginsARun :=
  fun s => ⟨startUnlessBusy_eq .dec .block s, hostMove_ctrl_of_command (u := .dec) rfl s⟩

/-- Settles O24: the command is a START in mode `SECTION`, and its value at `DEC.CTRL` is 2. -/
theorem startSectionBeginsARun : Obligations.StartSectionBeginsARun :=
  fun s => ⟨startUnlessBusy_eq .dec .sectioned s, hostMove_ctrl_of_command (u := .dec) rfl s⟩

/-- Settles O25: the encoder's one command is a START, and its value at `ENC.CTRL` is 1. -/
theorem encoderStartBeginsARun : Obligations.EncoderStartBeginsARun :=
  fun s => ⟨startUnlessBusy_eq .enc .block s, hostMove_ctrl_of_command (u := .enc) rfl s⟩

end Sys2Proof.Machine
end

section
/-! PROOF. Encoding and decoding invert each other (30_encoding.md R96 to R102, R108, R113). -/

namespace Sys2Proof

variable {sp : Split}

/-! Operations. -/

/-- The bytes of a field decode to the row of `REF` that belongs to the split, with the unpacked
operands (30_encoding.md R97, R100). -/
theorem decodeOperation_le16Bytes {field : Nat} (h : field < 2 ^ 16) (sp : Split) (rest : List Byte) :
    decodeOperation sp true (le16Bytes field ++ rest) =
      .ok (refInstr sp (unpackOffset sp.lengthBits field) (unpackLength sp.lengthBits field), rest) := by
  simp only [le16Bytes, List.cons_append, List.nil_append, decodeOperation, Machine.le16_toByte h]

/-- Every row of `REF` is encoded alike (30_encoding.md R97). -/
theorem encode_refInstr (sp : Split) (offset length : Nat) :
    encode sp (refInstr sp offset length) = encodeRef sp offset length := by
  unfold refInstr
  split_ifs <;> rfl

/-- The row that a valid split selects is well-formed where the operands are in the domain of `Pack`. -/
theorem refInstr_wellFormed {offset length : Nat} (hv : sp.valid = true)
    (ha : sp.admits offset length = true) : (refInstr sp offset length).wellFormed sp = true := by
  unfold refInstr
  split_ifs with h11 h13
  · rw [Instr.wellFormed, decide_eq_true h11, Bool.true_and, ha]
  · rw [Instr.wellFormed, decide_eq_true h13, Bool.true_and, ha]
  · simp [Instr.wellFormed, Split.isPreset, hv, ha, h11, h13]

/-- The encoding of a back-reference decodes to the row that the split selects, whatever follows. -/
theorem decodeOperation_encodeRef {offset length : Nat} (hv : sp.valid = true)
    (ha : sp.admits offset length = true) (rest : List Byte) :
    decodeOperation sp true (le16Bytes (packField sp.lengthBits offset length) ++ rest) =
      .ok (refInstr sp offset length, rest) := by
  obtain ⟨ho, -, hl, hl'⟩ := Split.admits_iff.mp ha
  obtain ⟨hoff, hlen⟩ := unpack_packField ho hl hl'
  rw [decodeOperation_le16Bytes (packField_lt hv ha), hoff, hlen]

/-- A well-formed instruction is a literal, the row of `REF` that belongs to the split with operands in
the domain of `Pack`, or a command (30_encoding.md R111, R113). -/
theorem Instr.wellFormed_cases {i : Instr} (h : i.wellFormed sp = true) :
    (∃ v, i = .lit v)
    ∨ (∃ offset length, i = refInstr sp offset length ∧ sp.valid = true
        ∧ sp.admits offset length = true)
    ∨ ∃ u v, encode sp i = .command u v := by
  cases i with
  | lit v => exact .inl ⟨v, rfl⟩
  | ref offset length =>
    simp only [Instr.wellFormed, Split.isPreset, Bool.and_eq_true, Bool.not_eq_true',
      decide_eq_false_iff_not, not_or] at h
    obtain ⟨⟨hv, h11, h13⟩, ha⟩ := h
    exact .inr (.inl ⟨offset, length, by rw [refInstr, if_neg h11, if_neg h13], hv, ha⟩)
  | refV11_5 offset length =>
    simp only [Instr.wellFormed, Bool.and_eq_true, decide_eq_true_eq] at h
    obtain ⟨rfl, ha⟩ := h
    exact .inr (.inl ⟨offset, length, rfl, rfl, ha⟩)
  | refV13_3 offset length =>
    simp only [Instr.wellFormed, Bool.and_eq_true, decide_eq_true_eq] at h
    obtain ⟨rfl, ha⟩ := h
    exact .inr (.inl ⟨offset, length, rfl, rfl, ha⟩)
  | decStartBlock | decStartSection | encStart => exact .inr (.inr ⟨_, _, rfl⟩)

/-- A command's value decodes to the command (30_encoding.md R113). -/
theorem decode_encode_command {i : Instr} {u : UnitId} {v : Word}
    (h : encode sp i = .command u v) : decode sp (encode sp i) = .ok (i, []) := by
  cases i with
  | lit | ref | refV11_5 | refV13_3 => cases h
  | decStartBlock | decStartSection | encStart => rfl

/-- Settles O2: a literal's byte and a command's value stand for themselves, and the field of a
back-reference unpacks to the operands that were packed. -/
theorem decodeInvertsEncode : Obligations.DecodeInvertsEncode := by
  intro sp i hwf
  rcases Instr.wellFormed_cases hwf with ⟨v, rfl⟩ | ⟨offset, length, rfl, hv, ha⟩ | ⟨u, v, hcmd⟩
  · refine ⟨rfl, fun ctrl bytes rest henc => ?_⟩
    cases henc
    rfl
  · rw [encode_refInstr]
    refine ⟨decodeOperation_encodeRef hv ha [], fun ctrl bytes rest henc => ?_⟩
    cases henc
    exact decodeOperation_encodeRef hv ha rest
  · refine ⟨decode_encode_command hcmd, fun ctrl bytes rest henc => ?_⟩
    rw [hcmd] at henc
    cases henc

/-! Entries. -/

/-- The bytes of the two-byte field are the entry itself (30_encoding.md R97). -/
theorem le16Bytes_le16 (b0 b1 : Byte) : le16Bytes (le16 b0 b1) = [b0, b1] := by
  have h0 : toByte (le16 b0 b1) = b0 := by
    apply BitVec.eq_of_toNat_eq
    simp only [toByte, BitVec.toNat_ofNat, le16]
    have := b0.isLt
    omega
  have h1 : toByte (le16 b0 b1 / 256) = b1 := by
    apply BitVec.eq_of_toNat_eq
    simp only [toByte, BitVec.toNat_ofNat, le16]
    have := b0.isLt
    have := b1.isLt
    omega
  rw [le16Bytes, h0, h1]

/-- An entry of two bytes is the encoding of the back-reference it decodes to. -/
theorem encode_unpacked (sp : Split) (b0 b1 : Byte) :
    encode sp (refInstr sp (unpackOffset sp.lengthBits (le16 b0 b1))
      (unpackLength sp.lengthBits (le16 b0 b1))) = .operation true [b0, b1] := by
  rw [encode_refInstr, encodeRef, packField_unpack, le16Bytes_le16]

/-- Settles O3: a byte is the literal's own, a field of 16 bits is that of the pair it unpacks to, and
`decodeOperation` looks at no byte past the entry. -/
theorem everyEntryIsAnInstruction : Obligations.EveryEntryIsAnInstruction := by
  intro sp ctrl bytes hv
  cases ctrl with
  | false =>
    match bytes with
    | [] => rfl
    | [v] => exact ⟨.lit v, rfl, rfl, rfl⟩
    | v :: b :: rest =>
      rw [if_neg (by simp [entryLength]), if_neg (by simp [entryLength])]
      exact ⟨.lit v, rfl⟩
  | true =>
    match bytes with
    | [] | [_] => rfl
    | [b0, b1] =>
      exact ⟨_, refInstr_wellFormed hv (admits_unpack hv (Machine.le16_lt b0 b1)), rfl,
        encode_unpacked sp b0 b1⟩
    | b0 :: b1 :: b2 :: rest =>
      rw [if_neg (by simp [entryLength]), if_neg (by simp [entryLength])]
      exact ⟨_, rfl⟩

/-- Settles O1: each word is a closed term, and `decode` computes. -/
theorem writtenOutWordsDecode : Obligations.WrittenOutWordsDecode := by
  unfold Obligations.WrittenOutWordsDecode
  decide

end Sys2Proof
end

section
/-! PROOF. The registers: their words, and what a host read or write of one does
(10_state.md R23, R30 to R33, R42 to R45; 42_host_commands.md R191, R192). -/

namespace Sys2Proof.Machine

variable {s : State}

/-! The words of `STATUS` and `CFG`. -/

theorem runStateCode_lt (r : RunState) : runStateCode r < 4 := by
  cases r <;> decide

theorem errorCode_lt (e : Option ErrorKind) : errorCode e < 8 := by
  rcases e with _ | k
  · decide
  · cases k <;> decide

/-- A bit of a word given as a natural. -/
theorem getLsbD_toWord {n i : Nat} (h : n < 2 ^ 32) : (toWord n).getLsbD i = n.testBit i := by
  rw [BitVec.getLsbD, toNat_toWord h]

/-- A field of a word given as a natural. -/
theorem toNat_extractLsb'_toWord {n : Nat} (start len : Nat) (h : n < 2 ^ 32) :
    ((toWord n).extractLsb' start len).toNat = n / 2 ^ start % 2 ^ len := by
  rw [BitVec.extractLsb'_toNat, toNat_toWord h, Nat.shiftRight_eq_div_pow]

/-- The fields of a word laid out as `STATUS` is: 2 bits at 0, 3 bits at 4, 1 bit at 8. -/
theorem toWord_status_fields {a b : Nat} (c : Bool) (ha : a < 4) (hb : b < 8) :
    let w := toWord (a + 2 ^ 4 * b + if c then 2 ^ 8 else 0)
    (w.extractLsb' 0 2).toNat = a ∧ (w.extractLsb' 4 3).toNat = b ∧ w.getLsbD 8 = c
      ∧ ∀ i, i = 2 ∨ i = 3 ∨ i = 7 ∨ 9 ≤ i → w.getLsbD i = false := by
  have hlt : (a + 2 ^ 4 * b + if c then 2 ^ 8 else 0) < 2 ^ 9 := by split <;> omega
  have h32 : (a + 2 ^ 4 * b + if c then 2 ^ 8 else 0) < 2 ^ 32 := by omega
  dsimp only
  rw [toNat_extractLsb'_toWord 0 2 h32, toNat_extractLsb'_toWord 4 3 h32, getLsbD_toWord h32]
  refine ⟨by split <;> omega, by split <;> omega, ?_, fun i hi => ?_⟩
  · rw [Nat.testBit_eq_decide_div_mod_eq]
    cases c <;> simp <;> omega
  · rw [getLsbD_toWord h32]
    rcases hi with rfl | rfl | rfl | hi
    iterate 3
      rw [Nat.testBit_eq_decide_div_mod_eq, decide_eq_false_iff_not]
      split <;> omega
    exact Nat.testBit_lt_two_pow (lt_of_lt_of_le hlt (Nat.pow_le_pow_right Nat.two_pos hi))

/-- The fields of a word laid out as `CFG` is: two bytes and two single bits. -/
theorem toWord_cfg_fields (a b : BitVec 8) (p q : Bool) :
    let w := toWord (a.toNat + 2 ^ 8 * b.toNat + (if p then 2 ^ 16 else 0) + if q then 2 ^ 17 else 0)
    w.extractLsb' 0 8 = a ∧ w.extractLsb' 8 8 = b ∧ w.getLsbD 16 = p ∧ w.getLsbD 17 = q
      ∧ ∀ i, 18 ≤ i → w.getLsbD i = false := by
  have ha := a.isLt
  have hb := b.isLt
  have hlt : a.toNat + 2 ^ 8 * b.toNat + (if p then 2 ^ 16 else 0) + (if q then 2 ^ 17 else 0)
      < 2 ^ 18 := by split <;> split <;> omega
  have h32 := lt_trans hlt (by decide : 2 ^ 18 < 2 ^ 32)
  dsimp only
  refine ⟨BitVec.eq_of_toNat_eq ?_, BitVec.eq_of_toNat_eq ?_, ?_, ?_, fun i hi => ?_⟩
  · rw [toNat_extractLsb'_toWord 0 8 h32]
    split <;> split <;> omega
  · rw [toNat_extractLsb'_toWord 8 8 h32]
    split <;> split <;> omega
  · rw [getLsbD_toWord h32, Nat.testBit_eq_decide_div_mod_eq]
    cases p <;> cases q <;> simp <;> omega
  · rw [getLsbD_toWord h32, Nat.testBit_eq_decide_div_mod_eq]
    cases p <;> cases q <;> simp <;> omega
  · rw [getLsbD_toWord h32]
    exact Nat.testBit_lt_two_pow (lt_of_lt_of_le hlt (Nat.pow_le_pow_right Nat.two_pos hi))

/-- `DEC.CFG` with its fields as two bytes and two bits (10_state.md R33). -/
theorem DecCfg.toWord_eq (c : DecCfg) :
    c.toWord = Sys2Proof.toWord (c.offsetBits.toNat + 2 ^ 8 * c.lengthBits.toNat
      + (if decide (c.framing = .unprefixed) then 2 ^ 16 else 0)
      + if c.strict then 2 ^ 17 else 0) := by
  rw [DecCfg.toWord]
  cases c.framing <;> rfl

/-- `ENC.CFG` is laid out as `DEC.CFG` with the two single bits 0 (10_state.md R45). -/
theorem EncCfg.toWord_eq (c : EncCfg) :
    c.toWord = Sys2Proof.toWord (c.offsetBits.toNat + 2 ^ 8 * c.lengthBits.toNat
      + (if false then 2 ^ 16 else 0) + if false then 2 ^ 17 else 0) := rfl

theorem EncCfg.toWord_fields (c : EncCfg) :
    c.toWord.extractLsb' 0 8 = c.offsetBits ∧ c.toWord.extractLsb' 8 8 = c.lengthBits
      ∧ ∀ i, 16 ≤ i → c.toWord.getLsbD i = false := by
  obtain ⟨ha, hb, h16, h17, hrest⟩ := toWord_cfg_fields c.offsetBits c.lengthBits false false
  rw [EncCfg.toWord_eq]
  refine ⟨ha, hb, fun i hi => ?_⟩
  obtain rfl | rfl | hi : i = 16 ∨ i = 17 ∨ 18 ≤ i := by omega
  · exact h16
  · exact h17
  · exact hrest i hi

/-- Settles O29: both words are sums of fields that do not overlap. -/
theorem statusAndConfigurationWords : Obligations.StatusAndConfigurationWords := by
  refine ⟨⟨rfl, rfl, rfl, rfl⟩, ⟨rfl, rfl, rfl, rfl, rfl, rfl, rfl⟩, fun d => ?_, fun e => ?_⟩
  · obtain ⟨hstate, herr, hunder, hzero⟩ :=
      toWord_status_fields d.underfill (runStateCode_lt d.runState) (errorCode_lt d.err)
    rw [DecCfg.toWord_eq]
    exact ⟨hstate, herr, hunder, hzero, toWord_cfg_fields ..⟩
  · obtain ⟨hstate, herr, h8, hzero⟩ :=
      toWord_status_fields false (runStateCode_lt e.runState) (errorCode_lt e.err)
    refine ⟨hstate, herr, fun i hi => ?_, e.cfg.toWord_fields⟩
    by_cases hi8 : i = 8
    · subst hi8
      exact h8
    · exact hzero i (by omega)

/-! Register reads. -/

/-- Settles O28: the step is the read, and the two register maps are the model's. -/
theorem registerReadsReturnTheRegister : Obligations.RegisterReadsReturnTheRegister := by
  intro s u offset turns ha
  have hstep : step s = .next (s.popped.giveBack (s.popped.regRead u offset)) := step_of_turn ha
  rw [hstep]
  congr 2
  symm
  split
  case h_25 =>
    cases u with
    | dec => unfold State.regRead Dec.regRead; split <;> simp_all
    | enc => unfold State.regRead Enc.regRead; split <;> simp_all
  all_goals rfl

/-! Register writes. -/

/-- A single bit of a word as its place in the sum. -/
theorem bit_mul_eq (v : Word) (i : Nat) :
    (if v.getLsbD i then 2 ^ i else 0) = 2 ^ i * (v.toNat / 2 ^ i % 2) := by
  rw [BitVec.getLsbD, Nat.testBit_eq_decide_div_mod_eq]
  rcases Nat.mod_two_eq_zero_or_one (v.toNat / 2 ^ i) with h | h <;> simp [h]

/-- A word with the bits from `n` on cleared. -/
theorem toNat_and_mask (v : Word) {n : Nat} {mask : Word} (hm : mask.toNat = 2 ^ n - 1) :
    (v &&& mask).toNat = v.toNat % 2 ^ n := by
  rw [BitVec.toNat_and, hm, Nat.and_two_pow_sub_one_eq_mod]

/-- `DEC.CFG` reads back the bits that hold something, and 0 in the reserved ones (10_state.md R33). -/
theorem DecCfg.toWord_ofWord (v : Word) : (DecCfg.ofWord v).toWord = v &&& 0x0003FFFF#32 := by
  have hframing : decide ((DecCfg.ofWord v).framing = .unprefixed) = v.getLsbD 16 := by
    unfold DecCfg.ofWord
    cases v.getLsbD 16 <;> rfl
  apply BitVec.eq_of_toNat_eq
  rw [DecCfg.toWord_eq, hframing, toNat_and_mask v (n := 18) rfl, bit_mul_eq,
    show (DecCfg.ofWord v).strict = v.getLsbD 17 from rfl, bit_mul_eq]
  simp only [DecCfg.ofWord, BitVec.extractLsb'_toNat, Nat.shiftRight_eq_div_pow]
  rw [toNat_toWord (by omega)]
  omega

/-- `ENC.CFG` reads back the two bytes that hold something (10_state.md R45). -/
theorem EncCfg.toWord_ofWord (v : Word) : (EncCfg.ofWord v).toWord = v &&& 0x0000FFFF#32 := by
  apply BitVec.eq_of_toNat_eq
  rw [EncCfg.toWord_eq, toNat_and_mask v (n := 16) rfl]
  simp only [EncCfg.ofWord, BitVec.extractLsb'_toNat, Nat.shiftRight_eq_div_pow]
  rw [toNat_toWord (by simp; omega)]
  simp
  omega

/-- Every bit of a full register holds something. -/
theorem and_full_mask (v : Word) : v &&& 0xFFFFFFFF#32 = v :=
  BitVec.and_allOnes

/-- What a register of `DEC` reads as after a write: the bits that hold something, at an offset that is
writable, and as before elsewhere (42_host_commands.md R191). -/
theorem Dec.regRead_regWrite (d : Dec) (v : Word) (offset o : Nat) :
    (d.regWrite v offset).regRead o =
      if o = offset ∧ offset ∈ rwOffsets .dec then v &&& fieldMask .dec offset else d.regRead o := by
  unfold Dec.regWrite
  split
  case h_10 => rw [if_neg]; simp_all [rwOffsets]
  all_goals
    unfold Dec.regRead
    split <;> simp_all [rwOffsets, fieldMask, DecCfg.toWord_ofWord, and_full_mask, Dec.status]

/-- What a register of `ENC` reads as after a write (42_host_commands.md R191). -/
theorem Enc.regRead_regWrite (e : Enc) (v : Word) (offset o : Nat) :
    (e.regWrite v offset).regRead o =
      if o = offset ∧ offset ∈ rwOffsets .enc then v &&& fieldMask .enc offset else e.regRead o := by
  unfold Enc.regWrite
  split
  case h_5 => rw [if_neg]; simp_all [rwOffsets]
  all_goals
    unfold Enc.regRead
    split <;> simp_all [rwOffsets, fieldMask, EncCfg.toWord_ofWord, and_full_mask, Enc.status]

/-- A write changes registers of `DEC` only, and only those the host may write (10_state.md R30). -/
theorem Dec.regWrite_eq (d : Dec) (v : Word) (offset : Nat) :
    d.regWrite v offset =
      { d with
        cfg := (d.regWrite v offset).cfg, window := (d.regWrite v offset).window
        srcLen := (d.regWrite v offset).srcLen, uncompSize := (d.regWrite v offset).uncompSize
        opCount := (d.regWrite v offset).opCount, bmBase := (d.regWrite v offset).bmBase
        bmLen := (d.regWrite v offset).bmLen, fsBase := (d.regWrite v offset).fsBase
        fsLen := (d.regWrite v offset).fsLen } := by
  unfold Dec.regWrite
  split <;> rfl

/-- A write changes registers of `ENC` only, and only those the host may write (10_state.md R42). -/
theorem Enc.regWrite_eq (e : Enc) (v : Word) (offset : Nat) :
    e.regWrite v offset =
      { e with
        cfg := (e.regWrite v offset).cfg, window := (e.regWrite v offset).window
        minMatch := (e.regWrite v offset).minMatch, inLen := (e.regWrite v offset).inLen } := by
  unfold Enc.regWrite
  split <;> rfl

@[simp] theorem Dec.regWrite_dsrc (d : Dec) (v : Word) (o : Nat) : (d.regWrite v o).dsrc = d.dsrc := by
  rw [Dec.regWrite_eq]

@[simp] theorem Dec.regWrite_dout (d : Dec) (v : Word) (o : Nat) : (d.regWrite v o).dout = d.dout := by
  rw [Dec.regWrite_eq]

@[simp] theorem Enc.regWrite_esrc (e : Enc) (v : Word) (o : Nat) : (e.regWrite v o).esrc = e.esrc := by
  rw [Enc.regWrite_eq]

@[simp] theorem Enc.regWrite_ebm (e : Enc) (v : Word) (o : Nat) : (e.regWrite v o).ebm = e.ebm := by
  rw [Enc.regWrite_eq]

@[simp] theorem Enc.regWrite_efs (e : Enc) (v : Word) (o : Nat) : (e.regWrite v o).efs = e.efs := by
  rw [Enc.regWrite_eq]

/-- Registers are no memory. -/
@[simp] theorem State.mem_regWrite (s : State) (u : UnitId) (o : Nat) (v : Word) (sp : Space) :
    (s.regWrite u o v).mem sp = s.mem sp := by
  cases u <;> cases sp <;> simp [State.regWrite]

@[simp] theorem State.regWrite_plat (s : State) (u : UnitId) (o : Nat) (v : Word) :
    (s.regWrite u o v).plat = s.plat := by cases u <;> rfl

@[simp] theorem State.regWrite_epoch (s : State) (u : UnitId) (o : Nat) (v : Word) :
    (s.regWrite u o v).epoch = s.epoch := by cases u <;> rfl

/-- A register write to a `BUSY` unit is ignored (42_host_commands.md R191). -/
theorem hostRegWrite_of_busy {u : UnitId} (hb : s.runStateOf u = .busy) (o : Nat) (v : Word) :
    hostRegWrite u o v s = .next s :=
  if_pos hb

/-- A register write at an offset other than that of `CTRL`. -/
theorem hostRegWrite_of_ne_ctrl {u : UnitId} {o : Nat} (hb : s.runStateOf u ≠ .busy)
    (ho : o ≠ ctrlOffset) (v : Word) : hostRegWrite u o v s = .next (s.regWrite u o v) :=
  (if_neg hb).trans (if_neg ho)

/-- Settles O27: the step is `hostRegWrite`, which changes one register of the map. -/
theorem registerWritesReadBackMasked : Obligations.RegisterWritesReadBackMasked := by
  intro s u offset v turns ha
  have hstep : step s = hostRegWrite u offset v s.popped := step_of_turn ha
  rw [hstep]
  refine ⟨fun hb => hostRegWrite_of_busy (s := s.popped) (by simpa using hb) offset v,
    fun hb _ h0 => ⟨_, hostRegWrite_of_ne_ctrl (s := s.popped) (by simpa using hb) h0 v, ?_, ?_, ?_⟩⟩
  · exact fun sp x => (State.byteAt_congr (State.mem_regWrite ..) (State.regWrite_epoch ..) x).trans
      (State.popped_byteAt ..)
  · cases u with
    | dec => exact s.dec.regRead_regWrite v offset
    | enc => exact s.enc.regRead_regWrite v offset
  · cases u with
    | dec => exact ⟨⟨rfl, rfl, rfl, rfl, rfl⟩, s.dec.regWrite_eq v offset⟩
    | enc => exact ⟨⟨rfl, rfl, rfl, rfl, rfl⟩, s.enc.regWrite_eq v offset⟩

/-! Commands. -/

/-- Settles O6: `hostRegWrite` at the offset of `CTRL`, for each answer of the decoder. -/
theorem stepRunsDecodedCommand : Obligations.StepRunsDecodedCommand := by
  intro s u v turns ha
  have hstep : step s = hostMove (.regWrite u ctrlOffset v) s.popped := step_of_turn ha
  rw [hstep]
  refine ⟨fun hb => hostRegWrite_of_busy (s := s.popped) (by simpa using hb) _ v, fun _ =>
    ⟨fun sp i rest hdec => ?_, fun sp r hdec => ?_⟩⟩ <;>
    rw [decode] at hdec <;> cases hcmd : decodeCommand u v <;> rw [hcmd] at hdec <;> cases hdec
  · exact hostMove_ctrl_of_command hcmd _
  · exact hostMove_ctrl_of_reserved hcmd _

end Sys2Proof.Machine
end

section
/-! PROOF. The host's memory moves, and the reset event (42_host_commands.md R190; 10_state.md R57). -/

namespace Sys2Proof.Machine

variable {s t : State}

/-! Memory moves. -/

/-- A memory move, of either kind, on a space of a `BUSY` unit (70_reset_and_hazards.md R256). -/
theorem hostMove_mem_of_busy {m : HostMove} {sp : Space} {a : Nat} {v : Byte}
    (hm : m = .memRead sp a ∨ m = .memWrite sp a v) (hb : s.runStateOf (spaceOwner sp) = .busy) :
    hostMove m s = .refused (.hostMoveOnBusySpace sp) := by
  rcases hm with rfl | rfl <;> exact if_pos hb

/-- A memory move of the host, of either kind, at an address that is not backed. -/
theorem hostMove_mem_of_unbacked {m : HostMove} {sp : Space} {a : Nat} {v : Byte}
    (hm : m = .memRead sp a ∨ m = .memWrite sp a v) (hr : s.runStateOf (spaceOwner sp) ≠ .busy)
    (hb : s.backed sp a = false) : hostMove m s = .fault (.unbackedAddress sp a) := by
  rcases hm with rfl | rfl <;> rw [hostMove, if_neg hr]
  · rw [load, hb]; rfl
  · rw [store, hb]; rfl

theorem hostMove_memRead_of_backed {sp : Space} {a : Nat}
    (hr : s.runStateOf (spaceOwner sp) ≠ .busy) (hb : s.backed sp a = true) :
    hostMove (.memRead sp a) s = .next (s.giveBack ((s.byteAt sp a).setWidth 32)) := by
  rw [hostMove, if_neg hr, load_of_backed hb]

theorem hostMove_memWrite_of_backed {sp : Space} {a : Nat} (v : Byte)
    (hr : s.runStateOf (spaceOwner sp) ≠ .busy) (hb : s.backed sp a = true) :
    hostMove (.memWrite sp a v) s = .next (s.setMem sp ((s.mem sp).write a v)) := by
  rw [hostMove, if_neg hr, store_of_backed hb]

/-- Another memory changes no register (10_state.md R53). -/
theorem State.setMem_eq (s : State) (sp : Space) (m : Memory) :
    s.setMem sp m = { s with
      dec := { s.dec with dsrc := (s.setMem sp m).dec.dsrc, dout := (s.setMem sp m).dec.dout }
      enc := { s.enc with
        esrc := (s.setMem sp m).enc.esrc, ebm := (s.setMem sp m).enc.ebm
        efs := (s.setMem sp m).enc.efs } } := by
  cases sp <;> rfl

/-- Settles O30: the four cases of a memory move. -/
theorem hostMemoryMoves : Obligations.HostMemoryMoves := by
  intro s sp a v m turns ha hm
  have hstep : step s = hostMove m s.popped := step_of_turn ha
  rw [hstep]
  split_ifs with hbusy hunbacked
  · exact hostMove_mem_of_busy hm (by simpa using hbusy)
  · exact hostMove_mem_of_unbacked hm (by simpa using hbusy) hunbacked
  · have hr : s.popped.runStateOf (spaceOwner sp) ≠ .busy := by simpa using hbusy
    have hb : s.popped.backed sp a = true := by simpa using hunbacked
    refine ⟨?_, ?_⟩
    · rintro rfl
      rw [hostMove_memRead_of_backed hr hb, State.popped_byteAt]
    · rintro rfl
      refine ⟨_, hostMove_memWrite_of_backed v hr hb, State.byteAt_setMem_same .., fun sp' x hx => ?_,
        State.setMem_eq ..⟩
      rw [State.byteAt_setMem_write, if_neg, State.popped_byteAt]
      rintro ⟨rfl, rfl⟩
      simp at hx

/-! Reset. -/

theorem Dec.regRead_resetWith (dsrc dout : Memory) (o : Nat) :
    (Dec.resetWith dsrc dout).regRead o =
      if o = 0x08 then 0x0000050B#32 else if o = 0x0C then 2048#32 else 0#32 := by
  unfold Dec.regRead
  split
  case h_15 => rw [if_neg (by assumption), if_neg (by assumption)]; rfl
  all_goals rfl

theorem Enc.regRead_resetWith (esrc ebm efs : Memory) (o : Nat) :
    (Enc.resetWith esrc ebm efs).regRead o =
      if o = 0x08 then 0x0000050B#32 else if o = 0x0C then 2048#32
      else if o = 0x10 then 3#32 else 0#32 := by
  unfold Enc.regRead
  split
  case h_11 => rw [if_neg (by assumption), if_neg (by assumption), if_neg (by assumption)]; rfl
  all_goals rfl

/-- Both units with the registers of the reset table, whatever their memories. -/
theorem State.registersReset_of_resetWith {dsrc dout esrc ebm efs : Memory}
    (hd : t.dec = Dec.resetWith dsrc dout) (he : t.enc = Enc.resetWith esrc ebm efs) :
    t.registersReset := by
  refine ⟨fun o => ?_, fun o => ?_, ?_⟩
  · rw [← Dec.regRead_resetWith dsrc dout, ← hd]
    rfl
  · rw [← Enc.regRead_resetWith esrc ebm efs, ← he]
    rfl
  · rw [hd, he]
    exact ⟨rfl, rfl, rfl, rfl, rfl, rfl, rfl, rfl, rfl, rfl, rfl, rfl, rfl, rfl⟩

theorem step_reset {turns : List Turn} (h : s.agenda = .reset :: turns) :
    step s = .next (resetEvent s.popped) :=
  step_of_turn h

/-- Settles O44: both units have the registers of the reset table. -/
theorem resetPutsEveryRegisterInItsResetState : Obligations.ResetPutsEveryRegisterInItsResetState :=
  ⟨State.registersReset_of_resetWith rfl rfl,
    fun _ _ ha => ⟨_, step_reset ha, State.registersReset_of_resetWith rfl rfl⟩⟩

theorem Enc.efsWritten_eq (e : Enc) : e.efsWritten = if e.running then e.fsLen.toNat else 0 := by
  simp only [Enc.efsWritten, Enc.emitting_iff]

theorem Enc.ebmWritten_eq (e : Enc) : e.ebmWritten = if e.running then e.opCount.toNat / 8 else 0 := by
  simp only [Enc.ebmWritten, Enc.emitting_iff]

/-- A byte survives below a limit that only a run in progress raises above 0. -/
theorem Memory.lookup_keepBelow_ite (m : Memory) (p : Prop) [Decidable p] (n x : Nat) :
    (m.keepBelow (if p then n else 0)).lookup x = if p ∧ x < n then m.lookup x else none := by
  rw [Memory.lookup_keepBelow]
  by_cases hp : p <;> simp [hp]

/-- Settles O56: the two source spaces are emptied, the others keep what the run had written. -/
theorem resetKeepsOnlyAnAbandonedRunsOutput : Obligations.ResetKeepsOnlyAnAbandonedRunsOutput := by
  refine ⟨fun sp x => by cases sp <;> rfl, fun s turns ha => ⟨_, step_reset ha, rfl, fun sp x => ?_⟩⟩
  cases sp with
  | dsrc | esrc => simp [Dec.resetWith, Enc.resetWith, Memory.lookup]
  | dout =>
    have hk := Memory.lookup_keepBelow_ite s.dec.dout s.dec.running s.dec.uncompSize.toNat x
    rw [← Dec.doutWritten_eq] at hk
    simpa [Dec.resetWith] using hk
  | efs =>
    have hk := Memory.lookup_keepBelow_ite s.enc.efs s.enc.running s.enc.fsLen.toNat x
    rw [← Enc.efsWritten_eq] at hk
    simpa [Enc.resetWith] using hk
  | ebm =>
    have hk := Memory.lookup_keepBelow_ite s.enc.ebm s.enc.running (s.enc.opCount.toNat / 8) x
    rw [← Enc.ebmWritten_eq] at hk
    simpa [Enc.resetWith] using hk

end Sys2Proof.Machine
end

section
/-! PROOF. The operations as instructions, and the units at rest (41_decoder.md R156, R157;
00_scope.md R17). -/

namespace Sys2Proof.Machine

variable {s : State}

/-- Settles O33. -/
theorem unitAtRestDoesNothing : Obligations.UnitAtRestDoesNothing := by
  refine fun s => ⟨decTurn_of_rest, encTurn_of_rest, fun hd he ha => ?_⟩
  rcases step_cases s with ⟨_, _, hturn, -⟩ | ⟨-, hb, -⟩ | ⟨-, -, hstep⟩
  · rw [ha] at hturn
    cases hturn
  · exact absurd hb hd
  · rw [hstep, encTurn_of_rest he]

/-- The turn of a decoder in the phase that step `OP` leaves for a control bit. -/
theorem decTurn_of_ctrl {ctrl : Bool} (hb : s.dec.runState = .busy)
    (hp : s.dec.phase = if ctrl then .ref else .lit) : decTurn s = runOperation ctrl s := by
  cases ctrl with
  | false => exact decTurn_lit hb hp
  | true => exact decTurn_ref hb hp

/-- Settles O5: the turn is `runOperation`, which runs what the entry decodes to. -/
theorem stepRunsDecodedOperation : Obligations.StepRunsDecodedOperation := by
  intro s ctrl i rest hmoves hphase hentry hbacked hdecode
  rw [step_of_decMoves hmoves, decTurn_of_ctrl (s := s.popped) hmoves.1 hphase]
  exact runOperation_of_entry (s := s.popped) (Nat.not_lt.mpr hentry) hbacked hdecode

/-- Settles O7, by what `execLit` answers where the entry is there and the output backed. -/
theorem litCompletes : Obligations.LitCompletes := by
  intro v s hentry hbacked
  have hbyte := State.byteAt_withOutput (s := s) (d := s.dec.afterLit) rfl v
  refine ⟨_, execLit_of_backed (by omega) hbacked, ⟨rfl, rfl, rfl, rfl, rfl⟩, rfl,
    (hbyte _ _).trans (if_pos ⟨rfl, rfl⟩), fun sp x hx => ?_⟩
  rw [hbyte, if_neg]
  rintro ⟨rfl, rfl⟩
  simp at hx

/-- The three rows of `REF` begin the copy (41_decoder.md R157). -/
theorem exec_ref {offset length : Nat} {i : Instr}
    (h : i = .ref offset length ∨ i = .refV11_5 offset length ∨ i = .refV13_3 offset length)
    (s : State) : exec i s = beginCopy offset length s := by
  rcases h with rfl | rfl | rfl <;> rfl

/-- Settles O8: every row begins the copy. -/
theorem refCompletes : Obligations.RefCompletes := by
  intro offset length i s hi hentry
  rw [exec_ref hi]
  exact beginCopy_of_entry (Nat.not_lt.mpr hentry)

/-- Settles O9: `LIT` and every row of `REF` check for their entry first. -/
theorem operationWithoutEntryTakesTruncatedStream :
    Obligations.OperationWithoutEntryTakesTruncatedStream := by
  rintro v offset length i s (⟨rfl, hmissing⟩ | ⟨hi, hmissing⟩)
  · exact if_pos ((s.dec.entryMissing_iff 1).mpr (Nat.lt_succ_of_le hmissing))
  · rw [exec_ref hi]
    exact if_pos ((s.dec.entryMissing_iff 2).mpr hmissing)

end Sys2Proof.Machine
end

section
/-! PROOF. The decoder's step `BEGIN`: the checks, the section parse, the zero-fill
(42_host_commands.md R195, R196). -/

namespace Sys2Proof.Machine

variable {s : State}

/-! The first two checks. -/

theorem Dec.cfgValid_iff (d : Dec) :
    cfgValid d.split d.window.toNat = true ↔
      d.cfg.offsetBits.toNat + d.cfg.lengthBits.toNat = 16
        ∧ d.window.toNat ≤ 2 ^ d.cfg.offsetBits.toNat :=
  decide_eq_true_iff

theorem decBegin_of_configMismatch (h : cfgValid s.dec.split s.dec.window.toNat ≠ true) :
    decBegin s = .next (s.setDec (s.dec.failed .configMismatch 0)) :=
  if_pos (by simpa using h)

theorem decBegin_of_extentMissing (hcfg : cfgValid s.dec.split s.dec.window.toNat = true)
    (h : s.plat.dsrcCap < s.dec.srcLen.toNat) :
    decBegin s = .next (s.setDec (s.dec.failed .capacity 0)) :=
  (if_neg (by simpa using hcfg)).trans (if_pos h)

theorem State.beginPasses_iff (s : State) :
    s.beginPasses ↔
      cfgValid s.dec.split s.dec.window.toNat = true ∧ s.dec.srcLen.toNat ≤ s.plat.dsrcCap := by
  rw [Dec.cfgValid_iff, and_assoc]

/-- Past the first two checks the step does what the mode says. -/
theorem decBegin_of_beginPasses (h : s.beginPasses) :
    decBegin s = match s.dec.mode with
      | .sectioned => parseSection s openOutput
      | .block => checkWindows s openOutput := by
  obtain ⟨hcfg, hcap⟩ := s.beginPasses_iff.mp h
  exact (if_neg (by simpa using hcfg)).trans (if_neg (Nat.not_lt.mpr hcap))

/-- Settles O16: the two checks come first, in this order. -/
theorem beginChecksConfigurationThenExtent : Obligations.BeginChecksConfigurationThenExtent := by
  intro s hmoves hphase hfails
  have hturn := decTurn_begin (s := s.popped) hmoves.1 hphase
  split_ifs with hcfg
  · have hvalid := s.dec.cfgValid_iff.mpr hcfg
    have hcap : s.plat.dsrcCap < s.dec.srcLen.toNat :=
      Nat.lt_of_not_le fun hcap => hfails (s.beginPasses_iff.mpr ⟨hvalid, hcap⟩)
    exact step_of_decTurn_setDec hmoves (hturn.trans (decBegin_of_extentMissing hvalid hcap))
  · exact step_of_decTurn_setDec hmoves
      (hturn.trans (decBegin_of_configMismatch (mt s.dec.cfgValid_iff.mp hcfg)))

/-! The output is opened. -/

/-- The unit with the output cleared, on to `OP` (42_host_commands.md R195, lines 5 and 6). -/
def Dec.outputCleared (d : Dec) : Dec :=
  { d with dout := d.dout.zeroFill d.uncompSize.toNat, phase := .op }

/-- The unit after lines 4 to 6 of step `BEGIN` on a platform that backs `cap` bytes of `DOUT`. -/
def Dec.opened (d : Dec) (cap : Nat) : Dec :=
  if cap < d.uncompSize.toNat then d.failed .capacity 0 else d.outputCleared

theorem openOutput_setDec (s : State) (d : Dec) :
    openOutput (s.setDec d) = .next (s.setDec (d.opened s.plat.doutCap)) := by
  rcases openOutput_cases (s.setDec d) with ⟨hcap, hk⟩ | ⟨hcap, hk⟩ <;> rw [hk, Dec.opened]
  · rw [if_pos (by simpa using hcap)]
    rfl
  · rw [if_neg (by simpa using hcap)]
    rfl

theorem Dec.opened_of_fits {d : Dec} {cap : Nat} (h : ¬ cap < d.uncompSize.toNat) :
    d.opened cap = d.outputCleared :=
  if_neg h

/-- The cleared output reads 0, every other byte as before. -/
theorem State.byteAt_outputCleared {d : Dec} (hsrc : d.dsrc = s.dec.dsrc) (hout : d.dout = s.dec.dout)
    (sp : Space) (x : Nat) :
    (s.setDec d.outputCleared).byteAt sp x =
      if sp = .dout ∧ x < d.uncompSize.toNat then 0 else s.byteAt sp x := by
  cases sp with
  | dout =>
    simp only [State.byteAt, State.mem_dout, State.setDec_dec, Dec.outputCleared, hout,
      Memory.lookup_zeroFill, true_and]
    split_ifs <;> rfl
  | dsrc =>
    rw [if_neg (by simp)]
    exact State.byteAt_congr (s := s) (t := s.setDec d.outputCleared) (sp := .dsrc) hsrc rfl x
  | esrc | ebm | efs => rfl

/-! A block. -/

/-- The unit after step `BEGIN` of a `START_BLOCK` run that passes the first two checks
(42_host_commands.md R195). -/
def State.blockBegun (s : State) : Dec :=
  if s.dec.srcLen.toNat < s.dec.bmBase.toNat + s.dec.bmLen.toNat then
    s.dec.failed .truncatedInput s.dec.bmBase.toNat
  else if s.dec.srcLen.toNat < s.dec.fsBase.toNat + s.dec.fsLen.toNat then
    s.dec.failed .truncatedInput s.dec.fsBase.toNat
  else s.dec.opened s.plat.doutCap

theorem decBegin_block (h : s.beginPasses) (hmode : s.dec.mode = .block) :
    decBegin s = .next (s.setDec s.blockBegun) := by
  rw [decBegin_of_beginPasses h, hmode, checkWindows, State.blockBegun]
  split_ifs
  · rfl
  · rfl
  · exact openOutput_setDec s s.dec

/-- Settles O17: the windows, the capacity, the zero-fill, in this order. -/
theorem blockBeginChecksWindowsAndClearsOutput :
    Obligations.BlockBeginChecksWindowsAndClearsOutput := by
  intro s hmoves hphase hmode hpasses
  have hturn := (decTurn_begin (s := s.popped) hmoves.1 hphase).trans
    (decBegin_block (s := s.popped) hpasses hmode)
  refine ⟨_, (step_of_decMoves hmoves).trans hturn, ⟨rfl, rfl, rfl, rfl, rfl⟩, ?_⟩
  split_ifs with hbm hfs hcap
  · exact if_pos hbm
  · exact (if_neg hbm).trans (if_pos hfs)
  · exact (if_neg hbm).trans ((if_neg hfs).trans (if_pos hcap))
  · have hbegun : s.popped.blockBegun = s.dec.outputCleared :=
      (if_neg hbm).trans ((if_neg hfs).trans (if_neg hcap))
    rw [hbegun]
    refine ⟨rfl, fun sp x => ?_⟩
    rw [State.byteAt_outputCleared (s := s.popped) (d := s.dec) rfl rfl, State.popped_byteAt]

/-! A section. -/

/-- The registers with the header's two words (42_host_commands.md R196). -/
def State.sectionHeader (s : State) : Dec :=
  { s.dec with uncompSize := toWord (s.wordAt .dsrc 0), opCount := toWord (s.wordAt .dsrc 4) }

/-- The length of the section's bitmap (30_encoding.md R104). -/
def State.sectionBmLen (s : State) : Nat :=
  ceil8 (s.wordAt .dsrc 4)

/-- The registers with the header and the bitmap's window (42_host_commands.md R196). -/
def State.sectionBitmap (s : State) : Dec :=
  { s.sectionHeader with bmBase := 8, bmLen := toWord s.sectionBmLen }

/-- The length of the field stream where a section says it (30_encoding.md R104). -/
def State.sectionFsLen (s : State) : Nat :=
  s.wordAt .dsrc (8 + s.sectionBmLen)

/-- The registers after a whole parse (42_host_commands.md R196). -/
def State.sectionParsed (s : State) : Dec :=
  if s.dec.cfg.framing = .prefixed then
    { s.sectionBitmap with fsBase := toWord (12 + s.sectionBmLen), fsLen := toWord s.sectionFsLen }
  else
    { s.sectionBitmap with
      fsBase := toWord (8 + s.sectionBmLen)
      fsLen := toWord (s.dec.srcLen.toNat - (8 + s.sectionBmLen)) }

/-- The parse of a backed extent: the bounds checks in their order, each with the registers written so
far (42_host_commands.md R196). -/
theorem parseSection_eq (hcap : s.dec.srcLen.toNat ≤ s.plat.dsrcCap) (k : State → Result) :
    parseSection s k =
      if s.dec.srcLen.toNat < 8 then .next (s.setDec (s.dec.failed .truncatedInput 0))
      else if s.dec.srcLen.toNat < 8 + s.sectionBmLen then
        .next (s.setDec (s.sectionHeader.failed .truncatedInput 8))
      else if s.dec.cfg.framing = .prefixed ∧ s.dec.srcLen.toNat < 12 + s.sectionBmLen then
        .next (s.setDec (s.sectionBitmap.failed .truncatedInput (8 + s.sectionBmLen)))
      else if s.dec.cfg.framing = .prefixed
          ∧ s.dec.srcLen.toNat < 12 + s.sectionBmLen + s.sectionFsLen then
        .next (s.setDec (s.sectionBitmap.failed .truncatedInput (12 + s.sectionBmLen)))
      else k (s.setDec s.sectionParsed) := by
  have backed {x : Nat} (hx : x < s.dec.srcLen.toNat) : s.backed .dsrc x = true :=
    State.backed_of_lt hx hcap (Nat.le_of_lt s.dec.srcLen.isLt)
  unfold parseSection
  by_cases h8 : s.dec.srcLen.toNat < 8
  · rw [if_pos h8, if_pos h8]
    rfl
  rw [if_neg h8, if_neg h8, load32_eq_wordAt (backed (by omega)),
    load32_eq_wordAt (backed (by omega))]
  dsimp only
  by_cases hbm : s.dec.srcLen.toNat < 8 + s.sectionBmLen
  · rw [if_pos hbm]
    exact if_pos hbm
  rw [if_neg hbm, show ceil8 (s.wordAt .dsrc 4) = s.sectionBmLen from rfl, if_neg hbm]
  cases hf : s.dec.cfg.framing with
  | prefixed =>
    simp only [State.setDec_dec, hf, true_and]
    by_cases hsize : s.dec.srcLen.toNat < 12 + s.sectionBmLen
    · rw [if_pos hsize, if_pos hsize]
      rfl
    rw [if_neg hsize, if_neg hsize, load32_setDec (by rfl), load32_setDec (by rfl),
      load32_eq_wordAt (backed (by omega)), State.sectionParsed, if_pos hf]
    rfl
  | unprefixed =>
    simp only [State.setDec_dec, hf, reduceCtorEq, false_and, if_false, State.sectionParsed]
    rfl

/-- The unit after step `BEGIN` of a `START_SECTION` run that passes the first two checks: the bounds
checks of the parse in their order, each with the registers written so far (42_host_commands.md R196). -/
def State.sectionBegun (s : State) : Dec :=
  if s.dec.srcLen.toNat < 8 then s.dec.failed .truncatedInput 0
  else if s.dec.srcLen.toNat < 8 + s.sectionBmLen then s.sectionHeader.failed .truncatedInput 8
  else if s.dec.cfg.framing = .prefixed ∧ s.dec.srcLen.toNat < 12 + s.sectionBmLen then
    s.sectionBitmap.failed .truncatedInput (8 + s.sectionBmLen)
  else if s.dec.cfg.framing = .prefixed
      ∧ s.dec.srcLen.toNat < 12 + s.sectionBmLen + s.sectionFsLen then
    s.sectionBitmap.failed .truncatedInput (12 + s.sectionBmLen)
  else s.sectionParsed.opened s.plat.doutCap

theorem decBegin_section (h : s.beginPasses) (hmode : s.dec.mode = .sectioned) :
    decBegin s = .next (s.setDec s.sectionBegun) := by
  rw [decBegin_of_beginPasses h, hmode]
  dsimp only
  rw [parseSection_eq (s.beginPasses_iff.mp h).2, openOutput_setDec, State.sectionBegun]
  split_ifs <;> rfl

theorem State.sectionParsed_dsrc (s : State) : s.sectionParsed.dsrc = s.dec.dsrc := by
  unfold State.sectionParsed; split <;> rfl

theorem State.sectionParsed_dout (s : State) : s.sectionParsed.dout = s.dec.dout := by
  unfold State.sectionParsed; split <;> rfl

theorem wordAt_lt (s : State) (sp : Space) (a : Nat) : s.wordAt sp a < 2 ^ 32 :=
  le32_lt ..

theorem State.sectionParsed_uncompSize (s : State) :
    s.sectionParsed.uncompSize.toNat = s.wordAt .dsrc 0 := by
  rw [← toNat_toWord (wordAt_lt s .dsrc 0)]
  unfold State.sectionParsed; split <;> rfl

/-- Settles O18: the parse raises at the first check that fails, and the output is opened after it. -/
theorem sectionBeginParsesTheHeader : Obligations.SectionBeginParsesTheHeader := by
  intro s hmoves hphase hmode hpasses len u n m size header bitmap whole
  have hturn := (decTurn_begin (s := s.popped) hmoves.1 hphase).trans
    (decBegin_section (s := s.popped) hpasses hmode)
  have hu : whole.uncompSize.toNat = u := s.sectionParsed_uncompSize
  refine ⟨_, (step_of_decMoves hmoves).trans hturn, ⟨rfl, rfl, rfl, rfl, rfl⟩, ?_⟩
  have hpopped : s.popped.sectionBegun = s.sectionBegun := rfl
  rw [hpopped]
  split_ifs with h8 hbm hsize hfs hcap
  · exact if_pos h8
  · exact (if_neg h8).trans (if_pos hbm)
  · exact (if_neg h8).trans ((if_neg hbm).trans (if_pos hsize))
  · exact (if_neg h8).trans ((if_neg hbm).trans ((if_neg hsize).trans (if_pos hfs)))
  all_goals
    have hbegun : s.sectionBegun = whole.opened s.plat.doutCap :=
      (if_neg h8).trans ((if_neg hbm).trans ((if_neg hsize).trans (if_neg hfs)))
    rw [hbegun]
  · exact if_pos (by rwa [hu])
  · rw [Dec.opened_of_fits (by rwa [hu])]
    refine ⟨rfl, fun sp x => ?_⟩
    rw [State.byteAt_outputCleared (s := s.popped) (d := whole) s.sectionParsed_dsrc
      s.sectionParsed_dout, hu, State.popped_byteAt]

end Sys2Proof.Machine
end

section
/-! PROOF. The decoder's step `OP` with an operation to start (41_decoder.md R155). -/

namespace Sys2Proof.Machine

variable {s : State}

/-- The registers after a control bit is taken out of a byte (41_decoder.md R155). -/
def Dec.fetched (d : Dec) (sr : Byte) : Dec :=
  { d with ctrlSr := sr >>> 1, phase := if ctrlBit sr 0 then .ref else .lit }

/-- A new bitmap byte is needed, and the bitmap has ended (41_decoder.md R155). -/
abbrev Dec.bitmapMissing (d : Dec) : Prop :=
  d.opIdx.toNat % 8 = 0 ∧ d.bmLen.toNat ≤ d.opIdx.toNat / 8

/-- The bitmap byte of the operation at `OP_IDX` (41_decoder.md R155). -/
def State.bitmapByte (s : State) : Byte :=
  s.byteAt .dsrc (s.dec.bmBase.toNat + s.dec.opIdx.toNat / 8)

/-- What `CTRL_SR` holds when the control bit is taken: the byte just loaded, or what is left of it. -/
def State.shiftedByte (s : State) : Byte :=
  if s.dec.opIdx.toNat % 8 = 0 then s.bitmapByte else s.dec.ctrlSr

theorem decOp_of_bitmapMissing (h : ¬ s.dec.runOver) (hm : s.dec.bitmapMissing) :
    decOp s = .next (s.setDec
      (s.dec.failed .truncatedStream (s.dec.bmBase.toNat + s.dec.opIdx.toNat / 8))) :=
  (if_neg h).trans ((if_pos hm.1).trans (if_pos hm.2))

theorem decOp_of_fetch (h : ¬ s.dec.runOver) (hm : ¬ s.dec.bitmapMissing)
    (hb : s.dec.opIdx.toNat % 8 = 0 →
      s.backed .dsrc (s.dec.bmBase.toNat + s.dec.opIdx.toNat / 8) = true) :
    decOp s = .next (s.setDec (s.dec.fetched s.shiftedByte)) := by
  refine (if_neg h).trans ?_
  rw [State.shiftedByte]
  by_cases h8 : s.dec.opIdx.toNat % 8 = 0
  · rw [if_pos h8, if_pos h8]
    exact (if_neg fun hle => hm ⟨h8, hle⟩).trans (load_of_backed (hb h8) _)
  · rw [if_neg h8, if_neg h8]
    rfl

/-- Taking a bit out of a byte that has been shifted. -/
theorem Dec.fetched_shift (d : Dec) (b : Byte) (k : Nat) :
    d.fetched (b >>> k) =
      { d with ctrlSr := b >>> (k + 1), phase := if b.getLsbD k then .ref else .lit } := by
  simp only [Dec.fetched, ctrlBit, BitVec.getLsbD_ushiftRight, BitVec.shiftRight_add, Nat.zero_mod,
    Nat.add_zero]

/-- In a state of the invariant `CTRL_SR` and a byte just loaded are the bitmap byte less the bits
used (10_state.md R54). -/
theorem shiftedByte_of_inv (hinv : s.Inv) (hphase : s.dec.phase = .op) :
    s.shiftedByte = s.bitmapByte >>> (s.dec.opIdx.toNat % 8) := by
  rw [State.shiftedByte]
  split
  case isTrue h8 => rw [h8, BitVec.ushiftRight_zero]
  case isFalse h8 =>
    obtain ⟨-, -, -, hctrl, -⟩ := hinv.dec_running (.inl hphase)
    obtain ⟨-, hsr⟩ := hctrl fun h => h8 h.2
    rw [hsr, Dec.bitsUsed, if_pos hphase]
    rfl

/-- Where the bitmap has not ended, the byte of the operation at `OP_IDX` is in it. -/
theorem bitmap_has_byte (hinv : s.Inv) (hphase : s.dec.phase = .op) (hm : ¬ s.dec.bitmapMissing) :
    s.dec.opIdx.toNat / 8 < s.dec.bmLen.toNat := by
  by_cases h8 : s.dec.opIdx.toNat % 8 = 0
  · exact Nat.lt_of_not_le fun hle => hm ⟨h8, hle⟩
  · obtain ⟨-, -, -, hctrl, -⟩ := hinv.dec_running (.inl hphase)
    exact (hctrl fun h => h8 h.2).1

/-- The bitmap lies inside the extent, so its bytes are backed (42_host_commands.md R195). -/
theorem backed_bitmap_of_inv (hinv : s.Inv) (hr : s.dec.running) {a : Nat}
    (ha : a < s.dec.bmLen.toNat) : s.backed .dsrc (s.dec.bmBase.toNat + a) = true := by
  obtain ⟨⟨-, hcap, -, hbm, -⟩, -⟩ := hinv.dec_running hr
  exact State.backed_of_lt (by omega) hcap (Nat.le_of_lt s.dec.srcLen.isLt)

theorem decOp_of_inv (hinv : s.Inv) (hphase : s.dec.phase = .op) (h : ¬ s.dec.runOver)
    (hm : ¬ s.dec.bitmapMissing) : decOp s = .next (s.setDec (s.dec.fetched s.shiftedByte)) :=
  decOp_of_fetch h hm fun _ =>
    backed_bitmap_of_inv hinv (.inl hphase) (bitmap_has_byte hinv hphase hm)

/-- Settles O14: the control bit is taken out of the bitmap byte, whether it has just been loaded or is
what is left of it in `CTRL_SR`. -/
theorem opStepFetchesTheControlBit : Obligations.OpStepFetchesTheControlBit := by
  intro s hinv hmoves hphase hidx hout i b
  have hturn := decTurn_op (s := s.popped) hmoves.1 hphase
  have hover : ¬ s.dec.runOver := by
    rintro (h | h)
    · exact hidx h
    · omega
  by_cases hmissing : s.dec.bitmapMissing
  · simp only [i, if_pos hmissing]
    exact step_of_decTurn_setDec hmoves
      (hturn.trans (decOp_of_bitmapMissing (s := s.popped) hover hmissing))
  · simp only [i, if_neg hmissing]
    obtain ⟨t, hstep, honly, hdec⟩ := step_of_decTurn_setDec hmoves
      (hturn.trans (decOp_of_inv (State.Inv_popped hinv) hphase hover hmissing))
    refine ⟨t, hstep, honly, bitmap_has_byte hinv hphase hmissing, ?_⟩
    have hb : s.popped.bitmapByte = b := State.popped_byteAt ..
    rw [hdec, shiftedByte_of_inv (State.Inv_popped hinv) hphase, hb, Dec.fetched_shift]
    rfl

end Sys2Proof.Machine
end

section
/-! PROOF. Everything a decoder step can do, and what it leaves unchanged (41_decoder.md R154 to R160;
42_host_commands.md R195, R196; 60_exceptions.md R228). -/

namespace Sys2Proof.Machine

variable {s t : State}

/-! The list. -/

/-- The two units differ at most in the registers of the block descriptor. -/
def Dec.SameButBlock (d d' : Dec) : Prop :=
  ∃ uncompSize opCount bmBase bmLen fsBase fsLen : Word, d' = { d with
    uncompSize := uncompSize, opCount := opCount, bmBase := bmBase, bmLen := bmLen
    fsBase := fsBase, fsLen := fsLen }

/-- The unit whose block descriptor step `BEGIN` has: the one that was there, or, in a `START_SECTION`
run, what the parse has written (42_host_commands.md R195, R196). -/
def Dec.DescribedBy (d d' : Dec) : Prop :=
  d' = d ∨ (d.mode = .sectioned ∧ d.SameButBlock d')

/-- The units that a step of a `BUSY` decoder can leave. -/
inductive DecStep (s : State) : Dec → Prop
  /-- `BEGIN` raises. -/
  | beginFails {d : Dec} {kind : ErrorKind} {p : Nat} (hphase : s.dec.phase = .begin_)
    (hd : s.dec.DescribedBy d) : DecStep s (d.failed kind p)
  /-- `BEGIN` raises nothing. -/
  | begins {d : Dec} (hphase : s.dec.phase = .begin_) (hd : s.dec.DescribedBy d)
    (hext : (s.setDec d).decExtentsOk) : DecStep s d.outputCleared
  /-- `OP` at the end of the run. -/
  | finish (hphase : s.dec.phase = .op) (hover : s.dec.runOver) : DecStep s s.dec.finished
  /-- `OP` past the end of the bitmap. -/
  | bitmapMissing (hphase : s.dec.phase = .op) (hover : ¬ s.dec.runOver)
    (hmissing : s.dec.bitmapMissing) :
    DecStep s (s.dec.failed .truncatedStream (s.dec.bmBase.toNat + s.dec.opIdx.toNat / 8))
  /-- `OP` with a control bit. -/
  | fetch (hphase : s.dec.phase = .op) (hover : ¬ s.dec.runOver) (hthere : ¬ s.dec.bitmapMissing) :
    DecStep s (s.dec.fetched s.shiftedByte)
  /-- `LIT` or `REF` past the end of the field stream. -/
  | entryMissing {ctrl : Bool} (hphase : s.dec.phase = if ctrl then .ref else .lit)
    (hmissing : s.dec.fsLen.toNat < s.dec.fsPos.toNat + entryLength ctrl) :
    DecStep s (s.dec.failed .truncatedStream s.dec.entryAddr)
  /-- `LIT`. -/
  | lit (hphase : s.dec.phase = .lit) (hentry : s.dec.fsPos.toNat + 1 ≤ s.dec.fsLen.toNat) :
    DecStep s (s.withOutput s.dec.afterLit (s.byteAt .dsrc s.dec.entryAddr)).dec
  /-- `REF`. -/
  | ref (hphase : s.dec.phase = .ref) (hentry : s.dec.fsPos.toNat + 2 ≤ s.dec.fsLen.toNat) :
    DecStep s (s.dec.copying (unpackOffset s.dec.split.lengthBits s.fieldAtCursor)
      (unpackLength s.dec.split.lengthBits s.fieldAtCursor))
  /-- `COPY` raises. -/
  | copyFails (hphase : s.dec.phase = .copy) (hfails : s.dec.copyFails) :
    DecStep s (s.dec.failed .invalidBackReference (s.dec.fsBase.toNat + s.dec.fsPos.toNat - 2))
  /-- `COPY` moves a byte; the operands are as `REF` leaves them. -/
  | copy (hphase : s.dec.phase = .copy) (hfits : ¬ s.dec.copyFails)
    (hremain : 1 ≤ s.dec.curRemain.toNat) :
    DecStep s (s.withOutput s.dec.afterCopy
      (s.byteAt .dout (s.dec.outPos.toNat - s.dec.curOffset.toNat))).dec
  /-- `COPY` with nothing left to copy, which no run reaches. -/
  | copyNothing (hphase : s.dec.phase = .copy) (hfits : ¬ s.dec.copyFails)
    (hremain : s.dec.curRemain.toNat = 0) (v : Byte) :
    DecStep s { s.dec with
      outPos := toWord (s.dec.outPos.toNat + 1), curRemain := 0
      opIdx := toWord (s.dec.opIdx.toNat + 1), phase := .op
      dout := s.dec.dout.write s.dec.outPos.toNat v }

/-! Step `BEGIN`. -/

theorem Dec.describedBy_refl (d : Dec) : d.DescribedBy d := .inl rfl

/-- Where nothing was raised before, opening the output raises or leaves the extents of a run. -/
theorem DecStep.opened {d : Dec} (hphase : s.dec.phase = .begin_) (hd : s.dec.DescribedBy d)
    (hcfg : cfgValid d.split d.window.toNat = true) (hsrc : d.srcLen.toNat ≤ s.plat.dsrcCap)
    (hbm : d.bmBase.toNat + d.bmLen.toNat ≤ d.srcLen.toNat)
    (hfs : d.fsBase.toNat + d.fsLen.toNat ≤ d.srcLen.toNat) :
    DecStep s (d.opened s.plat.doutCap) := by
  unfold Dec.opened
  split
  case isTrue => exact .beginFails hphase hd
  case isFalse hout => exact .begins hphase hd ⟨hcfg, hsrc, Nat.le_of_not_lt hout, hbm, hfs⟩

theorem DecStep.blockBegun (hphase : s.dec.phase = .begin_) (hpasses : s.beginPasses) :
    DecStep s s.blockBegun := by
  obtain ⟨hcfg, hcap⟩ := s.beginPasses_iff.mp hpasses
  unfold State.blockBegun
  split_ifs with hbm hfs
  · exact .beginFails hphase s.dec.describedBy_refl
  · exact .beginFails hphase s.dec.describedBy_refl
  · exact .opened hphase s.dec.describedBy_refl hcfg hcap (Nat.le_of_not_lt hbm)
      (Nat.le_of_not_lt hfs)

/-- The parse leaves the windows it has checked: both inside the extent (42_host_commands.md R196). -/
theorem State.sectionParsed_windows (s : State)
    (hbm : ¬ s.dec.srcLen.toNat < 8 + s.sectionBmLen)
    (hfs : ¬ (s.dec.cfg.framing = .prefixed
      ∧ s.dec.srcLen.toNat < 12 + s.sectionBmLen + s.sectionFsLen)) :
    s.sectionParsed.bmBase.toNat + s.sectionParsed.bmLen.toNat ≤ s.dec.srcLen.toNat
      ∧ s.sectionParsed.fsBase.toNat + s.sectionParsed.fsLen.toNat ≤ s.dec.srcLen.toNat := by
  have hlen := s.dec.srcLen.isLt
  have h8 : (8 : Word).toNat = 8 := rfl
  unfold State.sectionParsed
  split
  case isTrue hf =>
    have hfs : ¬ s.dec.srcLen.toNat < 12 + s.sectionBmLen + s.sectionFsLen := fun h => hfs ⟨hf, h⟩
    simp only [State.sectionBitmap, h8]
    rw [toNat_toWord (by omega), toNat_toWord (by omega), toNat_toWord (by omega)]
    omega
  case isFalse hf =>
    simp only [State.sectionBitmap, h8]
    rw [toNat_toWord (by omega), toNat_toWord (by omega), toNat_toWord (by omega)]
    omega

theorem State.sectionParsed_sameButBlock (s : State) : s.dec.SameButBlock s.sectionParsed := by
  unfold State.sectionParsed; split <;> exact ⟨_, _, _, _, _, _, rfl⟩

theorem DecStep.sectionBegun (hphase : s.dec.phase = .begin_) (hmode : s.dec.mode = .sectioned)
    (hpasses : s.beginPasses) : DecStep s s.sectionBegun := by
  obtain ⟨hcfg, hcap⟩ := s.beginPasses_iff.mp hpasses
  unfold State.sectionBegun
  split_ifs with h8 hbm hsize hfs
  · exact .beginFails hphase s.dec.describedBy_refl
  · exact .beginFails hphase (.inr ⟨hmode, _, _, _, _, _, _, rfl⟩)
  · exact .beginFails hphase (.inr ⟨hmode, _, _, _, _, _, _, rfl⟩)
  · exact .beginFails hphase (.inr ⟨hmode, _, _, _, _, _, _, rfl⟩)
  · obtain ⟨hbm', hfs'⟩ := s.sectionParsed_windows hbm hfs
    have hsame := s.sectionParsed_sameButBlock
    obtain ⟨_, _, _, _, _, _, hparsed⟩ := id hsame
    rw [hparsed] at hbm' hfs' hsame ⊢
    exact .opened hphase (.inr ⟨hmode, hsame⟩) hcfg hcap hbm' hfs'

/-- Step `BEGIN` always answers (42_host_commands.md R195). -/
theorem decBegin_step (hphase : s.dec.phase = .begin_) :
    ∃ d, DecStep s d ∧ decBegin s = .next (s.setDec d) := by
  by_cases hcfg : cfgValid s.dec.split s.dec.window.toNat = true
  case neg =>
    exact ⟨_, .beginFails hphase s.dec.describedBy_refl, decBegin_of_configMismatch hcfg⟩
  by_cases hcap : s.plat.dsrcCap < s.dec.srcLen.toNat
  · exact ⟨_, .beginFails hphase s.dec.describedBy_refl, decBegin_of_extentMissing hcfg hcap⟩
  · have hpasses : s.beginPasses := s.beginPasses_iff.mpr ⟨hcfg, Nat.le_of_not_lt hcap⟩
    cases hmode : s.dec.mode with
    | block => exact ⟨_, .blockBegun hphase hpasses, decBegin_block hpasses hmode⟩
    | sectioned => exact ⟨_, .sectionBegun hphase hmode hpasses, decBegin_section hpasses hmode⟩

/-! The other steps, and the turn. -/

theorem decOp_step (hphase : s.dec.phase = .op) (h : decOp s = .next t) :
    ∃ d, DecStep s d ∧ t = s.setDec d := by
  by_cases hover : s.dec.runOver
  · rw [decOp_of_runOver hover] at h
    cases h
    exact ⟨_, .finish hphase hover, rfl⟩
  by_cases hmissing : s.dec.bitmapMissing
  · rw [decOp_of_bitmapMissing hover hmissing] at h
    cases h
    exact ⟨_, .bitmapMissing hphase hover hmissing, rfl⟩
  · have hb : s.dec.opIdx.toNat % 8 = 0 →
        s.backed .dsrc (s.dec.bmBase.toNat + s.dec.opIdx.toNat / 8) = true := fun h8 => by
      rw [decOp, if_neg hover, if_pos h8, if_neg fun hle => hmissing ⟨h8, hle⟩] at h
      exact (load_next h).1
    rw [decOp_of_fetch hover hmissing hb] at h
    cases h
    exact ⟨_, .fetch hphase hover hmissing, rfl⟩

theorem runOperation_lit_step (hphase : s.dec.phase = .lit) (h : runOperation false s = .next t) :
    ∃ d, DecStep s d ∧ t = s.setDec d := by
  rcases runOperation_lit_next h with ⟨hmissing, rfl⟩ | ⟨hentry, h⟩
  · exact ⟨_, .entryMissing (ctrl := false) hphase ((s.dec.entryMissing_iff 1).mp hmissing), rfl⟩
  · have hentry : ¬ s.dec.fsLen.toNat < s.dec.fsPos.toNat + 1 := by
      rw [← Dec.entryMissing_iff, hentry]
      decide
    have hb : s.backed .dout s.dec.outPos.toNat = true := by
      rw [execLit, if_neg (mt (s.dec.entryMissing_iff _).mp hentry)] at h
      exact (store_next h).1
    rw [execLit_of_backed hentry hb] at h
    cases h
    exact ⟨_, .lit hphase (Nat.le_of_not_lt hentry), rfl⟩

theorem runOperation_ref_step (hphase : s.dec.phase = .ref) (h : runOperation true s = .next t) :
    ∃ d, DecStep s d ∧ t = s.setDec d := by
  rcases runOperation_ref_next h with ⟨hmissing, rfl⟩ | ⟨hentry, h⟩
  · exact ⟨_, .entryMissing (ctrl := true) hphase ((s.dec.entryMissing_iff 2).mp hmissing), rfl⟩
  · have hentry : ¬ s.dec.fsLen.toNat < s.dec.fsPos.toNat + 2 := by
      rw [← Dec.entryMissing_iff, hentry]
      decide
    rw [beginCopy_of_entry hentry] at h
    cases h
    exact ⟨_, .ref hphase (Nat.le_of_not_lt hentry), rfl⟩

theorem decCopy_step (hphase : s.dec.phase = .copy) (h : decCopy s = .next t) :
    ∃ d, DecStep s d ∧ t = s.setDec d := by
  by_cases hfails : s.dec.copyFails
  · rw [decCopy_of_copyFails hfails] at h
    cases h
    exact ⟨_, .copyFails hphase hfails, rfl⟩
  by_cases hremain : 1 ≤ s.dec.curRemain.toNat
  · have hb : s.backed .dout s.dec.outPos.toNat = true := by
      rw [decCopy, if_neg hfails] at h
      exact (store_next (load_next h).2).1
    rw [decCopy_of_backed hfails hphase hremain hb] at h
    cases h
    exact ⟨_, .copy hphase hfails hremain, rfl⟩
  · have hzero : s.dec.curRemain.toNat = 0 := by omega
    rw [decCopy, if_neg hfails] at h
    obtain ⟨-, h⟩ := store_next (load_next h).2
    rw [if_pos (by simp [hzero])] at h
    cases h
    refine ⟨_, .copyNothing hphase hfails hzero
      (s.byteAt .dout (s.dec.outPos.toNat - s.dec.curOffset.toNat)), ?_⟩
    simp [hzero]
    rfl

/-- Everything a turn of a `BUSY` decoder can answer with a next state. -/
theorem decTurn_step (hb : s.dec.runState = .busy) (h : decTurn s = .next t) :
    ∃ d, DecStep s d ∧ t = s.setDec d := by
  cases hp : s.dec.phase with
  | halt => simp [decTurn, hb, hp] at h
  | begin_ =>
    obtain ⟨d, hd, hk⟩ := decBegin_step hp
    rw [decTurn_begin hb hp, hk] at h
    cases h
    exact ⟨d, hd, rfl⟩
  | op => exact decOp_step hp (decTurn_op hb hp ▸ h)
  | lit => exact runOperation_lit_step hp (decTurn_lit hb hp ▸ h)
  | ref => exact runOperation_ref_step hp (decTurn_ref hb hp ▸ h)
  | copy => exact decCopy_step hp (decTurn_copy hb hp ▸ h)

end Sys2Proof.Machine
end

section
/-! PROOF. Everything an encoder step can do (40_encoder.md R132 to R136). -/

namespace Sys2Proof.Machine

variable {s t : State}

/-! Step `SCAN`. -/

/-- The search is over: no candidate is left, or none can be longer (40_encoder.md R134). -/
abbrev Enc.scanOver (e : Enc) : Prop :=
  e.dmax.toNat < e.scanD.toNat ∨ e.bestLen = e.cap

/-- The registers after one candidate offset (40_encoder.md R134). -/
def State.scanned (s : State) : Enc :=
  if s.enc.bestLen.toNat < s.matchAt s.enc.scanD.toNat then
    { s.enc with
      bestLen := toCount (s.matchAt s.enc.scanD.toNat), bestOff := s.enc.scanD
      scanD := toCount (s.enc.scanD.toNat + 1) }
  else { s.enc with scanD := toCount (s.enc.scanD.toNat + 1) }

theorem encScan_of_scanOver (h : s.enc.scanOver) :
    encScan s = .next (s.setEnc { s.enc with phase := .emit }) :=
  if_pos h

theorem encScan_of_backed (h : ¬ s.enc.scanOver)
    (hb : s.backed .esrc (s.enc.pos.toNat + s.enc.cap.toNat - 1) = true) :
    encScan s = .next (s.setEnc s.scanned) := by
  refine (if_neg h).trans ((if_pos hb).trans ?_)
  dsimp only
  rw [State.scanned, State.matchAt]
  split_ifs <;> rfl

/-- The last byte a comparison reaches is before the end of the input (40_encoder.md R122). -/
theorem encScan_of_inv (hinv : s.Inv) (hphase : s.enc.phase = .scan) (h : ¬ s.enc.scanOver) :
    encScan s = .next (s.setEnc s.scanned) := by
  have hr : s.enc.running := .inr (.inl hphase)
  obtain ⟨-, -, hlimits, -⟩ := hinv.enc_running hr
  obtain ⟨hpos, hcap, -⟩ := hlimits (.inl hphase)
  exact encScan_of_backed h (backed_esrc_of_inv hinv hr (by omega))

/-- A configured window is of at most 16 bits, and so is a match (10_state.md R25). -/
theorem limits_lt_of_inv (hinv : s.Inv) (hphase : s.enc.phase = .scan ∨ s.enc.phase = .emit) :
    s.enc.cap.toNat ≤ 2 ^ 16 ∧ s.enc.dmax.toNat ≤ 2 ^ 16 := by
  have hr : s.enc.running := by
    rcases hphase with h | h <;> simp [Enc.running, h]
  obtain ⟨⟨hcfg, -⟩, -, hlimits, -⟩ := hinv.enc_running hr
  obtain ⟨hsum, hwindow⟩ := s.enc.cfgValid_iff.mp hcfg
  obtain ⟨-, hcap, hdmax⟩ := hlimits hphase
  have hl : 2 ^ s.enc.split.lengthBits ≤ 2 ^ 16 :=
    Nat.pow_le_pow_right Nat.two_pos (Nat.le.intro ((Nat.add_comm ..).trans hsum))
  have ho : 2 ^ s.enc.cfg.offsetBits.toNat ≤ 2 ^ 16 :=
    Nat.pow_le_pow_right Nat.two_pos (Nat.le.intro hsum)
  exact ⟨hcap ▸ (min_le_left _ _).trans hl, hdmax ▸ (min_le_right _ _).trans (hwindow.trans ho)⟩

/-- A match is no longer than the cap. -/
theorem State.matchAt_le (s : State) (d : Nat) : s.matchAt d ≤ s.enc.cap.toNat :=
  matchLen_le ..

/-- Settles O37: the step is `encScan`, and neither a match nor the next offset wraps. -/
theorem scanStepTriesOneOffset : Obligations.ScanStepTriesOneOffset := by
  intro s hinv hmoves hphase d m
  have hturn := encTurn_scan (s := s.popped) hmoves.1 hphase
  obtain ⟨hcap, hdmax⟩ := limits_lt_of_inv hinv (.inl hphase)
  by_cases hover : s.enc.scanOver
  · simp only [d, if_pos hover]
    exact step_of_encTurn_setEnc hmoves (hturn.trans (encScan_of_scanOver (s := s.popped) hover))
  · have hscan := encScan_of_inv (State.Inv_popped hinv) hphase hover
    obtain ⟨t, hstep, honly, henc⟩ := step_of_encTurn_setEnc hmoves (hturn.trans hscan)
    have hm : s.popped.matchAt s.enc.scanD.toNat = m :=
      matchLen_congr (fun a => State.popped_byteAt ..) ..
    have hd : (toCount (d + 1)).toNat = d + 1 := toNat_toCount (by omega)
    have hbest : (toCount m).toNat = m := toNat_toCount (by
      have := s.popped.matchAt_le s.enc.scanD.toNat
      rw [hm] at this
      exact lt_of_le_of_lt (this.trans hcap) (by decide))
    refine ⟨t, hstep, honly, ?_⟩
    rw [if_neg hover, henc, State.scanned, State.popped_enc, hm]
    split_ifs
    · exact ⟨rfl, hbest, hd⟩
    · exact ⟨rfl, hd⟩

/-- Settles O36, by the three laws of `matchLen`. -/
theorem matchLengthIsLargest : Obligations.MatchLengthIsLargest :=
  fun _ _ _ _ => ⟨matchLen_le .., fun _ => matchLen_agree, fun _ => le_matchLen⟩

/-! Step `FLUSH`. -/

/-- The bitmap after the last partial byte (40_encoder.md R136). -/
def Enc.flushedEbm (e : Enc) : Memory :=
  if e.opCount.toNat % 8 ≠ 0 then e.ebm.write (e.opCount.toNat / 8) e.bmAcc else e.ebm

/-- The unit after step `FLUSH` (40_encoder.md R136). -/
def Enc.flushed (e : Enc) : Enc :=
  { e with
    bmLen := toWord (ceil8 e.opCount.toNat), uncompSize := e.inLen, bmAcc := 0
    runState := .done, phase := .halt, ebm := e.flushedEbm }

theorem encFlush_of_backed
    (h : s.enc.opCount.toNat % 8 ≠ 0 → s.backed .ebm (s.enc.opCount.toNat / 8) = true) :
    encFlush s = .next (s.setEnc s.enc.flushed) := by
  rw [encFlush, Enc.flushed, Enc.flushedEbm]
  by_cases h8 : s.enc.opCount.toNat % 8 ≠ 0
  · rw [if_pos h8, if_pos h8]
    exact store_of_backed (h h8) _
  · rw [if_neg h8, if_neg h8]

/-- There are no more operations than bytes of input (40_encoder.md R145, 42_host_commands.md R201). -/
theorem encFlush_of_inv (hinv : s.Inv) (hphase : s.enc.phase = .flush) :
    encFlush s = .next (s.setEnc s.enc.flushed) := by
  obtain ⟨⟨-, -, -, -, hcap⟩, ⟨hpos, -, hop, -, -⟩, -⟩ :=
    hinv.enc_running (.inr (.inr (.inr hphase)))
  have hlen := s.enc.inLen.isLt
  refine encFlush_of_backed fun _ =>
    State.backed_of_lt (n := ceil8 s.enc.inLen.toNat) ?_ hcap ?_ <;> unfold ceil8 <;> omega

theorem State.byteAt_flushed (s : State) (sp : Space) (x : Nat) :
    (s.setEnc s.enc.flushed).byteAt sp x =
      if sp = .ebm ∧ x = s.enc.opCount.toNat / 8 ∧ s.enc.opCount.toNat % 8 ≠ 0 then s.enc.bmAcc
      else s.byteAt sp x := by
  by_cases h8 : s.enc.opCount.toNat % 8 ≠ 0
  · have hebm : s.enc.flushed.ebm = s.enc.ebm.write (s.enc.opCount.toNat / 8) s.enc.bmAcc :=
      if_pos h8
    simp only [h8, ne_eq, not_false_eq_true, and_true]
    rw [← State.byteAt_setMem_write]
    exact State.byteAt_setEnc (s := s.setMem .ebm _) (e := s.enc.flushed) rfl hebm rfl sp x
  · have hebm : s.enc.flushed.ebm = s.enc.ebm := if_neg h8
    rw [if_neg fun h => h8 h.2.2]
    exact State.byteAt_setEnc (s := s) (e := s.enc.flushed) rfl hebm rfl sp x

/-- Settles O42: the byte of the pending control bits is backed, and the step stores it. -/
theorem flushStepEndsTheRun : Obligations.FlushStepEndsTheRun := by
  intro s hinv hmoves hphase n
  have hturn := (encTurn_flush (s := s.popped) hmoves.1 hphase).trans
    (encFlush_of_inv (State.Inv_popped hinv) hphase)
  refine ⟨_, (step_of_encMoves hmoves).trans hturn, ⟨rfl, rfl, rfl, rfl, rfl⟩, rfl, fun sp x => ?_⟩
  rw [State.byteAt_flushed, State.popped_byteAt]
  rfl

/-! The list. -/

/-- The units that a step of a `BUSY` encoder can leave. -/
inductive EncStep (s : State) : Enc → Prop
  /-- `BEGIN` raises. -/
  | beginFails {kind : ErrorKind} (hphase : s.enc.phase = .begin_) : EncStep s (s.enc.failed kind)
  /-- `BEGIN` raises nothing. -/
  | begins (hphase : s.enc.phase = .begin_) (hconfig : ¬ s.enc.configFails)
    (hcap : ¬ s.encCapacityFails) : EncStep s s.enc.begun
  /-- `POS` at the end of the input. -/
  | atEnd (hphase : s.enc.phase = .pos) (hend : s.enc.pos = s.enc.inLen) :
    EncStep s { s.enc with phase := .flush }
  /-- `POS` before it. -/
  | search (hphase : s.enc.phase = .pos) (hend : s.enc.pos ≠ s.enc.inLen) :
    EncStep s s.enc.searching
  /-- `SCAN` when the search is over. -/
  | scanOver (hphase : s.enc.phase = .scan) (hover : s.enc.scanOver) :
    EncStep s { s.enc with phase := .emit }
  /-- `SCAN` with a candidate. -/
  | scan (hphase : s.enc.phase = .scan) (hover : ¬ s.enc.scanOver) : EncStep s s.scanned
  /-- `EMIT` of a literal. -/
  | emitLit (hphase : s.enc.phase = .emit) (hlt : s.enc.bestLen.toNat < s.enc.minMatch.toNat) :
    EncStep s (s.litStored.emitted false 1 1).enc
  /-- `EMIT` of a back-reference. -/
  | emitRef (hphase : s.enc.phase = .emit) (hle : s.enc.minMatch.toNat ≤ s.enc.bestLen.toNat) :
    EncStep s (s.refStored.emitted true 2 s.enc.bestLen.toNat).enc
  /-- `FLUSH`. -/
  | flush (hphase : s.enc.phase = .flush) : EncStep s s.enc.flushed

/-- Step `BEGIN` always answers (40_encoder.md R132). -/
theorem encBegin_step (hphase : s.enc.phase = .begin_) :
    ∃ e, EncStep s e ∧ encBegin s = .next (s.setEnc e) := by
  by_cases hconfig : s.enc.configFails
  · exact ⟨_, .beginFails hphase, encBegin_of_configFails hconfig⟩
  by_cases hcap : s.encCapacityFails
  · exact ⟨_, .beginFails hphase, encBegin_of_capacityFails hconfig hcap⟩
  · exact ⟨_, .begins hphase hconfig hcap, encBegin_of_passes hconfig hcap⟩

/-- Step `POS` always answers (40_encoder.md R133). -/
theorem encPos_step (hphase : s.enc.phase = .pos) :
    ∃ e, EncStep s e ∧ encPos s = .next (s.setEnc e) := by
  by_cases hend : s.enc.pos = s.enc.inLen
  · exact ⟨_, .atEnd hphase hend, encPos_of_end hend⟩
  · exact ⟨_, .search hphase hend, encPos_of_ne hend⟩

theorem encScan_step (hphase : s.enc.phase = .scan) (h : encScan s = .next t) :
    ∃ e, EncStep s e ∧ t = s.setEnc e := by
  by_cases hover : s.enc.scanOver
  · rw [encScan_of_scanOver hover] at h
    cases h
    exact ⟨_, .scanOver hphase hover, rfl⟩
  · have hb : s.backed .esrc (s.enc.pos.toNat + s.enc.cap.toNat - 1) = true := by
      rw [encScan, if_neg hover] at h
      by_contra hb
      rw [if_neg hb] at h
      cases h
    rw [encScan_of_backed hover hb] at h
    cases h
    exact ⟨_, .scan hphase hover, rfl⟩

/-- Appending a control bit that goes on, as the registers and the bitmap after it. -/
theorem appendControlBit_withControlBit {c : Bool} {k : State → Result}
    (h : appendControlBit c s k = .next t) : k (s.setEnc (s.enc.withControlBit c)) = .next t := by
  rcases appendControlBit_cases c s k with ⟨h7, hb, -⟩ | ⟨-, -, hk⟩ | ⟨h7, hk⟩
  · rwa [appendControlBit_of_backed hb] at h
  · rw [hk] at h
    cases h
  · rw [hk] at h
    rw [Enc.withControlBit, if_neg h7, if_neg h7]
    exact h

theorem State.eq_setEnc_of_onlyEnc (h : s.onlyEnc t) : t = s.setEnc t.enc := by
  obtain ⟨hdec, hplat, hagenda, hreturned, hepoch⟩ := h
  cases t
  simp only at hdec hplat hagenda hreturned hepoch
  subst hdec hplat hagenda hreturned hepoch
  rfl

/-- An emission that goes on, the entry having been stored. -/
theorem emitted_of_appendControlBit {c : Bool} {n advance : Nat}
    (h : appendControlBit c
        (s.setEnc
          { s.enc with
            fsLen := toWord (s.enc.fsLen.toNat + n), pos := toWord (s.enc.pos.toNat + advance) })
        (fun s => .next (s.setEnc { s.enc with phase := .pos })) = .next t) :
    t = s.emitted c n advance := by
  cases appendControlBit_withControlBit h
  rfl

theorem encEmit_step (hphase : s.enc.phase = .emit) (h : encEmit s = .next t) :
    ∃ e, EncStep s e ∧ t = s.setEnc e := by
  rw [encEmit] at h
  dsimp only at h
  split at h
  case isTrue hle =>
    rw [emitRef] at h
    obtain ⟨-, h⟩ := store_next (store_next h).2
    obtain rfl := emitted_of_appendControlBit (s := s.refStored) h
    exact ⟨_, .emitRef hphase hle,
      State.eq_setEnc_of_onlyEnc (State.onlyEnc_emitted (State.onlyEnc_refStored s))⟩
  case isFalse hle =>
    rw [emitLit] at h
    obtain ⟨-, h⟩ := store_next (load_next h).2
    obtain rfl := emitted_of_appendControlBit (s := s.litStored) h
    exact ⟨_, .emitLit hphase (Nat.lt_of_not_le hle),
      State.eq_setEnc_of_onlyEnc (State.onlyEnc_emitted (State.onlyEnc_litStored s))⟩

theorem encFlush_step (hphase : s.enc.phase = .flush) (h : encFlush s = .next t) :
    ∃ e, EncStep s e ∧ t = s.setEnc e := by
  have hb : s.enc.opCount.toNat % 8 ≠ 0 → s.backed .ebm (s.enc.opCount.toNat / 8) = true :=
    fun h8 => by
      rw [encFlush, if_pos h8] at h
      exact (store_next h).1
  rw [encFlush_of_backed hb] at h
  cases h
  exact ⟨_, .flush hphase, rfl⟩

/-- Everything a turn of a `BUSY` encoder can answer with a next state. -/
theorem encTurn_step (hb : s.enc.runState = .busy) (h : encTurn s = .next t) :
    ∃ e, EncStep s e ∧ t = s.setEnc e := by
  cases hp : s.enc.phase with
  | halt => simp [encTurn, hb, hp] at h
  | begin_ =>
    obtain ⟨e, he, hk⟩ := encBegin_step hp
    rw [encTurn_begin hb hp, hk] at h
    cases h
    exact ⟨e, he, rfl⟩
  | pos =>
    obtain ⟨e, he, hk⟩ := encPos_step hp
    rw [encTurn_pos hb hp, hk] at h
    cases h
    exact ⟨e, he, rfl⟩
  | scan => exact encScan_step hp (encTurn_scan hb hp ▸ h)
  | emit => exact encEmit_step hp (encTurn_emit hb hp ▸ h)
  | flush => exact encFlush_step hp (encTurn_flush hb hp ▸ h)

end Sys2Proof.Machine
end

section
/-! PROOF. The unit's search is the reference function's (40_encoder.md R122 to R124, R134). -/

namespace Sys2Proof.Machine

variable {s : State} {input : List Byte} {l w pos : Nat}

/-- A pair that is the longest match and the nearest of that length is the best match. -/
theorem bestMatch_eq_of_nearest_longest {r d : Nat}
    (hle : ∀ d', d' ≤ min pos w → 1 ≤ d' → candidateLen input l pos d' ≤ r)
    (hnearest : ∀ d', d' < d → 1 ≤ d' → candidateLen input l pos d' < r)
    (hzero : r = 0 → d = 0)
    (hattained : r ≠ 0 → 1 ≤ d ∧ d ≤ min pos w ∧ candidateLen input l pos d = r) :
    bestMatch input l w pos = (r, d) := by
  have hlongest : longestLen input l w pos = r := by
    refine Nat.le_antisymm ?_ ?_
    · by_cases h : longestLen input l w pos = 0
      · omega
      · obtain ⟨k, hk, heq⟩ := exists_candidateLen_eq h
        exact heq ▸ hle (k + 1) hk (Nat.succ_pos k)
    · by_cases hr : r = 0
      · omega
      · obtain ⟨h1, hd, heq⟩ := hattained hr
        exact heq ▸ candidateLen_le_longestLen h1 hd
  by_cases hr : r = 0
  · rw [bestMatch_eq, hlongest, if_pos hr, hr, hzero hr]
  · obtain ⟨d', hbest, h1', -, heq', hnearest'⟩ :=
      bestMatch_of_longestLen_ne_zero (hlongest ▸ hr : longestLen input l w pos ≠ 0)
    obtain ⟨h1, -, heq⟩ := hattained hr
    have hd : d' = d := by
      rcases Nat.lt_trichotomy d' d with hlt | heq | hlt
      · have := hnearest d' hlt h1'
        omega
      · exact heq
      · have := hnearest' d h1 hlt
        omega
    rw [hbest, heq', hlongest, hd]

/-- The bytes of a slice. -/
theorem State.getElem?_slice (s : State) (sp : Space) (a : Nat) {n j : Nat} (h : j < n) :
    (s.slice sp a n)[j]? = some (s.byteAt sp (a + j)) := by
  simp [State.slice, List.getElem?_range h]

/-- Inside the input the unit's match length is the reference function's. -/
theorem matchLen_eq_refMatchLen {n i pos cap : Nat} (hi : i ≤ pos) (hcap : pos + cap ≤ n) :
    matchLen s i pos cap = refMatchLen (s.slice .esrc 0 n) i pos cap := by
  induction cap generalizing i pos with
  | zero => rfl
  | succ cap ih =>
    rw [matchLen, refMatchLen, ih (Nat.succ_le_succ hi) (by omega), State.getElem?_slice s _ _ (by omega),
      State.getElem?_slice s _ _ (by omega)]
    simp only [Nat.zero_add, Option.some.injEq]

/-- The input of a run of the encoder (40_encoder.md R121). -/
def State.encInput (s : State) : List Byte :=
  s.slice .esrc 0 s.enc.inLen.toNat

/-- The unit's candidates are the reference function's (40_encoder.md R123). -/
theorem matchAt_eq_candidateLen (h : s.enc.limitsOk)
    (hphase : s.enc.phase = .scan ∨ s.enc.phase = .emit) (d : Nat) :
    s.matchAt d = candidateLen s.encInput s.enc.split.lengthBits s.enc.pos.toNat d := by
  obtain ⟨hpos, hcap, -⟩ := h hphase
  rw [State.matchAt, candidateLen, matchLen_eq_refMatchLen (Nat.sub_le ..)
    (show _ ≤ s.enc.inLen.toNat by omega), hcap, refCap, State.encInput, State.slice_length]

/-- Settles O39: the search has tried every offset of the window, and its candidates are those of the
reference function. -/
theorem searchFindsTheBestMatch : Obligations.SearchFindsTheBestMatch := by
  intro s hinv hphase
  obtain ⟨-, -, hlimits, -, hbest⟩ := hinv.enc_running (.inr (.inr (.inl hphase)))
  obtain ⟨-, -, hdmax⟩ := hlimits (.inr hphase)
  obtain ⟨hle, hnearest, hzero, hattained⟩ := hbest hphase
  simp only [matchAt_eq_candidateLen hlimits (.inr hphase), hdmax] at hle hnearest hattained
  exact (bestMatch_eq_of_nearest_longest hle hnearest hzero hattained).symm

end Sys2Proof.Machine
end

section
/-! PROOF. A memory after stores below a bound (20_memory.md R66, R78). -/

namespace Sys2Proof.Machine

/-- The second memory is the first after some stores, all below a bound. -/
inductive Memory.StoredBelow (bound : Nat) (m : Memory) : Memory → Prop
  | refl : StoredBelow bound m m
  | write {m' : Memory} {x : Nat} (h : StoredBelow bound m m') (hx : x < bound) (v : Byte) :
    StoredBelow bound m (m'.write x v)

variable {m m' : Memory} {bound : Nat}

theorem Memory.storedBelow_write {x : Nat} (hx : x < bound) (v : Byte) :
    StoredBelow bound m (m.write x v) :=
  .write .refl hx v

theorem Memory.storedBelow_zeroFill (m : Memory) {n : Nat} (hn : n ≤ bound) :
    StoredBelow bound m (m.zeroFill n) := by
  induction n with
  | zero => exact .refl
  | succ n ih =>
    rw [Memory.zeroFill_succ]
    exact .write (ih (Nat.le_of_succ_le hn)) hn 0

theorem Memory.StoredBelow.mono (h : StoredBelow bound m m') {bound' : Nat} (hb : bound ≤ bound') :
    StoredBelow bound' m m' := by
  induction h with
  | refl => exact .refl
  | write _ hlt v ih => exact .write ih (Nat.lt_of_lt_of_le hlt hb) v

/-- At and above the bound nothing has changed. -/
theorem Memory.StoredBelow.lookup_eq (h : StoredBelow bound m m') {x : Nat} (hx : bound ≤ x) :
    m'.lookup x = m.lookup x := by
  induction h with
  | refl => rfl
  | write _ hlt v ih => rw [Memory.lookup_write_other _ _ (by omega), ih]

/-- What is still unwritten was unwritten before. -/
theorem Memory.StoredBelow.lookup_eq_none (h : StoredBelow bound m m') {x : Nat}
    (hx : m'.lookup x = none) : m.lookup x = none := by
  induction h with
  | refl => exact hx
  | @write m'' y h hlt v ih =>
    by_cases hxy : x = y
    · subst hxy
      rw [Memory.lookup_write_same] at hx
      cases hx
    · rw [Memory.lookup_write_other _ _ hxy] at hx
      exact ih hx

theorem Memory.StoredBelow.wf (h : StoredBelow bound m m') (hm : m.wf) (hb : bound ≤ 2 ^ 32) :
    m'.wf := by
  induction h with
  | refl => exact hm
  | write _ hlt v ih => exact Memory.write_wf v ih (Nat.lt_of_lt_of_le hlt hb)

/-- Every listed address stays below a limit that the bound does not exceed. -/
theorem Memory.StoredBelow.addr_lt (h : StoredBelow bound m m') {limit : Nat}
    (hm : ∀ c ∈ m, c.1 < limit) (hb : bound ≤ limit) : ∀ c ∈ m', c.1 < limit := by
  induction h with
  | refl => exact hm
  | write _ hlt v ih => exact Memory.write_below v ih (Nat.lt_of_lt_of_le hlt hb)

end Sys2Proof.Machine
end

section
/-! PROOF. What every step leaves unchanged (20_memory.md R66, R74, R78; 42_host_commands.md R191, R197;
60_exceptions.md R228). -/

namespace Sys2Proof.Machine

variable {s t : State} {d : Dec} {e : Enc}

/-! The decoder's own step. -/

theorem Dec.DescribedBy.same {d d' : Dec} (h : d.DescribedBy d') : d.SameButBlock d' := by
  rcases h with rfl | ⟨-, h⟩
  · exact ⟨_, _, _, _, _, _, rfl⟩
  · exact h

/-- `Finish` changes the status only. -/
theorem Dec.finished_eq (d : Dec) :
    d.finished = { d with
      runState := d.finished.runState, err := d.finished.err, underfill := d.finished.underfill
      phase := .halt, errPos := d.finished.errPos } := by
  unfold Dec.finished
  split_ifs <;> rfl

/-- No step changes the configuration, the mode or the source (42_host_commands.md R191, R197). -/
theorem DecStep.frame (h : DecStep s d) :
    d.cfg = s.dec.cfg ∧ d.window = s.dec.window ∧ d.srcLen = s.dec.srcLen ∧ d.mode = s.dec.mode
      ∧ d.dsrc = s.dec.dsrc := by
  cases h with
  | beginFails _ hd | begins _ hd _ =>
    obtain ⟨_, _, _, _, _, _, rfl⟩ := hd.same
    exact ⟨rfl, rfl, rfl, rfl, rfl⟩
  | finish => rw [Dec.finished_eq]; exact ⟨rfl, rfl, rfl, rfl, rfl⟩
  | bitmapMissing | fetch | entryMissing | lit | ref | copyFails | copy | copyNothing =>
    exact ⟨rfl, rfl, rfl, rfl, rfl⟩

/-- A step stores in `DOUT` at the cursor, in `LIT` and `COPY`, and below `UNCOMP_SIZE`, in `BEGIN`. -/
theorem DecStep.dout_storedBelow {bound : Nat} (h : DecStep s d)
    (hbegin : s.dec.phase = .begin_ → d.phase = .op → d.uncompSize.toNat ≤ bound)
    (hlit : s.dec.phase = .lit → s.dec.outPos.toNat < bound)
    (hcopy : s.dec.phase = .copy → ¬ s.dec.copyFails → s.dec.outPos.toNat < bound) :
    Memory.StoredBelow bound s.dec.dout d.dout := by
  cases h with
  | beginFails _ hd =>
    obtain ⟨_, _, _, _, _, _, rfl⟩ := hd.same
    exact .refl
  | begins hphase hd hext =>
    obtain ⟨_, _, _, _, _, _, rfl⟩ := hd.same
    exact Memory.storedBelow_zeroFill _ (hbegin hphase rfl)
  | finish => rw [Dec.finished_eq]; exact .refl
  | bitmapMissing | fetch | entryMissing | ref | copyFails => exact .refl
  | lit hphase => exact Memory.storedBelow_write (hlit hphase) _
  | copy hphase hfits | copyNothing hphase hfits =>
    exact Memory.storedBelow_write (hcopy hphase hfits) _

/-- Past `BEGIN` no step changes the block registers (60_exceptions.md R228). -/
theorem DecStep.block_eq (h : DecStep s d) (hphase : s.dec.phase ≠ .begin_) :
    d.uncompSize = s.dec.uncompSize ∧ d.opCount = s.dec.opCount ∧ d.bmBase = s.dec.bmBase
      ∧ d.bmLen = s.dec.bmLen ∧ d.fsBase = s.dec.fsBase ∧ d.fsLen = s.dec.fsLen := by
  cases h with
  | beginFails hbegin | begins hbegin => exact absurd hbegin hphase
  | finish => rw [Dec.finished_eq]; exact ⟨rfl, rfl, rfl, rfl, rfl, rfl⟩
  | bitmapMissing | fetch | entryMissing | lit | ref | copyFails | copy | copyNothing =>
    exact ⟨rfl, rfl, rfl, rfl, rfl, rfl⟩

/-- In a state of the invariant a step stores in `DOUT` below `UNCOMP_SIZE` only (20_memory.md R66). -/
theorem DecStep.dout_storedBelow_of_inv (h : DecStep s d) (hinv : s.Inv) :
    Memory.StoredBelow d.uncompSize.toNat s.dec.dout d.dout := by
  refine h.dout_storedBelow (fun _ _ => Nat.le_refl _) (fun hphase => ?_) fun hphase hfits => ?_
  · obtain ⟨-, ⟨-, -, -, -, hout⟩, -⟩ := hinv.dec_running (.inr (.inl hphase))
    rw [(h.block_eq (by rw [hphase]; decide)).1]
    exact hout (.inl hphase)
  · rw [(h.block_eq (by rw [hphase]; decide)).1]
    exact Nat.lt_of_not_le fun hle => hfits (.inl hle)

/-- Registers are no memory. -/
theorem State.byteAt_setDec (hsrc : d.dsrc = s.dec.dsrc) (hout : d.dout = s.dec.dout) (sp : Space)
    (x : Nat) : (s.setDec d).byteAt sp x = s.byteAt sp x := by
  have hmem : (s.setDec d).mem sp = s.mem sp := by cases sp <;> simp [*]
  exact State.byteAt_congr hmem rfl x

/-- How a step ends in `ERROR`: one of the checks raises, or the output is short at the end. -/
theorem DecStep.error_cases (h : DecStep s d) (hb : s.dec.runState = .busy)
    (he : d.runState = .error) :
    (∃ d' kind p, d = d'.failed kind p ∧ s.dec.DescribedBy d' ∧ (s.dec.phase = .begin_ ∨ d' = s.dec))
    ∨ d = { s.dec.failed .underfill s.dec.entryAddr with underfill := true } := by
  cases h with
  | beginFails hphase hd => exact .inl ⟨_, _, _, rfl, hd, .inl hphase⟩
  | finish =>
    unfold Dec.finished at he ⊢
    split_ifs at he ⊢
    exact .inr rfl
  | begins _ hd =>
    obtain ⟨_, _, _, _, _, _, rfl⟩ := hd.same
    exact absurd (hb.symm.trans he) (by decide)
  | bitmapMissing | entryMissing | copyFails =>
    exact .inl ⟨_, _, _, rfl, s.dec.describedBy_refl, .inr rfl⟩
  | fetch | lit | ref | copy | copyNothing => exact absurd (hb.symm.trans he) (by decide)

/-- Settles O20: every error is taken by `raise` in the state before the step, but for the block
registers of a section. -/
theorem decoderErrorsArePrecise : Obligations.DecoderErrorsArePrecise := by
  intro s t hmoves hstep herror
  rw [step_of_decMoves hmoves] at hstep
  obtain ⟨d, hd, rfl⟩ := decTurn_step (s := s.popped) hmoves.1 hstep
  have hmem (hsrc : d.dsrc = s.dec.dsrc) (hout : d.dout = s.dec.dout) :
      s.sameMemory (s.popped.setDec d) := fun sp x =>
    (State.byteAt_setDec (s := s.popped) hsrc hout sp x).trans (State.popped_byteAt ..)
  refine ⟨⟨rfl, rfl, rfl, rfl, rfl⟩, ?_⟩
  rcases hd.error_cases hmoves.1 herror with ⟨d', kind, p, rfl, hdesc, hbegin⟩ | rfl
  · have hkept (h : s.dec.phase ≠ .begin_ ∨ s.dec.mode = .block) : d' = s.dec := by
      rcases hdesc with hd' | ⟨hmode, -⟩
      · exact hd'
      · refine hbegin.resolve_left fun hbegin => h.elim (· hbegin) fun hblock => ?_
        exact absurd (hmode.symm.trans hblock) (by decide)
    obtain ⟨_, _, _, _, _, _, hd'⟩ := hdesc.same
    refine ⟨hmem (by rw [hd']; rfl) (by rw [hd']; rfl), rfl, ⟨kind, rfl⟩, by rw [hd']; rfl,
      .inl (by rw [hd']; rfl), fun h => ?_⟩
    rw [hkept h]
    exact ⟨rfl, rfl, rfl, rfl, rfl, rfl⟩
  · exact ⟨hmem rfl rfl, rfl, ⟨_, rfl⟩, rfl, .inr rfl, fun _ => ⟨rfl, rfl, rfl, rfl, rfl, rfl⟩⟩

/-- Settles O21: by the frame of the step, which stores below `UNCOMP_SIZE` only. -/
theorem decoderStepFrame : Obligations.DecoderStepFrame := by
  intro s t hinv hmoves hstep
  rw [step_of_decMoves hmoves] at hstep
  obtain ⟨d, hd, rfl⟩ := decTurn_step (s := s.popped) hmoves.1 hstep
  obtain ⟨hcfg, hwindow, hsrcLen, hmode, hsrc⟩ := hd.frame
  refine ⟨⟨rfl, rfl, rfl, rfl, rfl⟩, hcfg, hwindow, hsrcLen, hmode, fun x => ?_, fun x hx => ?_⟩
  · exact State.byteAt_congr (s := s) (t := s.popped.setDec d) (sp := .dsrc) hsrc rfl x
  · have hlookup := (hd.dout_storedBelow_of_inv (State.Inv_popped hinv)).lookup_eq hx
    rw [State.byteAt, State.byteAt, State.mem_dout, State.setDec_dec, hlookup]
    rfl

/-! The encoder's own step. -/

/-- The registers that configure a run, and the input, are the same in both units. -/
structure Enc.SameConfig (e e' : Enc) : Prop where
  cfg : e'.cfg = e.cfg
  window : e'.window = e.window
  minMatch : e'.minMatch = e.minMatch
  inLen : e'.inLen = e.inLen
  esrc : e'.esrc = e.esrc

theorem State.emitted_sameConfig (s : State) (c : Bool) (n advance : Nat) :
    s.enc.SameConfig (s.emitted c n advance).enc :=
  ⟨rfl, rfl, rfl, rfl, rfl⟩

theorem State.litStored_sameConfig (s : State) : s.enc.SameConfig s.litStored.enc :=
  ⟨rfl, rfl, rfl, rfl, rfl⟩

theorem State.refStored_sameConfig (s : State) : s.enc.SameConfig s.refStored.enc :=
  ⟨rfl, rfl, rfl, rfl, rfl⟩

theorem Enc.SameConfig.trans {e₁ e₂ e₃ : Enc} (h : e₁.SameConfig e₂) (h' : e₂.SameConfig e₃) :
    e₁.SameConfig e₃ :=
  ⟨h'.cfg.trans h.cfg, h'.window.trans h.window, h'.minMatch.trans h.minMatch,
    h'.inLen.trans h.inLen, h'.esrc.trans h.esrc⟩

/-- No step changes the configuration or the input (42_host_commands.md R191). -/
theorem EncStep.frame (h : EncStep s e) : s.enc.SameConfig e := by
  cases h with
  | scan => unfold State.scanned; split <;> exact ⟨rfl, rfl, rfl, rfl, rfl⟩
  | emitRef => exact s.refStored_sameConfig.trans (State.emitted_sameConfig ..)
  | emitLit => exact s.litStored_sameConfig.trans (State.emitted_sameConfig ..)
  | beginFails | begins | atEnd | search | scanOver | flush => exact ⟨rfl, rfl, rfl, rfl, rfl⟩

/-- A step stores in `EFS` the entry of an operation, in `EMIT`. -/
theorem EncStep.efs_storedBelow {bound : Nat} (h : EncStep s e)
    (hlit : s.enc.phase = .emit → s.enc.bestLen.toNat < s.enc.minMatch.toNat →
      s.enc.fsLen.toNat < bound)
    (href : s.enc.phase = .emit → s.enc.minMatch.toNat ≤ s.enc.bestLen.toNat →
      s.enc.fsLen.toNat + 1 < bound) :
    Memory.StoredBelow bound s.enc.efs e.efs := by
  cases h with
  | scan => unfold State.scanned; split <;> exact .refl
  | beginFails | begins | atEnd | search | scanOver | flush => exact .refl
  | emitLit hphase hlt => exact Memory.storedBelow_write (hlit hphase hlt) _
  | emitRef hphase hle =>
    have hlast := href hphase hle
    exact .write (Memory.storedBelow_write (Nat.lt_of_succ_lt hlast) _) hlast _

/-- The bitmap after a control bit: a byte is stored when it is complete (40_encoder.md R128). -/
theorem Enc.withControlBit_ebm_storedBelow {bound : Nat} (e : Enc) (c : Bool)
    (h : e.opCount.toNat / 8 < bound) : Memory.StoredBelow bound e.ebm (e.withControlBit c).ebm := by
  rw [Enc.withControlBit]
  dsimp only
  split
  · exact Memory.storedBelow_write h _
  · exact .refl

/-- A step stores in `EBM` the byte of the next control bit, in `EMIT`, or the last one, in `FLUSH`. -/
theorem EncStep.ebm_storedBelow {bound : Nat} (h : EncStep s e)
    (hemit : s.enc.phase = .emit → s.enc.opCount.toNat / 8 < bound)
    (hflush : s.enc.phase = .flush → s.enc.opCount.toNat % 8 ≠ 0 →
      s.enc.opCount.toNat / 8 < bound) :
    Memory.StoredBelow bound s.enc.ebm e.ebm := by
  cases h with
  | scan => unfold State.scanned; split <;> exact .refl
  | beginFails | begins | atEnd | search | scanOver => exact .refl
  | emitLit hphase hlt => exact s.litStored.enc.withControlBit_ebm_storedBelow false (hemit hphase)
  | emitRef hphase hle => exact s.refStored.enc.withControlBit_ebm_storedBelow true (hemit hphase)
  | flush hphase =>
    show Memory.StoredBelow bound s.enc.ebm s.enc.flushedEbm
    unfold Enc.flushedEbm
    split
    case isTrue h8 => exact Memory.storedBelow_write (hflush hphase h8) _
    case isFalse => exact .refl

/-- In a state of the invariant a step stores in `EFS` below `IN_LEN` only, since each operation stands
for at least as many bytes of the input as its entry has (20_memory.md R66). -/
theorem EncStep.efs_storedBelow_of_inv (h : EncStep s e) (hinv : s.Inv) :
    Memory.StoredBelow s.enc.inLen.toNat s.enc.efs e.efs := by
  refine h.efs_storedBelow (fun hphase _ => ?_) fun hphase hle => ?_ <;>
    obtain ⟨-, ⟨-, hfs, -⟩, hlimits, -⟩ := hinv.enc_running (.inr (.inr (.inl hphase))) <;>
    obtain ⟨hpos, hcap, -⟩ := hlimits (.inr hphase)
  · omega
  · obtain ⟨h2, hlen, -⟩ := emit_operands hinv hphase hle
    omega

/-- In a state of the invariant a step stores in `EBM` below the length of the bitmap of `IN_LEN`
operations only (20_memory.md R66). -/
theorem EncStep.ebm_storedBelow_of_inv (h : EncStep s e) (hinv : s.Inv) :
    Memory.StoredBelow (ceil8 s.enc.inLen.toNat) s.enc.ebm e.ebm := by
  unfold ceil8
  refine h.ebm_storedBelow (fun hphase => ?_) fun hphase h8 => ?_
  · obtain ⟨-, ⟨-, -, hop, -⟩, hlimits, -⟩ := hinv.enc_running (.inr (.inr (.inl hphase)))
    obtain ⟨hpos, -⟩ := hlimits (.inr hphase)
    omega
  · obtain ⟨-, ⟨hpos, -, hop, -⟩, -⟩ := hinv.enc_running (.inr (.inr (.inr hphase)))
    omega

/-- Settles O43, by the frame of the step and the bounds of what it stores. -/
theorem encoderStepFrame : Obligations.EncoderStepFrame := by
  intro s t hinv hmoves hstep
  rw [step_of_encMoves hmoves] at hstep
  obtain ⟨e, he, rfl⟩ := encTurn_step (s := s.popped) hmoves.1 hstep
  have hinv := State.Inv_popped hinv
  obtain ⟨hcfg, hwindow, hmin, hlen, hsrc⟩ := he.frame
  have hefs := he.efs_storedBelow_of_inv hinv
  have hebm := he.ebm_storedBelow_of_inv hinv
  refine ⟨⟨rfl, rfl, rfl, rfl, rfl⟩, hcfg, hwindow, hmin, hlen, fun x => ?_, fun x hx => ?_,
    fun x hx => ?_⟩
  · exact State.byteAt_congr (s := s) (t := s.popped.setEnc e) (sp := .esrc) hsrc rfl x
  · rw [State.byteAt, State.byteAt, State.mem_efs, State.setEnc_enc, hefs.lookup_eq hx]
    rfl
  · rw [State.byteAt, State.byteAt, State.mem_ebm, State.setEnc_enc, hebm.lookup_eq hx]
    rfl

/-! The host's moves, and every step. -/

/-- A START that a write to `CTRL` runs, a register write, or nothing. -/
theorem hostRegWrite_cases {u : UnitId} {o : Nat} {v : Word} (h : hostRegWrite u o v s = .next t) :
    t = s ∨ (s.runStateOf u ≠ .busy ∧ t = s.regWrite u o v)
      ∨ (s.runStateOf u ≠ .busy ∧ ∃ mode, t = startRun u mode s) := by
  by_cases hb : s.runStateOf u = .busy
  · rw [hostRegWrite_of_busy hb] at h
    cases h
    exact .inl rfl
  by_cases ho : o = ctrlOffset
  · subst ho
    cases hcmd : decodeCommand u v with
    | ok i =>
      obtain ⟨mode, hk⟩ := hostRegWrite_start hb hcmd
      rw [hk] at h
      cases h
      exact .inr (.inr ⟨hb, mode, rfl⟩)
    | error r =>
      have hk := hostMove_ctrl_of_reserved hcmd s
      rw [hostMove, h] at hk
      cases hk
      exact .inl rfl
  · rw [hostRegWrite_of_ne_ctrl hb ho] at h
    cases h
    exact .inr (.inl ⟨hb, rfl⟩)

/-- Everything a move of the host can answer with a next state (42_host_commands.md R190). -/
theorem hostMove_cases {m : HostMove} (h : hostMove m s = .next t) :
    t = s ∨ (∃ v, t = s.giveBack v)
      ∨ (∃ u o v, s.runStateOf u ≠ .busy ∧ t = s.regWrite u o v)
      ∨ (∃ u mode, s.runStateOf u ≠ .busy ∧ t = startRun u mode s)
      ∨ ∃ sp a v, s.runStateOf (spaceOwner sp) ≠ .busy ∧ s.backed sp a = true
          ∧ t = s.setMem sp ((s.mem sp).write a v) := by
  cases m with
  | regRead u o =>
    cases h
    exact .inr (.inl ⟨_, rfl⟩)
  | regWrite u o v =>
    rcases hostRegWrite_cases h with h | ⟨hb, h⟩ | ⟨hb, mode, h⟩
    · exact .inl h
    · exact .inr (.inr (.inl ⟨u, o, v, hb, h⟩))
    · exact .inr (.inr (.inr (.inl ⟨u, mode, hb, h⟩)))
  | memRead sp a =>
    rw [hostMove] at h
    split at h
    · cases h
    · cases (load_next h).2
      exact .inr (.inl ⟨_, rfl⟩)
  | memWrite sp a v =>
    rw [hostMove] at h
    split at h
    · cases h
    case isFalse hb =>
      obtain ⟨hbacked, h⟩ := store_next h
      cases h
      exact .inr (.inr (.inr (.inr ⟨sp, a, v, hb, hbacked, rfl⟩)))

/-- Everything a step can be, in the state without its pending turn. -/
theorem step_next_cases (h : step s = .next t) :
    (s.agenda.head? = some .reset ∧ t = resetEvent s.popped)
      ∨ (∃ m, hostMove m s.popped = .next t)
      ∨ decTurn s.popped = .next t ∨ encTurn s.popped = .next t := by
  rcases step_cases s with ⟨turn, rest, ha, hs⟩ | ⟨ha, -, hs⟩ | ⟨ha, -, hs⟩ <;> rw [hs] at h
  · cases turn with
    | dec => exact .inr (.inr (.inl h))
    | enc => exact .inr (.inr (.inr h))
    | host m => exact .inr (.inl ⟨m, h⟩)
    | reset =>
      cases h
      exact .inl ⟨by rw [ha]; rfl, rfl⟩
  · rw [← State.popped_of_nil ha] at h
    exact .inr (.inr (.inl h))
  · rw [← State.popped_of_nil ha] at h
    exact .inr (.inr (.inr h))

/-- The registers that a run of a unit is configured by are the same, where the unit is `BUSY`. -/
def State.sameConfigWhileBusy (s t : State) : Prop :=
  (s.dec.runState = .busy →
    t.dec.cfg = s.dec.cfg ∧ t.dec.window = s.dec.window ∧ t.dec.srcLen = s.dec.srcLen)
  ∧ (s.enc.runState = .busy →
    t.enc.cfg = s.enc.cfg ∧ t.enc.window = s.enc.window
    ∧ t.enc.minMatch = s.enc.minMatch ∧ t.enc.inLen = s.enc.inLen)

theorem State.sameConfigWhileBusy_of_eq (hd : s.dec.runState = .busy → t.dec = s.dec)
    (he : s.enc.runState = .busy → t.enc = s.enc) : s.sameConfigWhileBusy t :=
  ⟨fun hb => by rw [hd hb]; exact ⟨rfl, rfl, rfl⟩,
    fun hb => by rw [he hb]; exact ⟨rfl, rfl, rfl, rfl⟩⟩

theorem hostMove_sameConfigWhileBusy {m : HostMove} (h : hostMove m s = .next t) :
    s.sameConfigWhileBusy t := by
  rcases hostMove_cases h with rfl | ⟨v, rfl⟩ | ⟨u, o, v, hb, rfl⟩ | ⟨u, mode, hb, rfl⟩ |
    ⟨sp, a, v, -, -, rfl⟩
  · exact State.sameConfigWhileBusy_of_eq (fun _ => rfl) fun _ => rfl
  · exact State.sameConfigWhileBusy_of_eq (fun _ => rfl) fun _ => rfl
  · cases u with
    | dec => exact State.sameConfigWhileBusy_of_eq (fun h => absurd h hb) fun _ => rfl
    | enc => exact State.sameConfigWhileBusy_of_eq (fun _ => rfl) fun h => absurd h hb
  · cases u with
    | dec => exact State.sameConfigWhileBusy_of_eq (fun h => absurd h hb) fun _ => rfl
    | enc => exact State.sameConfigWhileBusy_of_eq (fun _ => rfl) fun h => absurd h hb
  · cases sp <;> exact ⟨fun _ => ⟨rfl, rfl, rfl⟩, fun _ => ⟨rfl, rfl, rfl, rfl⟩⟩

theorem decTurn_sameConfigWhileBusy (h : decTurn s = .next t) : s.sameConfigWhileBusy t := by
  by_cases hb : s.dec.runState = .busy
  · obtain ⟨d, hd, rfl⟩ := decTurn_step hb h
    obtain ⟨hcfg, hwindow, hsrcLen, -, -⟩ := hd.frame
    exact ⟨fun _ => ⟨hcfg, hwindow, hsrcLen⟩, fun _ => ⟨rfl, rfl, rfl, rfl⟩⟩
  · rw [decTurn_of_rest hb] at h
    cases h
    exact State.sameConfigWhileBusy_of_eq (fun _ => rfl) fun _ => rfl

theorem encTurn_sameConfigWhileBusy (h : encTurn s = .next t) : s.sameConfigWhileBusy t := by
  by_cases hb : s.enc.runState = .busy
  · obtain ⟨e, he, rfl⟩ := encTurn_step hb h
    obtain ⟨hcfg, hwindow, hmin, hlen, -⟩ := he.frame
    exact ⟨fun _ => ⟨rfl, rfl, rfl⟩, fun _ => ⟨hcfg, hwindow, hmin, hlen⟩⟩
  · rw [encTurn_of_rest hb] at h
    cases h
    exact State.sameConfigWhileBusy_of_eq (fun _ => rfl) fun _ => rfl

/-- Settles O32: the host writes no register of a `BUSY` unit, and no unit writes its own. -/
theorem configurationIsFrozenWhileBusy : Obligations.ConfigurationIsFrozenWhileBusy := by
  intro s t hstep hreset
  rcases step_next_cases hstep with ⟨hr, -⟩ | ⟨m, h⟩ | h | h
  · exact absurd hr hreset
  · exact hostMove_sameConfigWhileBusy (s := s.popped) h
  · exact decTurn_sameConfigWhileBusy (s := s.popped) h
  · exact encTurn_sameConfigWhileBusy (s := s.popped) h

/-- The platform and the epoch are the same, and what is unwritten was unwritten before. -/
structure State.OnlyWrites (s t : State) : Prop where
  plat : t.plat = s.plat
  epoch : t.epoch = s.epoch
  lookup : ∀ sp x, (t.mem sp).lookup x = none → (s.mem sp).lookup x = none

theorem State.OnlyWrites.byteAt (h : s.OnlyWrites t) {sp : Space} {x : Nat}
    (hx : (t.mem sp).lookup x = none) : t.byteAt sp x = s.byteAt sp x := by
  rw [State.byteAt, State.byteAt, hx, h.lookup sp x hx, h.epoch]

@[simp] theorem State.mem_setMem_same (s : State) (sp : Space) (m : Memory) :
    (s.setMem sp m).mem sp = m := by cases sp <;> rfl

theorem State.mem_setMem_other (s : State) {sp sp' : Space} (m : Memory) (h : sp' ≠ sp) :
    (s.setMem sp m).mem sp' = s.mem sp' := by
  cases sp <;> cases sp' <;> simp_all

@[simp] theorem State.setMem_plat (s : State) (sp : Space) (m : Memory) :
    (s.setMem sp m).plat = s.plat := by cases sp <;> rfl

@[simp] theorem State.setMem_epoch (s : State) (sp : Space) (m : Memory) :
    (s.setMem sp m).epoch = s.epoch := by cases sp <;> rfl

theorem State.onlyWrites_of_mem (hp : t.plat = s.plat) (he : t.epoch = s.epoch)
    (hm : ∀ sp, t.mem sp = s.mem sp) : s.OnlyWrites t :=
  ⟨hp, he, fun sp x h => by rwa [hm] at h⟩

theorem hostMove_onlyWrites {m : HostMove} (h : hostMove m s = .next t) : s.OnlyWrites t := by
  rcases hostMove_cases h with rfl | ⟨v, rfl⟩ | ⟨u, o, v, -, rfl⟩ | ⟨u, mode, -, rfl⟩ |
    ⟨sp, a, v, -, -, rfl⟩
  · exact State.onlyWrites_of_mem rfl rfl fun _ => rfl
  · exact State.onlyWrites_of_mem rfl rfl fun sp => by cases sp <;> rfl
  · exact State.onlyWrites_of_mem (State.regWrite_plat ..) (State.regWrite_epoch ..)
      fun sp => State.mem_regWrite ..
  · exact State.onlyWrites_of_mem (startRun_plat ..) (startRun_epoch ..)
      fun sp => by cases u <;> cases sp <;> rfl
  · have hstored : Memory.StoredBelow (a + 1) (s.mem sp) ((s.mem sp).write a v) :=
      Memory.storedBelow_write (Nat.lt_succ_self a) v
    refine ⟨State.setMem_plat .., State.setMem_epoch .., fun sp' x hx => ?_⟩
    by_cases hsp : sp' = sp
    · subst hsp
      rw [State.mem_setMem_same] at hx
      exact hstored.lookup_eq_none hx
    · rwa [State.mem_setMem_other _ _ hsp] at hx

theorem decTurn_onlyWrites (h : decTurn s = .next t) : s.OnlyWrites t := by
  by_cases hb : s.dec.runState = .busy
  · obtain ⟨d, hd, rfl⟩ := decTurn_step hb h
    obtain ⟨-, -, -, -, hsrc⟩ := hd.frame
    have hout := hd.dout_storedBelow (bound := d.uncompSize.toNat + s.dec.outPos.toNat + 1)
      (fun _ _ => by omega) (fun _ => by omega) fun _ _ => by omega
    refine ⟨rfl, rfl, fun sp x hx => ?_⟩
    cases sp with
    | dsrc => rwa [State.mem_dsrc, ← hsrc]
    | dout => exact hout.lookup_eq_none hx
    | esrc | ebm | efs => exact hx
  · rw [decTurn_of_rest hb] at h
    cases h
    exact State.onlyWrites_of_mem rfl rfl fun _ => rfl

theorem encTurn_onlyWrites (h : encTurn s = .next t) : s.OnlyWrites t := by
  by_cases hb : s.enc.runState = .busy
  · obtain ⟨e, he, rfl⟩ := encTurn_step hb h
    obtain ⟨-, -, -, -, hsrc⟩ := he.frame
    have hefs := he.efs_storedBelow (bound := s.enc.fsLen.toNat + 2) (fun _ _ => by omega)
      fun _ _ => by omega
    have hebm := he.ebm_storedBelow (bound := s.enc.opCount.toNat / 8 + 1) (fun _ => by omega)
      fun _ _ => by omega
    refine ⟨rfl, rfl, fun sp x hx => ?_⟩
    cases sp with
    | dsrc | dout => exact hx
    | esrc => rwa [State.mem_esrc, ← hsrc]
    | ebm => exact hebm.lookup_eq_none hx
    | efs => exact hefs.lookup_eq_none hx
  · rw [encTurn_of_rest hb] at h
    cases h
    exact State.onlyWrites_of_mem rfl rfl fun _ => rfl

/-- Settles O49: short of a reset every step only writes. -/
theorem platformAndUnwrittenBytesAreStable : Obligations.PlatformAndUnwrittenBytesAreStable := by
  intro s t hstep
  have hstable (h : s.popped.OnlyWrites t) : t.plat = s.plat ∧ (s.agenda.head? ≠ some .reset →
      ∀ sp x, (t.mem sp).lookup x = none → t.byteAt sp x = s.byteAt sp x) :=
    ⟨h.plat, fun _ sp x hx => (h.byteAt hx).trans (State.popped_byteAt ..)⟩
  rcases step_next_cases hstep with ⟨hr, rfl⟩ | ⟨m, h⟩ | h | h
  · exact ⟨rfl, fun hreset => absurd hr hreset⟩
  · exact hstable (hostMove_onlyWrites h)
  · exact hstable (decTurn_onlyWrites h)
  · exact hstable (encTurn_onlyWrites h)

end Sys2Proof.Machine
end

section
/-! PROOF. The invariant of the decoder is kept by its own step (10_state.md R54, R58). -/

namespace Sys2Proof.Machine

variable {s t : State} {d : Dec}

/-! Which parts of the invariant depend on which unit. -/

theorem State.encOk_congr (he : t.enc = s.enc) (hp : t.plat = s.plat) (hepoch : t.epoch = s.epoch)
    (h : s.encOk) : t.encOk := by
  have hb : ∀ a, t.byteAt .esrc a = s.byteAt .esrc a := fun a =>
    State.byteAt_congr (by rw [State.mem_esrc, State.mem_esrc, he]) hepoch a
  have hl : ∀ d, t.matchAt d = s.matchAt d := fun d => by
    simp only [State.matchAt, he, matchLen_congr hb]
  simpa only [State.encOk, State.encExtentsOk, State.searchOk, State.bestAmong, he, hp, hl] using h

/-- A change of the decoder unit keeps the invariant when the unit's own part of it holds after it. -/
theorem State.Inv.setDec (hinv : s.Inv) (hsrc : d.dsrc = s.dec.dsrc)
    (hout : (s.setDec d).spaceOk .dout) (hdec : (s.setDec d).decOk) : (s.setDec d).Inv := by
  obtain ⟨hplat, ⟨hspace, -, hesrc, hebm, hefs⟩, -, henc⟩ := hinv
  have hspace' : (s.setDec d).spaceOk .dsrc := by
    rw [State.spaceOk, State.mem_dsrc, State.setDec_dec, hsrc]
    exact hspace
  exact ⟨hplat, ⟨hspace', hout, hesrc, hebm, hefs⟩, hdec, State.encOk_congr (s := s) rfl rfl rfl henc⟩

/-! A unit that is not running. -/

/-- Out of a run nothing is asked of the cursors. -/
theorem State.decOk_of_halt (hstatus : s.dec.statusOk) (hphase : s.dec.phase = .halt) : s.decOk := by
  refine ⟨hstatus, fun h => ?_, fun h => ?_⟩
  · rw [hphase] at h
    cases h
  · simp [Dec.running, hphase] at h

theorem Dec.failed_statusOk (d : Dec) (kind : ErrorKind) (p : Nat) : (d.failed kind p).statusOk := by
  simp [Dec.statusOk, Dec.failed]

theorem Dec.finished_statusOk (hb : d.runState = .busy) (hs : d.statusOk) : d.finished.statusOk := by
  obtain ⟨-, herr, -⟩ := hs
  have herr : d.err = none := herr.mpr (by rw [hb]; decide)
  unfold Dec.finished
  split_ifs
  · simp [Dec.statusOk, herr]
  · simp [Dec.statusOk, Dec.failed]
  · simp [Dec.statusOk, herr]

/-! A run that goes on. -/

/-- What the invariant asks past `BEGIN`. -/
abbrev State.decRunOk (s : State) : Prop :=
  s.decExtentsOk ∧ s.dec.cursorsOk ∧ s.dec.copyOk ∧ s.ctrlSrOk ∧ s.tailZero

/-- A run goes on: the status is as it was, and the unit is past `BEGIN`. -/
theorem State.decOk_of_goesOn (hb : s.dec.runState = .busy) (hs : s.dec.statusOk)
    (hrun : d.runState = s.dec.runState) (herr : d.err = s.dec.err)
    (hunder : d.underfill = s.dec.underfill) (hr : d.running) (hok : (s.setDec d).decRunOk) :
    (s.setDec d).decOk := by
  obtain ⟨-, hnone, hflag⟩ := hs
  have hhalt : d.phase ≠ .halt := by
    rcases hr with h | h | h | h <;> rw [h] <;> decide
  have hbegin : d.phase ≠ .begin_ := by
    rcases hr with h | h | h | h <;> rw [h] <;> decide
  refine ⟨⟨?_, ?_, ?_⟩, fun h => absurd h hbegin, fun _ => hok⟩
  · rw [State.setDec_dec, hrun, hb]
    exact iff_of_false hhalt (by decide)
  · rw [State.setDec_dec, hrun, herr]
    exact hnone
  · rw [State.setDec_dec, hrun, hunder]
    exact hflag

/-- `BEGIN` leaves the cursors at 0 and the output clear (42_host_commands.md R195). -/
theorem decRunOk_outputCleared (hinv : s.Inv) (hphase : s.dec.phase = .begin_)
    (hd : s.dec.DescribedBy d) (hext : (s.setDec d).decExtentsOk) :
    (s.setDec d.outputCleared).decRunOk := by
  obtain ⟨-, -, ⟨-, hbegin, -⟩, -⟩ := hinv
  obtain ⟨hidx, hfs, hout, -⟩ := hbegin hphase
  obtain ⟨_, _, _, _, _, _, heq⟩ := hd.same
  have hclear := State.byteAt_outputCleared (s := s) (d := d) (by rw [heq]) (by rw [heq]) .dout
  subst heq
  refine ⟨hext, ?_, ?_, ?_, fun j hj _ => (hclear j).trans (if_pos ⟨rfl, hj⟩)⟩
  · simp [Dec.cursorsOk, Dec.outputCleared, hidx, hfs, hout]
  · simp [Dec.copyOk, Dec.outputCleared]
  · simp [State.ctrlSrOk, Dec.outputCleared, hidx]

/-- Where the run is not over, an operation and a byte of output are left. -/
theorem room_of_not_runOver (hinv : s.Inv) (hr : s.dec.running) (h : ¬ s.dec.runOver) :
    s.dec.opIdx.toNat < s.dec.opCount.toNat ∧ s.dec.outPos.toNat < s.dec.uncompSize.toNat := by
  obtain ⟨-, ⟨hidx, -⟩, -⟩ := hinv.dec_running hr
  refine ⟨Nat.lt_of_le_of_ne hidx fun heq => h (.inl (BitVec.eq_of_toNat_eq heq)), ?_⟩
  exact Nat.lt_of_not_le fun hle => h (.inr hle)

/-- `OP` leaves the bits above the one it takes, and an operation to run (41_decoder.md R155). -/
theorem decRunOk_fetched (hinv : s.Inv) (hphase : s.dec.phase = .op) (hover : ¬ s.dec.runOver)
    (hthere : ¬ s.dec.bitmapMissing) : (s.setDec (s.dec.fetched s.shiftedByte)).decRunOk := by
  have hr : s.dec.running := .inl hphase
  obtain ⟨hext, ⟨hidx, hfs, hout, -, -⟩, -, -, hzero⟩ := hinv.dec_running hr
  obtain ⟨hop, hroom⟩ := room_of_not_runOver hinv hr hover
  have hbyte := bitmap_has_byte hinv hphase hthere
  rw [shiftedByte_of_inv hinv hphase, Dec.fetched_shift]
  have hnotOp : (if s.bitmapByte.getLsbD (s.dec.opIdx.toNat % 8) = true then DecPhase.ref
      else .lit) ≠ .op := by split <;> decide
  refine ⟨hext, ⟨hidx, hfs, hout, fun _ => hop, fun _ => hroom⟩, fun h => ?_,
    fun _ => ⟨hbyte, ?_⟩, hzero⟩
  · rw [State.setDec_dec] at h
    dsimp only at h
    split at h <;> cases h
  · rw [State.setDec_dec, Dec.bitsUsed, if_neg hnotOp]
    rfl

/-- `REF` leaves operands in the domain of `Pack` (30_encoding.md R101, 41_decoder.md R157). -/
theorem decRunOk_copying (hinv : s.Inv) (hphase : s.dec.phase = .ref)
    (hentry : s.dec.fsPos.toNat + 2 ≤ s.dec.fsLen.toNat) :
    (s.setDec (s.dec.copying (unpackOffset s.dec.split.lengthBits s.fieldAtCursor)
      (unpackLength s.dec.split.lengthBits s.fieldAtCursor))).decRunOk := by
  obtain ⟨hext, ⟨hidx, -, hout, hop, hroom⟩, -, hctrl, hzero⟩ :=
    hinv.dec_running (.inr (.inr (.inl hphase)))
  have hop := hop (.inr (.inl hphase))
  have hfield : s.fieldAtCursor < 2 ^ 16 := le16_lt ..
  obtain ⟨hoffset, hlength⟩ := toNat_toCount_unpack s.dec.split.lengthBits hfield
  have hvalid : s.dec.split.valid = true :=
    Split.valid_iff.mpr (s.dec.cfgValid_iff.mp hext.1).1
  obtain ⟨ho, ho', hl, hl'⟩ := Split.admits_iff.mp (admits_unpack hvalid hfield)
  rw [unpackOffset_eq, ← hoffset] at ho ho'
  rw [unpackLength_eq, ← hlength] at hl hl'
  have hfs : (toWord (s.dec.fsPos.toNat + 2)).toNat = s.dec.fsPos.toNat + 2 :=
    toNat_toWord (lt_of_le_of_lt hentry s.dec.fsLen.isLt)
  have hctrl := hctrl (by simp [hphase])
  rw [Dec.bitsUsed, if_neg (by rw [hphase]; decide)] at hctrl
  refine ⟨hext, ⟨hidx, hfs.trans_le hentry, hout, fun _ => hop, fun h => ?_⟩,
    fun _ => ⟨hl, hl', ho, ho', hfs.symm ▸ Nat.le_add_left ..⟩, fun _ => hctrl, hzero⟩
  simp [Dec.copying] at h

/-- A byte of output and the end of its operation, or of a part of it: the cursors have moved, and the
rest of the output is still clear (41_decoder.md R156, R158). -/
structure Dec.Advanced (d d' : Dec) : Prop where
  outPos : d'.outPos.toNat = d.outPos.toNat + 1
  fsPos : d.fsPos.toNat ≤ d'.fsPos.toNat ∧ d'.fsPos.toNat ≤ d.fsLen.toNat
  kept : d' = { d with
    outPos := d'.outPos, fsPos := d'.fsPos, opIdx := d'.opIdx, curRemain := d'.curRemain
    phase := d'.phase }
  next : (d'.phase = .op ∧ d'.opIdx.toNat = d.opIdx.toNat + 1)
    ∨ (d.phase = .copy ∧ d'.phase = .copy ∧ d'.opIdx = d.opIdx ∧ 1 ≤ d'.curRemain.toNat
        ∧ d'.curRemain.toNat ≤ d.curRemain.toNat)

theorem Dec.afterLit_advanced (d : Dec) (hidx : d.opIdx.toNat < d.opCount.toNat)
    (hentry : d.fsPos.toNat + 1 ≤ d.fsLen.toNat) (hroom : d.outPos.toNat < d.uncompSize.toNat) :
    d.Advanced d.afterLit := by
  have := d.opCount.isLt
  have := d.fsLen.isLt
  have := d.uncompSize.isLt
  have hfs : d.afterLit.fsPos.toNat = d.fsPos.toNat + 1 := toNat_toWord (by omega)
  exact ⟨toNat_toWord (by omega), by omega, rfl, .inl ⟨rfl, toNat_toWord (by omega)⟩⟩

theorem Dec.afterCopy_advanced (d : Dec) (hphase : d.phase = .copy)
    (hidx : d.opIdx.toNat < d.opCount.toNat) (hfs : d.fsPos.toNat ≤ d.fsLen.toNat)
    (hroom : d.outPos.toNat < d.uncompSize.toNat) (hremain : 1 ≤ d.curRemain.toNat) :
    d.Advanced d.afterCopy := by
  have := d.opCount.isLt
  have := d.uncompSize.isLt
  have := d.curRemain.isLt
  refine ⟨toNat_toWord (by omega), ⟨Nat.le_refl _, hfs⟩, rfl, ?_⟩
  by_cases hlast : d.curRemain.toNat = 1
  · exact .inl ⟨if_pos hlast, by
      rw [show d.afterCopy.opIdx = toWord (d.opIdx.toNat + 1) from if_pos hlast]
      exact toNat_toWord (by omega)⟩
  · have hrest : d.afterCopy.curRemain.toNat = d.curRemain.toNat - 1 := toNat_toCount (by omega)
    exact .inr ⟨hphase, if_neg hlast, if_neg hlast, by omega, by omega⟩

/-- A byte of output keeps what the invariant asks past `BEGIN`. -/
theorem decRunOk_withOutput (hinv : s.Inv) (hphase : s.dec.phase = .lit ∨ s.dec.phase = .copy)
    (hroom : s.dec.outPos.toNat < s.dec.uncompSize.toNat) (hd : s.dec.Advanced d) (v : Byte) :
    (s.withOutput d v).decRunOk := by
  have hr : s.dec.running := by rcases hphase with h | h <;> simp [Dec.running, h]
  have hnotOp : s.dec.phase ≠ .op := by rcases hphase with h | h <;> rw [h] <;> decide
  obtain ⟨hext, ⟨-, -, -, hop, -⟩, hcopy, hctrl, hzero⟩ := hinv.dec_running hr
  have hop := hop (by rcases hphase with h | h <;> simp [h])
  obtain ⟨hbyte, hsr⟩ := hctrl fun h => hnotOp h.1
  rw [Dec.bitsUsed, if_neg hnotOp] at hsr
  obtain ⟨hout, ⟨hfs, hfs'⟩, hkept, hnext⟩ := hd
  obtain ⟨outPos, fsPos, opIdx, curRemain, phase, rfl⟩ : ∃ a b c e p, d = { s.dec with
      outPos := a, fsPos := b, opIdx := c, curRemain := e, phase := p } := ⟨_, _, _, _, _, hkept⟩
  clear hkept
  dsimp only at hout hfs hfs' hnext
  have hclear : ∀ j < s.dec.uncompSize.toNat, outPos.toNat ≤ j → _ :=
    fun j hj hle => (State.byteAt_withOutput (s := s) rfl v .dout j).trans
      ((if_neg fun h => by omega).trans (hzero j hj (by omega)))
  rcases hnext with ⟨rfl, hidx⟩ | ⟨hcopying, rfl, rfl, h1, hremain⟩
  · refine ⟨hext, ⟨by simp only [State.withOutput, State.setDec_dec]; omega, hfs', hout.trans_le hroom,
      fun h => ?_, fun h => ?_⟩, fun h => ?_, fun h => ?_, hclear⟩
    · simp [State.withOutput] at h
    · simp [State.withOutput] at h
    · simp [State.withOutput] at h
    · simp only [State.withOutput, State.setDec_dec, true_and] at h
      have hmod : opIdx.toNat % 8 = s.dec.opIdx.toNat % 8 + 1 := by omega
      have hdiv : opIdx.toNat / 8 = s.dec.opIdx.toNat / 8 := by omega
      simp only [State.withOutput, State.setDec_dec, Dec.bitsUsed, hdiv, hmod]
      exact ⟨hbyte, hsr⟩
  · obtain ⟨-, hlen, ho, ho', h2⟩ := hcopy hcopying
    refine ⟨hext, ⟨Nat.le_of_lt hop, hfs', hout.trans_le hroom, fun _ => hop, fun h => ?_⟩,
      fun _ => ⟨h1, hremain.trans hlen, ho, ho', h2.trans hfs⟩, fun _ => ⟨hbyte, hsr⟩, hclear⟩
    simp [State.withOutput] at h

/-! The step. -/

/-- A step that opens the output leaves the extents of a run (42_host_commands.md R195). -/
theorem DecStep.extents_of_begin (h : DecStep s d) (hphase : s.dec.phase = .begin_)
    (hop : d.phase = .op) : d.uncompSize.toNat ≤ s.plat.doutCap := by
  cases h with
  | begins _ _ hext =>
    obtain ⟨-, -, hout, -⟩ := hext
    exact hout
  | beginFails => cases hop
  | finish h | bitmapMissing h | fetch h | lit h | ref h | copyFails h | copy h | copyNothing h =>
    exact absurd (hphase.symm.trans h) (by decide)
  | entryMissing => cases hop

/-- The output stays in canonical form, since nothing is stored past the capacity. -/
theorem DecStep.spaceOk_dout (h : DecStep s d) (hinv : s.Inv) : (s.setDec d).spaceOk .dout := by
  obtain ⟨⟨-, hcap, -⟩, ⟨-, ⟨hwf, hbelow⟩, -⟩, -⟩ := id hinv
  have hroom (hr : s.dec.running) (hlt : s.dec.outPos.toNat < s.dec.uncompSize.toNat) :
      s.dec.outPos.toNat < s.plat.doutCap := by
    obtain ⟨⟨-, -, hout, -⟩, -⟩ := hinv.dec_running hr
    exact Nat.lt_of_lt_of_le hlt hout
  have hstored : Memory.StoredBelow s.plat.doutCap s.dec.dout d.dout :=
    h.dout_storedBelow h.extents_of_begin
      (fun hphase => hroom (.inr (.inl hphase)) (by
        obtain ⟨-, ⟨-, -, -, -, hout⟩, -⟩ := hinv.dec_running (.inr (.inl hphase))
        exact hout (.inl hphase)))
      fun hphase hfits => hroom (.inr (.inr (.inr hphase)))
        (Nat.lt_of_not_le fun hle => hfits (.inl hle))
  exact ⟨hstored.wf hwf hcap, hstored.addr_lt hbelow (Nat.le_refl _)⟩

/-- A byte of output keeps the unit's part of the invariant. -/
theorem decOk_withOutput (hinv : s.Inv) (hb : s.dec.runState = .busy)
    (hphase : s.dec.phase = .lit ∨ s.dec.phase = .copy)
    (hroom : s.dec.outPos.toNat < s.dec.uncompSize.toNat) (hd : s.dec.Advanced d) (v : Byte) :
    (s.withOutput d v).decOk := by
  obtain ⟨-, -, ⟨hstatus, -⟩, -⟩ := id hinv
  have hok := decRunOk_withOutput hinv hphase hroom hd v
  have hr : d.running := by rcases hd.next with ⟨h, -⟩ | ⟨-, h, -⟩ <;> simp [Dec.running, h]
  have hkept := hd.kept
  rw [State.withOutput] at hok ⊢
  refine State.decOk_of_goesOn hb hstatus ?_ ?_ ?_ hr hok <;> rw [hkept]

/-- Every step of the decoder keeps its part of the invariant. -/
theorem DecStep.decOk (h : DecStep s d) (hinv : s.Inv) (hb : s.dec.runState = .busy) :
    (s.setDec d).decOk := by
  obtain ⟨-, -, ⟨hstatus, -⟩, -⟩ := id hinv
  have failed (d : Dec) (kind : ErrorKind) (p : Nat) : (s.setDec (d.failed kind p)).decOk :=
    State.decOk_of_halt (d.failed_statusOk kind p) rfl
  cases h with
  | beginFails | bitmapMissing | entryMissing | copyFails => exact failed ..
  | begins hphase hd hext =>
    have hok := decRunOk_outputCleared hinv hphase hd hext
    obtain ⟨_, _, _, _, _, _, rfl⟩ := hd.same
    exact State.decOk_of_goesOn hb hstatus rfl rfl rfl (.inl rfl) hok
  | finish =>
    refine State.decOk_of_halt (Dec.finished_statusOk hb hstatus) ?_
    rw [State.setDec_dec, Dec.finished_eq]
  | fetch hphase hover hthere =>
    refine State.decOk_of_goesOn hb hstatus rfl rfl rfl ?_
      (decRunOk_fetched hinv hphase hover hthere)
    rw [Dec.fetched]
    split <;> simp [Dec.running]
  | ref hphase hentry =>
    exact State.decOk_of_goesOn hb hstatus rfl rfl rfl (.inr (.inr (.inr rfl)))
      (decRunOk_copying hinv hphase hentry)
  | lit hphase hentry =>
    obtain ⟨-, ⟨-, -, -, hop, hroom⟩, -⟩ := hinv.dec_running (.inr (.inl hphase))
    have hroom := hroom (.inl hphase)
    exact decOk_withOutput hinv hb (.inl hphase) hroom
      (s.dec.afterLit_advanced (hop (.inl hphase)) hentry hroom) _
  | copy hphase hfits hremain =>
    obtain ⟨-, ⟨-, hfs, -, hop, -⟩, -⟩ := hinv.dec_running (.inr (.inr (.inr hphase)))
    have hroom := Nat.lt_of_not_le fun hle => hfits (.inl hle)
    exact decOk_withOutput hinv hb (.inr hphase) hroom
      (s.dec.afterCopy_advanced hphase (hop (.inr (.inr hphase))) hfs hroom hremain) _
  | copyNothing hphase _ hremain =>
    obtain ⟨-, -, hcopy, -⟩ := hinv.dec_running (.inr (.inr (.inr hphase)))
    obtain ⟨h1, -⟩ := hcopy hphase
    omega

theorem DecStep.inv (h : DecStep s d) (hinv : s.Inv) (hb : s.dec.runState = .busy) :
    (s.setDec d).Inv := by
  obtain ⟨-, -, -, -, hsrc⟩ := h.frame
  exact hinv.setDec hsrc (h.spaceOk_dout hinv) (h.decOk hinv hb)

theorem decTurn_inv (hinv : s.Inv) (h : decTurn s = .next t) : t.Inv := by
  by_cases hb : s.dec.runState = .busy
  · obtain ⟨d, hd, rfl⟩ := decTurn_step hb h
    exact hd.inv hinv hb
  · rw [decTurn_of_rest hb] at h
    cases h
    exact hinv

/-! A turn of the decoder always answers. -/

theorem runOperation_progress {ctrl : Bool} (hinv : s.Inv)
    (hphase : s.dec.phase = if ctrl then .ref else .lit) : ∃ t, runOperation ctrl s = .next t := by
  by_cases hmissing : s.dec.fsLen.toNat < s.dec.fsPos.toNat + entryLength ctrl
  · exact ⟨_, runOperation_of_entryMissing hmissing⟩
  · cases ctrl with
    | false => exact ⟨_, runOperation_lit_of_inv hinv hphase hmissing⟩
    | true => exact ⟨_, runOperation_ref_of_inv hinv (.inr (.inr (.inl hphase))) hmissing⟩

theorem decOp_progress (hinv : s.Inv) (hphase : s.dec.phase = .op) : ∃ t, decOp s = .next t := by
  by_cases hover : s.dec.runOver
  · exact ⟨_, decOp_of_runOver hover⟩
  by_cases hmissing : s.dec.bitmapMissing
  · exact ⟨_, decOp_of_bitmapMissing hover hmissing⟩
  · exact ⟨_, decOp_of_inv hinv hphase hover hmissing⟩

theorem decCopy_progress (hinv : s.Inv) (hphase : s.dec.phase = .copy) :
    ∃ t, decCopy s = .next t := by
  by_cases hfails : s.dec.copyFails
  · exact ⟨_, decCopy_of_copyFails hfails⟩
  · exact ⟨_, decCopy_of_inv hinv hphase hfails⟩

/-- In a state of the invariant a turn of `DEC` answers a next state (41_decoder.md R154). -/
theorem decTurn_progress (hinv : s.Inv) : ∃ t, decTurn s = .next t := by
  by_cases hb : s.dec.runState = .busy
  case neg => exact ⟨s, decTurn_of_rest hb⟩
  cases hp : s.dec.phase with
  | halt =>
    obtain ⟨-, -, ⟨⟨hhalt, -⟩, -⟩, -⟩ := hinv
    exact absurd hb (hhalt.mp hp)
  | begin_ =>
    obtain ⟨d, -, hk⟩ := decBegin_step hp
    exact ⟨_, (decTurn_begin hb hp).trans hk⟩
  | op => rw [decTurn_op hb hp]; exact decOp_progress hinv hp
  | lit => rw [decTurn_lit hb hp]; exact runOperation_progress (ctrl := false) hinv hp
  | ref => rw [decTurn_ref hb hp]; exact runOperation_progress (ctrl := true) hinv hp
  | copy => rw [decTurn_copy hb hp]; exact decCopy_progress hinv hp

end Sys2Proof.Machine
end

section
/-! PROOF. The invariant of the encoder is kept by its own step (10_state.md R25, R49, R55, R58). -/

namespace Sys2Proof.Machine

variable {s t : State} {e : Enc}

/-- A change of the encoder unit keeps the invariant when the unit's own part of it holds after it. -/
theorem State.Inv.setEnc (hinv : s.Inv) (hsrc : e.esrc = s.enc.esrc)
    (hebm : (s.setEnc e).spaceOk .ebm) (hefs : (s.setEnc e).spaceOk .efs)
    (henc : (s.setEnc e).encOk) : (s.setEnc e).Inv := by
  obtain ⟨hplat, ⟨hdsrc, hdout, hesrc, -, -⟩, hdec, -⟩ := hinv
  have hspace : (s.setEnc e).spaceOk .esrc := by
    rw [State.spaceOk, State.mem_esrc, State.setEnc_enc, hsrc]
    exact hesrc
  exact ⟨hplat, ⟨hdsrc, hdout, hspace, hebm, hefs⟩, hdec, henc⟩

/-! A unit that is not running. -/

/-- Out of a run nothing is asked of the counters. -/
theorem State.encOk_of_halt (hstatus : s.enc.statusOk) (hphase : s.enc.phase = .halt) : s.encOk := by
  have hb : s.enc.runState ≠ .busy := hstatus.1.mp hphase
  refine ⟨hstatus, fun h => ?_, fun h => absurd h hb, fun h => ?_⟩
  · rw [hphase] at h
    cases h
  · simp [Enc.running, hphase] at h

theorem Enc.failed_statusOk (e : Enc) (kind : ErrorKind) : (e.failed kind).statusOk := by
  simp [Enc.statusOk, Enc.failed]

theorem Enc.flushed_statusOk {e : Enc} (hb : e.runState = .busy) (hs : e.statusOk) :
    e.flushed.statusOk := by
  obtain ⟨-, herr⟩ := hs
  have herr : e.err = none := herr.mpr (by rw [hb]; decide)
  simp [Enc.statusOk, Enc.flushed, herr]

/-! A run that goes on. -/

/-- What the invariant asks past `BEGIN`. -/
abbrev State.encRunOk (s : State) : Prop :=
  s.encExtentsOk ∧ s.enc.countersOk ∧ s.searchOk

/-- A run goes on: the status and the results are as they were, and the unit is past `BEGIN`. -/
theorem State.encOk_of_goesOn (hb : s.enc.runState = .busy) (hs : s.enc.statusOk)
    (hrun : e.runState = s.enc.runState) (herr : e.err = s.enc.err)
    (hresults : e.uncompSize = 0 ∧ e.bmLen = 0) (hr : e.running) (hok : (s.setEnc e).encRunOk) :
    (s.setEnc e).encOk := by
  obtain ⟨-, hnone⟩ := hs
  have hhalt : e.phase ≠ .halt := by
    rcases hr with h | h | h | h <;> rw [h] <;> decide
  have hbegin : e.phase ≠ .begin_ := by
    rcases hr with h | h | h | h <;> rw [h] <;> decide
  refine ⟨⟨?_, ?_⟩, fun h => absurd h hbegin, fun _ => hresults, fun _ => hok⟩
  · rw [State.setEnc_enc, hrun, hb]
    exact iff_of_false hhalt (by decide)
  · rw [State.setEnc_enc, hrun, herr]
    exact hnone

/-- Outside `SCAN` and `EMIT` nothing is asked of the search. -/
theorem State.searchOk_of_phase (h1 : s.enc.phase ≠ .scan) (h2 : s.enc.phase ≠ .emit) : s.searchOk :=
  ⟨fun h => (h.elim h1 h2).elim, fun h => absurd h h1, fun h => absurd h h2⟩

/-- `BEGIN` has checked the extents and cleared the counters (40_encoder.md R132). -/
theorem encRunOk_begun (hconfig : ¬ s.enc.configFails) (hcap : ¬ s.encCapacityFails) :
    (s.setEnc s.enc.begun).encRunOk := by
  simp only [Enc.configFails, not_or, Classical.not_not, not_lt] at hconfig
  simp only [State.encCapacityFails, not_or, not_lt] at hcap
  obtain ⟨hcfg, hmin⟩ := hconfig
  refine ⟨⟨s.enc.cfgValid_iff.mpr hcfg, hmin, hcap⟩, ?_, State.searchOk_of_phase ?_ ?_⟩
  · simp [Enc.countersOk, Enc.begun]
  · simp [Enc.begun]
  · simp [Enc.begun]

/-- `POS` at the end of the input leaves what `FLUSH` asks for (40_encoder.md R133). -/
theorem encRunOk_atEnd (hinv : s.Inv) (hr : s.enc.running) (hend : s.enc.pos = s.enc.inLen) :
    (s.setEnc { s.enc with phase := .flush }).encRunOk := by
  obtain ⟨hext, ⟨hpos, hfs, hop, hacc, -⟩, -⟩ := hinv.enc_running hr
  exact ⟨hext, ⟨hpos, hfs, hop, hacc, fun _ => hend⟩, State.searchOk_of_phase (by simp) (by simp)⟩

/-! The search. -/

/-- A match length depends on the input, the position and the cap alone. -/
theorem matchAt_setEnc (hsrc : e.esrc = s.enc.esrc) (hpos : e.pos = s.enc.pos)
    (hcap : e.cap = s.enc.cap) (d : Nat) : (s.setEnc e).matchAt d = s.matchAt d := by
  rw [State.matchAt, State.matchAt, State.setEnc_enc, hpos, hcap]
  exact matchLen_congr (fun a => State.byteAt_congr (s := s) (t := s.setEnc e) (sp := .esrc) hsrc rfl a)
    ..

/-- Before the first candidate nothing has matched (40_encoder.md R133). -/
theorem bestAmong_zero (hlen : s.enc.bestLen = 0) (hoff : s.enc.bestOff = 0) : s.bestAmong 0 := by
  refine ⟨fun d h0 h1 => by omega, fun d hd h1 => ?_, fun _ => by rw [hoff]; rfl, fun h => ?_⟩
  · rw [hoff] at hd
    simp at hd
  · rw [hlen] at h
    simp at h

/-- The best match so far and one more candidate (40_encoder.md R134). -/
theorem bestAmong_succ {n : Nat} (h : s.bestAmong n)
    (heq : ∀ d, (s.setEnc e).matchAt d = s.matchAt d)
    (hbest : if s.enc.bestLen.toNat < s.matchAt (n + 1) then
        e.bestLen.toNat = s.matchAt (n + 1) ∧ e.bestOff.toNat = n + 1
      else e.bestLen = s.enc.bestLen ∧ e.bestOff = s.enc.bestOff) :
    (s.setEnc e).bestAmong (n + 1) := by
  obtain ⟨hle, hnearest, hzero, hattained⟩ := h
  simp only [State.bestAmong, State.setEnc_enc, heq]
  split at hbest
  case isTrue hlt =>
    obtain ⟨hlen, hoff⟩ := hbest
    rw [hlen, hoff]
    refine ⟨fun d hd h1 => ?_, fun d hd h1 => ?_, fun h0 => by omega,
      fun _ => ⟨by omega, Nat.le_refl _, rfl⟩⟩
    · rcases Nat.le_succ_iff.mp hd with hd | rfl
      · exact (hle d hd h1).trans (Nat.le_of_lt hlt)
      · exact Nat.le_refl _
    · exact lt_of_le_of_lt (hle d (Nat.le_of_lt_succ hd) h1) hlt
  case isFalse hnot =>
    obtain ⟨hlen, hoff⟩ := hbest
    rw [hlen, hoff]
    refine ⟨fun d hd h1 => ?_, hnearest, hzero, fun h => ?_⟩
    · rcases Nat.le_succ_iff.mp hd with hd | rfl
      · exact hle d hd h1
      · exact Nat.le_of_not_lt hnot
    · obtain ⟨h1, hn, heq⟩ := hattained h
      exact ⟨h1, Nat.le_succ_of_le hn, heq⟩

/-- `POS` before the end of the input begins a search (40_encoder.md R133). -/
theorem encRunOk_searching (hinv : s.Inv) (hr : s.enc.running) (hend : s.enc.pos ≠ s.enc.inLen) :
    (s.setEnc s.enc.searching).encRunOk := by
  obtain ⟨hext, ⟨hpos, hfs, hop, hacc, -⟩, -⟩ := hinv.enc_running hr
  have hlt := Nat.lt_of_le_of_ne hpos fun h => hend (BitVec.eq_of_toNat_eq h)
  obtain ⟨hcap, hdmax⟩ := Enc.searching_limits hext.1
  refine ⟨hext, ⟨hpos, hfs, hop, hacc, fun h => ?_⟩, fun _ => ⟨hlt, hcap, hdmax⟩,
    fun _ => ⟨Nat.le_refl 1, Nat.succ_le_succ (Nat.zero_le _), bestAmong_zero rfl rfl⟩, fun h => ?_⟩
  · simp [Enc.searching] at h
  · simp [Enc.searching] at h

/-- The search is over: every offset of the window has been tried, or the best match is as long as one
can be (40_encoder.md R134). -/
theorem bestAmong_of_scanOver (hinv : s.Inv) (hphase : s.enc.phase = .scan)
    (hover : s.enc.scanOver) : s.bestAmong s.enc.dmax.toNat := by
  obtain ⟨-, -, -, hscan, -⟩ := hinv.enc_running (.inr (.inl hphase))
  obtain ⟨h1, hd, hle, hnearest, hzero, hattained⟩ := hscan hphase
  refine ⟨fun d hdm hd1 => ?_, hnearest, hzero, fun h => ?_⟩
  · rcases hover with hlast | hlongest
    · exact hle d (by omega) hd1
    · rw [hlongest]
      exact s.matchAt_le d
  · obtain ⟨h1', hoff, heq⟩ := hattained h
    exact ⟨h1', by omega, heq⟩

theorem encRunOk_scanOver (hinv : s.Inv) (hphase : s.enc.phase = .scan) (hover : s.enc.scanOver) :
    (s.setEnc { s.enc with phase := .emit }).encRunOk := by
  obtain ⟨hext, ⟨hpos, hfs, hop, hacc, -⟩, hlimits, -⟩ := hinv.enc_running (.inr (.inl hphase))
  have hbest := bestAmong_of_scanOver hinv hphase hover
  refine ⟨hext, ⟨hpos, hfs, hop, hacc, fun h => by simp at h⟩, fun _ => hlimits (.inl hphase),
    fun h => by simp at h, fun _ => ?_⟩
  simpa only [State.bestAmong, State.setEnc_enc,
    matchAt_setEnc (s := s) (e := { s.enc with phase := .emit }) rfl rfl rfl] using hbest

/-- A candidate changes the best match and the offset only (40_encoder.md R134). -/
theorem State.scanned_eq (s : State) :
    s.scanned = { s.enc with
      bestLen := s.scanned.bestLen, bestOff := s.scanned.bestOff
      scanD := toCount (s.enc.scanD.toNat + 1) } := by
  unfold State.scanned
  split <;> rfl

theorem encRunOk_scanned (hinv : s.Inv) (hphase : s.enc.phase = .scan) (hover : ¬ s.enc.scanOver) :
    (s.setEnc s.scanned).encRunOk := by
  obtain ⟨hext, hcounters, hlimits, hscan, -⟩ := hinv.enc_running (.inr (.inl hphase))
  obtain ⟨h1, -, hbest⟩ := hscan hphase
  obtain ⟨hcap, hdmax⟩ := limits_lt_of_inv hinv (.inl hphase)
  have hd : s.enc.scanD.toNat ≤ s.enc.dmax.toNat := Nat.le_of_not_lt fun h => hover (.inl h)
  have hnext : (toCount (s.enc.scanD.toNat + 1)).toNat = s.enc.scanD.toNat + 1 :=
    toNat_toCount (by omega)
  have hprev : s.enc.scanD.toNat - 1 + 1 = s.enc.scanD.toNat := Nat.sub_add_cancel h1
  have hsucc : (s.setEnc s.scanned).bestAmong (s.enc.scanD.toNat - 1 + 1) := by
    refine bestAmong_succ hbest (matchAt_setEnc ?_ ?_ ?_) ?_
    · rw [State.scanned_eq]
    · rw [State.scanned_eq]
    · rw [State.scanned_eq]
    · rw [hprev, State.scanned]
      have hlen := toNat_toCount (lt_of_le_of_lt ((s.matchAt_le s.enc.scanD.toNat).trans hcap)
        (by decide : 2 ^ 16 < 2 ^ 17))
      split
      · exact ⟨hlen, rfl⟩
      · exact ⟨rfl, rfl⟩
  rw [hprev] at hsucc
  generalize hscanned : s.scanned = e at hsucc
  have heq := s.scanned_eq
  rw [hscanned] at heq
  obtain ⟨bestLen, bestOff, rfl⟩ : ∃ a b, e = { s.enc with
      bestLen := a, bestOff := b, scanD := toCount (s.enc.scanD.toNat + 1) } := ⟨_, _, heq⟩
  refine ⟨hext, hcounters, hlimits, fun _ => ⟨?_, ?_, ?_⟩, fun h => ?_⟩
  · rw [State.setEnc_enc, hnext]
    exact Nat.succ_pos _
  · rw [State.setEnc_enc, hnext]
    exact Nat.succ_le_succ hd
  · rw [State.setEnc_enc, hnext]
    exact hsucc
  · exact absurd (hphase.symm.trans h) (by decide)

/-! An emission. -/

/-- A new control bit stays below the next one's place (40_encoder.md R128). -/
theorem Enc.accWith_lt {e : Enc} (c : Bool) (h : e.bmAcc.toNat < 2 ^ (e.opCount.toNat % 8)) :
    (e.accWith c).toNat < 2 ^ (e.opCount.toNat % 8 + 1) := by
  rw [Nat.pow_succ]
  cases c with
  | false =>
    rw [Enc.accWith_false]
    omega
  | true =>
    rw [Enc.accWith_true h, toByte, BitVec.toNat_ofNat]
    exact lt_of_le_of_lt (Nat.mod_le ..) (by omega)

/-- The control bits pending after one more (40_encoder.md R128). -/
theorem Enc.withControlBit_bmAcc_lt {e : Enc} (c : Bool)
    (h : e.bmAcc.toNat < 2 ^ (e.opCount.toNat % 8)) {n : Nat} (hn : n = e.opCount.toNat + 1) :
    (e.withControlBit c).bmAcc.toNat < 2 ^ (n % 8) := by
  rw [Enc.withControlBit]
  dsimp only
  split
  case isTrue h7 => exact Nat.two_pow_pos _
  case isFalse h7 =>
    rw [show n % 8 = e.opCount.toNat % 8 + 1 by omega]
    exact Enc.accWith_lt c h

/-- An operation whose entry is no longer than what it stands for keeps what the invariant asks
(40_encoder.md R126, R127). -/
theorem encRunOk_emitted {n advance : Nat} (hext : s.encExtentsOk) (hcounters : s.enc.countersOk)
    (c : Bool) (hn : n ≤ advance) (h1 : 1 ≤ advance)
    (hin : s.enc.pos.toNat + advance ≤ s.enc.inLen.toNat) : (s.emitted c n advance).encRunOk := by
  obtain ⟨-, hfs, hop, hacc, -⟩ := hcounters
  have hlen := s.enc.inLen.isLt
  have hpos' : (s.emitted c n advance).enc.pos.toNat = s.enc.pos.toNat + advance :=
    toNat_toWord (by omega)
  have hfs' : (s.emitted c n advance).enc.fsLen.toNat = s.enc.fsLen.toNat + n :=
    toNat_toWord (by omega)
  have hop' : (s.emitted c n advance).enc.opCount.toNat = s.enc.opCount.toNat + 1 :=
    toNat_toWord (by omega)
  have hphase : (s.emitted c n advance).enc.phase = .pos := rfl
  refine ⟨hext, ⟨hpos' ▸ hin, by omega, by omega, Enc.withControlBit_bmAcc_lt c hacc hop', fun h => ?_⟩,
    State.searchOk_of_phase ?_ ?_⟩
  · exact absurd (hphase.symm.trans h) (by decide)
  · rw [hphase]
    decide
  · rw [hphase]
    decide

/-- A literal's entry is as long as what it stands for (40_encoder.md R126). -/
theorem encRunOk_emitLit (hinv : s.Inv) (hphase : s.enc.phase = .emit) :
    (s.litStored.emitted false 1 1).encRunOk := by
  obtain ⟨hext, hcounters, hlimits, -⟩ := hinv.enc_running (.inr (.inr (.inl hphase)))
  obtain ⟨hpos, -⟩ := hlimits (.inr hphase)
  exact encRunOk_emitted (s := s.litStored) hext hcounters false (Nat.le_refl 1) (Nat.le_refl 1) hpos

/-- A back-reference stands for at least two bytes of the input (40_encoder.md R127). -/
theorem encRunOk_emitRef (hinv : s.Inv) (hphase : s.enc.phase = .emit)
    (hle : s.enc.minMatch.toNat ≤ s.enc.bestLen.toNat) :
    (s.refStored.emitted true 2 s.enc.bestLen.toNat).encRunOk := by
  obtain ⟨hext, hcounters, hlimits, -⟩ := hinv.enc_running (.inr (.inr (.inl hphase)))
  obtain ⟨hpos, hcap, -⟩ := hlimits (.inr hphase)
  obtain ⟨h2, hlen, -⟩ := emit_operands hinv hphase hle
  exact encRunOk_emitted (s := s.refStored) hext hcounters true h2 (by omega)
    (show s.enc.pos.toNat + _ ≤ s.enc.inLen.toNat by omega)

/-! The step. -/

/-- The unit after an emission is in a run that goes on. -/
theorem encOk_emitted {n advance : Nat} (hb : s.enc.runState = .busy) (hs : s.enc.statusOk)
    (hresults : s.enc.resultsOk) (c : Bool) (hok : (s.emitted c n advance).encRunOk) :
    (s.emitted c n advance).encOk :=
  State.encOk_of_goesOn hb hs rfl rfl (hresults hb) (.inl rfl) hok

/-- Every step of the encoder keeps its part of the invariant. -/
theorem EncStep.encOk (h : EncStep s e) (hinv : s.Inv) (hb : s.enc.runState = .busy) :
    (s.setEnc e).encOk := by
  obtain ⟨-, -, -, ⟨hstatus, -, hresults, -⟩⟩ := id hinv
  cases h with
  | beginFails => exact State.encOk_of_halt (s.enc.failed_statusOk _) rfl
  | begins _ hconfig hcap =>
    exact State.encOk_of_goesOn hb hstatus rfl rfl ⟨rfl, rfl⟩ (.inl rfl) (encRunOk_begun hconfig hcap)
  | atEnd hphase hend =>
    exact State.encOk_of_goesOn hb hstatus rfl rfl (hresults hb) (.inr (.inr (.inr rfl)))
      (encRunOk_atEnd hinv (.inl hphase) hend)
  | search hphase hend =>
    exact State.encOk_of_goesOn hb hstatus rfl rfl (hresults hb) (.inr (.inl rfl))
      (encRunOk_searching hinv (.inl hphase) hend)
  | scanOver hphase hover =>
    exact State.encOk_of_goesOn hb hstatus rfl rfl (hresults hb) (.inr (.inr (.inl rfl)))
      (encRunOk_scanOver hinv hphase hover)
  | scan hphase hover =>
    have hok := encRunOk_scanned hinv hphase hover
    rw [State.scanned_eq] at hok ⊢
    exact State.encOk_of_goesOn hb hstatus rfl rfl (hresults hb) (.inr (.inl hphase)) hok
  | emitLit hphase =>
    exact encOk_emitted (s := s.litStored) hb hstatus hresults false (encRunOk_emitLit hinv hphase)
  | emitRef hphase hle =>
    exact encOk_emitted (s := s.refStored) hb hstatus hresults true (encRunOk_emitRef hinv hphase hle)
  | flush => exact State.encOk_of_halt (Enc.flushed_statusOk hb hstatus) rfl

/-- The field stream stays in canonical form, since nothing is stored past the capacity. -/
theorem EncStep.spaceOk_efs (h : EncStep s e) (hinv : s.Inv) : (s.setEnc e).spaceOk .efs := by
  obtain ⟨⟨-, -, -, -, hcap⟩, ⟨-, -, -, -, hwf, hbelow⟩, -⟩ := id hinv
  have hstored : Memory.StoredBelow s.plat.efsCap s.enc.efs e.efs := by
    by_cases hphase : s.enc.phase = .emit
    · obtain ⟨⟨-, -, -, hlen, -⟩, -⟩ := hinv.enc_running (.inr (.inr (.inl hphase)))
      exact (h.efs_storedBelow_of_inv hinv).mono hlen
    · exact h.efs_storedBelow (fun h => absurd h hphase) fun h => absurd h hphase
  exact ⟨hstored.wf hwf hcap, hstored.addr_lt hbelow (Nat.le_refl _)⟩

/-- The bitmap stays in canonical form, since nothing is stored past the capacity. -/
theorem EncStep.spaceOk_ebm (h : EncStep s e) (hinv : s.Inv) : (s.setEnc e).spaceOk .ebm := by
  obtain ⟨⟨-, -, -, hcap, -⟩, ⟨-, -, -, ⟨hwf, hbelow⟩, -⟩, -⟩ := id hinv
  have hstored : Memory.StoredBelow s.plat.ebmCap s.enc.ebm e.ebm := by
    by_cases hr : s.enc.running
    · obtain ⟨⟨-, -, -, -, hlen⟩, -⟩ := hinv.enc_running hr
      exact (h.ebm_storedBelow_of_inv hinv).mono hlen
    · exact h.ebm_storedBelow (fun h => absurd (.inr (.inr (.inl h))) hr)
        fun h => absurd (.inr (.inr (.inr h))) hr
  exact ⟨hstored.wf hwf (hcap.trans (by decide)), hstored.addr_lt hbelow (Nat.le_refl _)⟩

theorem EncStep.inv (h : EncStep s e) (hinv : s.Inv) (hb : s.enc.runState = .busy) :
    (s.setEnc e).Inv :=
  hinv.setEnc h.frame.esrc (h.spaceOk_ebm hinv) (h.spaceOk_efs hinv) (h.encOk hinv hb)

theorem encTurn_inv (hinv : s.Inv) (h : encTurn s = .next t) : t.Inv := by
  by_cases hb : s.enc.runState = .busy
  · obtain ⟨e, he, rfl⟩ := encTurn_step hb h
    exact he.inv hinv hb
  · rw [encTurn_of_rest hb] at h
    cases h
    exact hinv

/-! A turn of the encoder always answers. -/

theorem encScan_progress (hinv : s.Inv) (hphase : s.enc.phase = .scan) :
    ∃ t, encScan s = .next t := by
  by_cases hover : s.enc.scanOver
  · exact ⟨_, encScan_of_scanOver hover⟩
  · exact ⟨_, encScan_of_inv hinv hphase hover⟩

theorem encEmit_progress (hinv : s.Inv) (hphase : s.enc.phase = .emit) :
    ∃ t, encEmit s = .next t := by
  rcases Nat.lt_or_ge s.enc.bestLen.toNat s.enc.minMatch.toNat with hlt | hle
  · exact ⟨_, encEmit_lit_of_inv hinv hphase hlt⟩
  · exact ⟨_, encEmit_ref_of_inv hinv hphase hle⟩

/-- In a state of the invariant a turn of `ENC` answers a next state (40_encoder.md R131). -/
theorem encTurn_progress (hinv : s.Inv) : ∃ t, encTurn s = .next t := by
  by_cases hb : s.enc.runState = .busy
  case neg => exact ⟨s, encTurn_of_rest hb⟩
  cases hp : s.enc.phase with
  | halt =>
    obtain ⟨-, -, -, ⟨⟨hhalt, -⟩, -⟩⟩ := hinv
    exact absurd hb (hhalt.mp hp)
  | begin_ =>
    obtain ⟨e, -, hk⟩ := encBegin_step hp
    exact ⟨_, (encTurn_begin hb hp).trans hk⟩
  | pos =>
    obtain ⟨e, -, hk⟩ := encPos_step hp
    exact ⟨_, (encTurn_pos hb hp).trans hk⟩
  | scan => rw [encTurn_scan hb hp]; exact encScan_progress hinv hp
  | emit => rw [encTurn_emit hb hp]; exact encEmit_progress hinv hp
  | flush => exact ⟨_, (encTurn_flush hb hp).trans (encFlush_of_inv hinv hp)⟩

end Sys2Proof.Machine
end

section
/-! PROOF. The machine's invariant: reset establishes it, and every turn keeps it (10_state.md R57;
42_host_commands.md R190). -/

namespace Sys2Proof.Machine

variable {s t : State}

/-! Reset. -/

theorem Dec.resetWith_statusOk (dsrc dout : Memory) : (Dec.resetWith dsrc dout).statusOk := by
  simp [Dec.statusOk, Dec.resetWith]

theorem Enc.resetWith_statusOk (esrc ebm efs : Memory) :
    (Enc.resetWith esrc ebm efs).statusOk := by
  simp [Enc.statusOk, Enc.resetWith]

/-- Both units reset, with memories in canonical form. -/
theorem State.Inv_of_resetWith {dsrc dout esrc ebm efs : Memory} (hp : platformLegal t.plat)
    (hspaces : t.spacesOk) (hd : t.dec = Dec.resetWith dsrc dout)
    (he : t.enc = Enc.resetWith esrc ebm efs) : t.Inv := by
  refine ⟨hp, hspaces, State.decOk_of_halt ?_ ?_, State.encOk_of_halt ?_ ?_⟩
  · rw [hd]
    exact Dec.resetWith_statusOk ..
  · rw [hd]
    rfl
  · rw [he]
    exact Enc.resetWith_statusOk ..
  · rw [he]
    rfl

/-- Settles O45: nothing is written, the default capacities are legal, and both units are reset. -/
theorem resetMeetsTheInvariant : Obligations.ResetMeetsTheInvariant :=
  State.Inv_of_resetWith (by decide) State.reset_spacesOk rfl rfl

theorem State.Inv.resetEvent (hinv : s.Inv) : (resetEvent s).Inv := by
  obtain ⟨hplat, ⟨-, ⟨hdout, hdout'⟩, -, ⟨hebm, hebm'⟩, ⟨hefs, hefs'⟩⟩, -, -⟩ := hinv
  have hempty (cap : Nat) : Memory.wf [] ∧ ∀ c ∈ ([] : Memory), c.1 < cap := by
    simp [Memory.wf]
  exact State.Inv_of_resetWith hplat
    ⟨hempty _, ⟨Memory.keepBelow_wf _ hdout, Memory.keepBelow_below hdout'⟩, hempty _,
      ⟨Memory.keepBelow_wf _ hebm, Memory.keepBelow_below hebm'⟩,
      ⟨Memory.keepBelow_wf _ hefs, Memory.keepBelow_below hefs'⟩⟩ rfl rfl

/-! The host's moves. -/

/-- A unit at rest is in `HALT` (10_state.md R54). -/
theorem State.Inv.dec_halt (hinv : s.Inv) (hb : s.dec.runState ≠ .busy) : s.dec.phase = .halt := by
  obtain ⟨-, -, ⟨⟨hhalt, -⟩, -⟩, -⟩ := hinv
  exact hhalt.mpr hb

theorem State.Inv.enc_halt (hinv : s.Inv) (hb : s.enc.runState ≠ .busy) : s.enc.phase = .halt := by
  obtain ⟨-, -, -, ⟨⟨hhalt, -⟩, -⟩⟩ := hinv
  exact hhalt.mpr hb

/-- A decoder at rest may change in anything but its status. -/
theorem State.Inv.setDec_rest {d : Dec} (hinv : s.Inv) (hb : s.dec.runState ≠ .busy)
    (hrun : d.runState = s.dec.runState) (herr : d.err = s.dec.err)
    (hunder : d.underfill = s.dec.underfill) (hphase : d.phase = s.dec.phase)
    (hsrc : (s.setDec d).spaceOk .dsrc) (hout : (s.setDec d).spaceOk .dout) : (s.setDec d).Inv := by
  have hhalt := hinv.dec_halt hb
  obtain ⟨hplat, ⟨-, -, hesrc, hebm, hefs⟩, ⟨hstatus, -⟩, henc⟩ := hinv
  refine ⟨hplat, ⟨hsrc, hout, hesrc, hebm, hefs⟩, State.decOk_of_halt ?_ (hphase.trans hhalt),
    State.encOk_congr (s := s) rfl rfl rfl henc⟩
  rw [Dec.statusOk, State.setDec_dec, hphase, hrun, herr, hunder]
  exact hstatus

/-- An encoder at rest may change in anything but its status. -/
theorem State.Inv.setEnc_rest {e : Enc} (hinv : s.Inv) (hb : s.enc.runState ≠ .busy)
    (hrun : e.runState = s.enc.runState) (herr : e.err = s.enc.err) (hphase : e.phase = s.enc.phase)
    (hsrc : (s.setEnc e).spaceOk .esrc) (hebm : (s.setEnc e).spaceOk .ebm)
    (hefs : (s.setEnc e).spaceOk .efs) : (s.setEnc e).Inv := by
  have hhalt := hinv.enc_halt hb
  obtain ⟨hplat, ⟨hdsrc, hdout, -⟩, hdec, hstatus, -⟩ := hinv
  refine ⟨hplat, ⟨hdsrc, hdout, hsrc, hebm, hefs⟩, hdec, State.encOk_of_halt ?_ (hphase.trans hhalt)⟩
  rw [Enc.statusOk, State.setEnc_enc, hphase, hrun, herr]
  exact hstatus

theorem State.Inv.regWrite {u : UnitId} (hinv : s.Inv) (hb : s.runStateOf u ≠ .busy) (o : Nat)
    (v : Word) : (s.regWrite u o v).Inv := by
  obtain ⟨-, ⟨hdsrc, hdout, hesrc, hebm, hefs⟩, -, -⟩ := id hinv
  cases u with
  | dec =>
    have heq := s.dec.regWrite_eq v o
    refine hinv.setDec_rest hb ?_ ?_ ?_ ?_ ?_ ?_
    · rw [heq]
    · rw [heq]
    · rw [heq]
    · rw [heq]
    · simpa [State.spaceOk] using hdsrc
    · simpa [State.spaceOk] using hdout
  | enc =>
    have heq := s.enc.regWrite_eq v o
    refine hinv.setEnc_rest hb ?_ ?_ ?_ ?_ ?_ ?_
    · rw [heq]
    · rw [heq]
    · rw [heq]
    · simpa [State.spaceOk] using hesrc
    · simpa [State.spaceOk] using hebm
    · simpa [State.spaceOk] using hefs

/-- A START clears the error and the cursors (42_host_commands.md R193, R200). -/
theorem State.Inv.startRun (hinv : s.Inv) (u : UnitId) (mode : RunMode) : (startRun u mode s).Inv := by
  obtain ⟨hplat, hspaces, hdec, henc⟩ := hinv
  cases u with
  | dec =>
    refine ⟨hplat, hspaces, ⟨?_, fun _ => ⟨rfl, rfl, rfl, rfl⟩, fun h => ?_⟩,
      State.encOk_congr (s := s) rfl rfl rfl henc⟩
    · simp [Dec.statusOk]
    · simp [Dec.running] at h
  | enc =>
    refine ⟨hplat, hspaces, hdec, ?_, fun _ => ⟨rfl, rfl, rfl⟩, fun _ => ⟨rfl, rfl⟩, fun h => ?_⟩
    · simp [Enc.statusOk]
    · simp [Enc.running] at h

/-- A backed store keeps its space in canonical form. -/
theorem State.spaceOk_write {sp : Space} {a : Nat} (h : s.spaceOk sp) (hb : s.backed sp a = true)
    (v : Byte) : (s.setMem sp ((s.mem sp).write a v)).spaceOk sp := by
  simp only [State.backed, decide_eq_true_eq] at hb
  obtain ⟨hcap, h32⟩ := hb
  rw [State.spaceOk, State.mem_setMem_same, State.setMem_plat]
  exact ⟨Memory.write_wf v h.1 h32, Memory.write_below v h.2 hcap⟩

theorem State.Inv.memWrite {sp : Space} {a : Nat} (hinv : s.Inv)
    (hr : s.runStateOf (spaceOwner sp) ≠ .busy) (hb : s.backed sp a = true) (v : Byte) :
    (s.setMem sp ((s.mem sp).write a v)).Inv := by
  obtain ⟨-, ⟨hdsrc, hdout, hesrc, hebm, hefs⟩, -, -⟩ := id hinv
  cases sp with
  | dsrc => exact hinv.setDec_rest hr rfl rfl rfl rfl (State.spaceOk_write hdsrc hb v) hdout
  | dout => exact hinv.setDec_rest hr rfl rfl rfl rfl hdsrc (State.spaceOk_write hdout hb v)
  | esrc => exact hinv.setEnc_rest hr rfl rfl rfl (State.spaceOk_write hesrc hb v) hebm hefs
  | ebm => exact hinv.setEnc_rest hr rfl rfl rfl hesrc (State.spaceOk_write hebm hb v) hefs
  | efs => exact hinv.setEnc_rest hr rfl rfl rfl hesrc hebm (State.spaceOk_write hefs hb v)

theorem hostMove_inv {m : HostMove} (hinv : s.Inv) (h : hostMove m s = .next t) : t.Inv := by
  rcases hostMove_cases h with rfl | ⟨v, rfl⟩ | ⟨u, o, v, hb, rfl⟩ | ⟨u, mode, -, rfl⟩ |
    ⟨sp, a, v, hr, hb, rfl⟩
  · exact hinv
  · exact State.Inv_congr (s := s) rfl rfl rfl rfl hinv
  · exact hinv.regWrite hb o v
  · exact hinv.startRun u mode
  · exact hinv.memWrite hr hb v

/-! The step. -/

/-- Settles O46: each turn keeps the invariant, and taking it off the agenda does. -/
theorem stepKeepsTheInvariant : Obligations.StepKeepsTheInvariant := by
  intro s t hinv hstep
  have hinv := State.Inv_popped hinv
  rcases step_next_cases hstep with ⟨-, rfl⟩ | ⟨m, h⟩ | h | h
  · exact hinv.resetEvent
  · exact hostMove_inv hinv h
  · exact decTurn_inv hinv h
  · exact encTurn_inv hinv h

/-- A register move of the host always answers (42_host_commands.md R191, R192). -/
theorem hostRegWrite_progress (u : UnitId) (o : Nat) (v : Word) (s : State) :
    ∃ t, hostRegWrite u o v s = .next t := by
  by_cases hb : s.runStateOf u = .busy
  · exact ⟨_, hostRegWrite_of_busy hb o v⟩
  by_cases ho : o = ctrlOffset
  · subst ho
    cases hcmd : decodeCommand u v with
    | ok i =>
      obtain ⟨mode, hk⟩ := hostRegWrite_start hb hcmd
      exact ⟨_, hk⟩
    | error r => exact ⟨s, hostMove_ctrl_of_reserved hcmd s⟩
  · exact ⟨_, hostRegWrite_of_ne_ctrl hb ho v⟩

/-- A memory move of the host answers a next state where its unit is at rest and the address backed. -/
theorem hostMove_mem_progress {m : HostMove} {sp : Space} {a : Nat} {v : Byte}
    (hm : m = .memRead sp a ∨ m = .memWrite sp a v) (hr : s.runStateOf (spaceOwner sp) ≠ .busy)
    (hb : s.backed sp a ≠ false) : ∃ t, hostMove m s = .next t := by
  have hb : s.backed sp a = true := by simpa using hb
  rcases hm with rfl | rfl
  · exact ⟨_, hostMove_memRead_of_backed hr hb⟩
  · exact ⟨_, hostMove_memWrite_of_backed v hr hb⟩

/-- Settles O47: a turn of a unit, a register move and a reset always answer. -/
theorem onlyHostMemoryMovesStop : Obligations.OnlyHostMemoryMovesStop := by
  intro s hinv
  have hmem {m : HostMove} {sp : Space} {a : Nat} {v : Byte} {rest : List Turn}
      (ha : s.agenda = .host m :: rest) (hm : m = .memRead sp a ∨ m = .memWrite sp a v) :
      (∃ t, step s = .next t) ∨ s.runStateOf (spaceOwner sp) = .busy ∨ s.backed sp a = false := by
    by_cases hstop : s.runStateOf (spaceOwner sp) = .busy ∨ s.backed sp a = false
    · exact .inr hstop
    · rw [not_or] at hstop
      rw [step_of_turn ha]
      exact .inl (hostMove_mem_progress (s := s.popped) hm (by simpa using hstop.1) hstop.2)
  rcases step_cases s with ⟨turn, rest, ha, hs⟩ | ⟨-, -, hs⟩ | ⟨-, -, hs⟩
  · cases turn with
    | dec => rw [hs]; exact .inl (decTurn_progress (State.Inv_popped hinv))
    | enc => rw [hs]; exact .inl (encTurn_progress (State.Inv_popped hinv))
    | reset => rw [hs]; exact .inl ⟨_, rfl⟩
    | host m =>
      cases m with
      | regRead u o => rw [hs]; exact .inl ⟨_, rfl⟩
      | regWrite u o v => rw [hs]; exact .inl (hostRegWrite_progress u o v s.popped)
      | memRead sp a =>
        exact (hmem (v := 0) ha (.inl rfl)).imp_right fun h => ⟨sp, a, rest, .inr ha, h⟩
      | memWrite sp a v =>
        exact (hmem ha (.inr rfl)).imp_right fun h => ⟨sp, a, rest, .inl ⟨v, ha⟩, h⟩
  · rw [hs]; exact .inl (decTurn_progress hinv)
  · rw [hs]; exact .inl (encTurn_progress hinv)

end Sys2Proof.Machine
end

section
/-! PROOF. A unit's turn does not look at the other unit, nor, past `BEGIN`, at `DEC.WINDOW`
(10_state.md R20, R21; 41_decoder.md R163). -/

namespace Sys2Proof.Machine

/-- A change made to the next state that is answered, if one is. -/
def mapNext (f : State → State) : Result → Result
  | .next s => .next (f s)
  | .fault r => .fault r
  | .refused r => .refused r

theorem next_of_mapNext {f : State → State} {r r' : Result} {t : State} (h : r' = mapNext f r)
    (hr : r = .next t) : r' = .next (f t) := by
  rw [h, hr]
  rfl

/-! The decoder. -/

/-- The state with other contents of everything a decoder step past `BEGIN` does not look at: `WINDOW`,
the other unit, the agenda and what the host has read. -/
def State.besideDec (s : State) (w : Word) (e : Enc) (ts : List Turn) (vs : List Word) : State :=
  { s with dec := { s.dec with window := w }, enc := e, agenda := ts, returned := vs }

variable {s : State} {w : Word} {e : Enc} {ts : List Turn} {vs : List Word}

theorem State.besideDec_self (s : State) (w : Word) :
    s.besideDec w s.enc s.agenda s.returned = s.setDec { s.dec with window := w } := rfl

theorem load_besideDec {sp : Space} (hsp : spaceOwner sp = .dec) {a : Nat} {k k' : Byte → Result}
    (h : ∀ b, k' b = mapNext (·.besideDec w e ts vs) (k b)) :
    load sp a (s.besideDec w e ts vs) k' = mapNext (·.besideDec w e ts vs) (load sp a s k) := by
  have hbyte : (s.besideDec w e ts vs).byteAt sp a = s.byteAt sp a := by cases sp <;> cases hsp <;> rfl
  have hbacked : (s.besideDec w e ts vs).backed sp a = s.backed sp a := rfl
  rw [load, load, hbacked, hbyte]
  split
  · exact h _
  · rfl

theorem store_besideDec {a : Nat} {v : Byte} {k k' : State → Result}
    (h : ∀ s, k' (s.besideDec w e ts vs) = mapNext (·.besideDec w e ts vs) (k s)) :
    store .dout a v (s.besideDec w e ts vs) k' =
      mapNext (·.besideDec w e ts vs) (store .dout a v s k) := by
  have hbacked : (s.besideDec w e ts vs).backed .dout a = s.backed .dout a := rfl
  rw [store, store, hbacked]
  split
  · exact h (s.setMem .dout ((s.mem .dout).write a v))
  · rfl

theorem decFinish_besideDec :
    decFinish (s.besideDec w e ts vs) = mapNext (·.besideDec w e ts vs) (decFinish s) := by
  have hfinished : (s.besideDec w e ts vs).dec.finished = { s.dec.finished with window := w } := by
    by_cases hout : s.dec.outPos = s.dec.uncompSize
    · rw [Dec.finished, Dec.finished, if_pos hout]
      exact if_pos hout
    by_cases hstrict : s.dec.cfg.strict
    · rw [Dec.finished, Dec.finished, if_neg hout, if_pos hstrict]
      exact (if_neg hout).trans (if_pos hstrict)
    · rw [Dec.finished, Dec.finished, if_neg hout, if_neg hstrict]
      exact (if_neg hout).trans (if_neg hstrict)
  rw [decFinish_eq, decFinish_eq, hfinished]
  rfl

theorem decOp_besideDec :
    decOp (s.besideDec w e ts vs) = mapNext (·.besideDec w e ts vs) (decOp s) := by
  by_cases hover : s.dec.runOver
  · rw [decOp, decOp, if_pos hover]
    exact (if_pos hover).trans decFinish_besideDec
  rw [decOp, decOp, if_neg hover]
  refine (if_neg hover).trans ?_
  by_cases h8 : s.dec.opIdx.toNat % 8 = 0
  · rw [if_pos h8]
    refine (if_pos h8).trans ?_
    by_cases hlen : s.dec.bmLen.toNat ≤ s.dec.opIdx.toNat / 8
    · dsimp only
      rw [if_pos hlen]
      exact if_pos hlen
    · dsimp only
      rw [if_neg hlen]
      exact (if_neg hlen).trans (load_besideDec rfl fun b => rfl)
  · rw [if_neg h8]
    exact if_neg h8

theorem execLit_besideDec (v : Byte) :
    execLit v (s.besideDec w e ts vs) = mapNext (·.besideDec w e ts vs) (execLit v s) := by
  by_cases hmissing : s.dec.entryMissing 1
  · rw [execLit, execLit, if_pos hmissing]
    exact if_pos hmissing
  · rw [execLit, execLit, if_neg hmissing]
    exact (if_neg hmissing).trans (store_besideDec fun s => rfl)

theorem beginCopy_besideDec (offset length : Nat) :
    beginCopy offset length (s.besideDec w e ts vs) =
      mapNext (·.besideDec w e ts vs) (beginCopy offset length s) := by
  by_cases hmissing : s.dec.entryMissing 2
  · rw [beginCopy, beginCopy, if_pos hmissing]
    exact if_pos hmissing
  · rw [beginCopy, beginCopy, if_neg hmissing]
    exact if_neg hmissing

theorem decCopy_besideDec :
    decCopy (s.besideDec w e ts vs) = mapNext (·.besideDec w e ts vs) (decCopy s) := by
  by_cases hfails : s.dec.copyFails
  · rw [decCopy, decCopy, if_pos hfails]
    exact if_pos hfails
  · rw [decCopy, decCopy, if_neg hfails]
    refine (if_neg hfails).trans (load_besideDec rfl fun b => store_besideDec fun s' => ?_)
    by_cases hlast : s'.dec.curRemain.toNat - 1 = 0
    · dsimp only
      rw [if_pos hlast]
      exact if_pos hlast
    · dsimp only
      rw [if_neg hlast]
      exact if_neg hlast

theorem runOperation_besideDec (ctrl : Bool) :
    runOperation ctrl (s.besideDec w e ts vs) =
      mapNext (·.besideDec w e ts vs) (runOperation ctrl s) := by
  by_cases hmissing : s.dec.entryMissing (entryLength ctrl)
  · rw [runOperation, runOperation, if_pos hmissing]
    exact if_pos hmissing
  · rw [runOperation, runOperation, if_neg hmissing]
    refine (if_neg hmissing).trans ?_
    cases ctrl with
    | false => exact load_besideDec rfl fun v => execLit_besideDec v
    | true =>
      refine load_besideDec rfl fun b0 => load_besideDec rfl fun b1 => ?_
      show exec (refInstr _ _ _) _ = mapNext _ (exec (refInstr _ _ _) _)
      rw [exec_refInstr, exec_refInstr]
      exact beginCopy_besideDec ..

/-- A change of the unit that keeps `WINDOW` is made beside anything. -/
theorem State.setDec_besideDec {d : Dec} (h : d.window = s.dec.window) :
    (s.besideDec s.dec.window e ts vs).setDec d =
      (s.setDec d).besideDec s.dec.window e ts vs := by
  rw [← h]
  rfl

/-- `BEGIN` looks at `WINDOW`, but at nothing outside `DEC` (42_host_commands.md R195). -/
theorem decBegin_besideDec (hphase : s.dec.phase = .begin_) :
    decBegin (s.besideDec s.dec.window e ts vs) =
      mapNext (·.besideDec s.dec.window e ts vs) (decBegin s) := by
  by_cases hcfg : cfgValid s.dec.split s.dec.window.toNat = true
  case neg =>
    rw [decBegin_of_configMismatch hcfg]
    exact decBegin_of_configMismatch hcfg
  by_cases hcap : s.plat.dsrcCap < s.dec.srcLen.toNat
  · rw [decBegin_of_extentMissing hcfg hcap]
    exact decBegin_of_extentMissing hcfg hcap
  · have hpasses : s.beginPasses := s.beginPasses_iff.mpr ⟨hcfg, Nat.le_of_not_lt hcap⟩
    have begun {d : Dec} (hd : DecStep s d) :
        (.next ((s.besideDec s.dec.window e ts vs).setDec d) : Result) =
          mapNext (·.besideDec s.dec.window e ts vs) (.next (s.setDec d)) := by
      obtain ⟨-, hwindow, -⟩ := hd.frame
      rw [State.setDec_besideDec hwindow]
      rfl
    cases hmode : s.dec.mode with
    | block =>
      rw [decBegin_block hpasses hmode]
      exact (decBegin_block (s := s.besideDec s.dec.window e ts vs) hpasses hmode).trans
        (begun (.blockBegun hphase hpasses))
    | sectioned =>
      rw [decBegin_section hpasses hmode]
      exact (decBegin_section (s := s.besideDec s.dec.window e ts vs) hpasses hmode).trans
        (begun (.sectionBegun hphase hmode hpasses))

/-- A turn of `DEC` looks at nothing outside it, and past `BEGIN` not at `WINDOW`. -/
theorem decTurn_besideDec (h : s.dec.phase = .begin_ → w = s.dec.window) :
    decTurn (s.besideDec w e ts vs) = mapNext (·.besideDec w e ts vs) (decTurn s) := by
  by_cases hb : s.dec.runState = .busy
  case neg =>
    rw [decTurn_of_rest hb]
    exact decTurn_of_rest hb
  have hb' : (s.besideDec w e ts vs).dec.runState = .busy := hb
  have hphase : (s.besideDec w e ts vs).dec.phase = s.dec.phase := rfl
  cases hp : s.dec.phase with
  | halt => simp [decTurn, hb, hb', hphase, hp, mapNext]
  | begin_ =>
    rw [decTurn_begin hb hp, decTurn_begin hb' (hphase.trans hp), h hp, decBegin_besideDec hp]
  | op => rw [decTurn_op hb hp, decTurn_op hb' (hphase.trans hp), decOp_besideDec]
  | lit => rw [decTurn_lit hb hp, decTurn_lit hb' (hphase.trans hp), runOperation_besideDec]
  | ref => rw [decTurn_ref hb hp, decTurn_ref hb' (hphase.trans hp), runOperation_besideDec]
  | copy => rw [decTurn_copy hb hp, decTurn_copy hb' (hphase.trans hp), decCopy_besideDec]

theorem decTurn_window {t : State} (h : decTurn s = .next t) : t.dec.window = s.dec.window := by
  by_cases hb : s.dec.runState = .busy
  · obtain ⟨d, hd, rfl⟩ := decTurn_step hb h
    obtain ⟨-, hwindow, -⟩ := hd.frame
    exact hwindow
  · rw [decTurn_of_rest hb] at h
    cases h
    rfl

/-- Settles O22: the turn commutes with a change of `WINDOW`. -/
theorem decoderIgnoresTheWindow : Obligations.DecoderIgnoresTheWindow := by
  intro s t w hphase hturn
  have hbeside := next_of_mapNext
    (decTurn_besideDec (w := w) (e := s.enc) (ts := s.agenda) (vs := s.returned)
      fun h => absurd h hphase) hturn
  have honly : s.onlyDec t := by
    rcases decTurn_next hturn with ⟨-, rfl⟩ | ⟨-, honly, -⟩
    · exact ⟨rfl, rfl, rfl, rfl, rfl⟩
    · exact honly
  obtain ⟨henc, -, hagenda, hreturned, -⟩ := honly
  rw [State.besideDec_self] at hbeside
  rw [hbeside, ← State.besideDec_self, henc, hagenda, hreturned]

/-! The encoder. -/

/-- The state with other contents of everything an encoder step does not look at: the other unit, the
agenda and what the host has read. -/
def State.besideEnc (s : State) (d : Dec) (ts : List Turn) (vs : List Word) : State :=
  { s with dec := d, agenda := ts, returned := vs }

variable {d : Dec}

theorem load_besideEnc {sp : Space} (hsp : spaceOwner sp = .enc) {a : Nat} {k k' : Byte → Result}
    (h : ∀ b, k' b = mapNext (·.besideEnc d ts vs) (k b)) :
    load sp a (s.besideEnc d ts vs) k' = mapNext (·.besideEnc d ts vs) (load sp a s k) := by
  have hbyte : (s.besideEnc d ts vs).byteAt sp a = s.byteAt sp a := by cases sp <;> cases hsp <;> rfl
  have hbacked : (s.besideEnc d ts vs).backed sp a = s.backed sp a := rfl
  rw [load, load, hbacked, hbyte]
  split
  · exact h _
  · rfl

theorem store_besideEnc {sp : Space} (hsp : spaceOwner sp = .enc) {a : Nat} {v : Byte}
    {k k' : State → Result}
    (h : ∀ s, k' (s.besideEnc d ts vs) = mapNext (·.besideEnc d ts vs) (k s)) :
    store sp a v (s.besideEnc d ts vs) k' = mapNext (·.besideEnc d ts vs) (store sp a v s k) := by
  have hbacked : (s.besideEnc d ts vs).backed sp a = s.backed sp a := rfl
  have hmem : (s.besideEnc d ts vs).setMem sp (((s.besideEnc d ts vs).mem sp).write a v) =
      (s.setMem sp ((s.mem sp).write a v)).besideEnc d ts vs := by cases sp <;> cases hsp <;> rfl
  rw [store, store, hbacked, hmem]
  split
  · exact h _
  · rfl

theorem encBegin_besideEnc :
    encBegin (s.besideEnc d ts vs) = mapNext (·.besideEnc d ts vs) (encBegin s) := by
  by_cases hconfig : s.enc.configFails
  · rw [encBegin_of_configFails hconfig]
    exact encBegin_of_configFails hconfig
  by_cases hcap : s.encCapacityFails
  · rw [encBegin_of_capacityFails hconfig hcap]
    exact encBegin_of_capacityFails hconfig hcap
  · rw [encBegin_of_passes hconfig hcap]
    exact encBegin_of_passes hconfig hcap

theorem encPos_besideEnc :
    encPos (s.besideEnc d ts vs) = mapNext (·.besideEnc d ts vs) (encPos s) := by
  by_cases hend : s.enc.pos = s.enc.inLen
  · rw [encPos_of_end hend]
    exact encPos_of_end hend
  · rw [encPos_of_ne hend]
    exact encPos_of_ne hend

theorem encScan_besideEnc :
    encScan (s.besideEnc d ts vs) = mapNext (·.besideEnc d ts vs) (encScan s) := by
  by_cases hover : s.enc.scanOver
  · rw [encScan_of_scanOver hover]
    exact encScan_of_scanOver hover
  by_cases hb : s.backed .esrc (s.enc.pos.toNat + s.enc.cap.toNat - 1) = true
  · have hmatch : (s.besideEnc d ts vs).matchAt s.enc.scanD.toNat = s.matchAt s.enc.scanD.toNat :=
      matchLen_congr (s := s) (t := s.besideEnc d ts vs) (fun _ => rfl) ..
    have hscanned : (s.besideEnc d ts vs).scanned = s.scanned := by
      rw [State.scanned, State.scanned, ← hmatch]
      rfl
    rw [encScan_of_backed hover hb]
    refine (encScan_of_backed (s := s.besideEnc d ts vs) hover hb).trans ?_
    rw [hscanned]
    rfl
  · rw [encScan, encScan]
    dsimp only
    rw [if_neg hover, if_neg hb]
    exact (if_neg hover).trans (if_neg hb)

theorem appendControlBit_besideEnc (c : Bool) {k k' : State → Result}
    (h : ∀ s, k' (s.besideEnc d ts vs) = mapNext (·.besideEnc d ts vs) (k s)) :
    appendControlBit c (s.besideEnc d ts vs) k' =
      mapNext (·.besideEnc d ts vs) (appendControlBit c s k) := by
  rw [appendControlBit, appendControlBit]
  by_cases h7 : s.enc.opCount.toNat % 8 = 7
  · dsimp only
    rw [if_pos h7]
    exact (if_pos h7).trans (store_besideEnc rfl fun s' => h (s'.setEnc _))
  · dsimp only
    rw [if_neg h7]
    exact (if_neg h7).trans (h (s.setEnc _))

theorem encEmit_besideEnc :
    encEmit (s.besideEnc d ts vs) = mapNext (·.besideEnc d ts vs) (encEmit s) := by
  rw [encEmit, encEmit]
  dsimp only
  by_cases hle : s.enc.minMatch.toNat ≤ s.enc.bestLen.toNat
  · rw [if_pos hle]
    refine (if_pos hle).trans ?_
    rw [emitRef, emitRef]
    refine store_besideEnc rfl fun s₁ => ?_
    refine store_besideEnc rfl fun s₂ => ?_
    exact appendControlBit_besideEnc (s := s₂.setEnc _) true fun _ => rfl
  · rw [if_neg hle, emitLit]
    exact (if_neg hle).trans (load_besideEnc rfl fun b => store_besideEnc rfl fun s₁ =>
      appendControlBit_besideEnc (s := s₁.setEnc _) false fun _ => rfl)

theorem encFlush_besideEnc :
    encFlush (s.besideEnc d ts vs) = mapNext (·.besideEnc d ts vs) (encFlush s) := by
  rw [encFlush, encFlush]
  dsimp only
  by_cases h8 : s.enc.opCount.toNat % 8 ≠ 0
  · rw [if_pos h8]
    exact (if_pos h8).trans (store_besideEnc rfl fun _ => rfl)
  · rw [if_neg h8]
    exact if_neg h8

/-- A turn of `ENC` looks at nothing outside it. -/
theorem encTurn_besideEnc :
    encTurn (s.besideEnc d ts vs) = mapNext (·.besideEnc d ts vs) (encTurn s) := by
  by_cases hb : s.enc.runState = .busy
  case neg =>
    rw [encTurn_of_rest hb]
    exact encTurn_of_rest hb
  have hb' : (s.besideEnc d ts vs).enc.runState = .busy := hb
  have hphase : (s.besideEnc d ts vs).enc.phase = s.enc.phase := rfl
  cases hp : s.enc.phase with
  | halt => simp [encTurn, hb, hb', hphase, hp, mapNext]
  | begin_ => rw [encTurn_begin hb hp, encTurn_begin hb' (hphase.trans hp), encBegin_besideEnc]
  | pos => rw [encTurn_pos hb hp, encTurn_pos hb' (hphase.trans hp), encPos_besideEnc]
  | scan => rw [encTurn_scan hb hp, encTurn_scan hb' (hphase.trans hp), encScan_besideEnc]
  | emit => rw [encTurn_emit hb hp, encTurn_emit hb' (hphase.trans hp), encEmit_besideEnc]
  | flush => rw [encTurn_flush hb hp, encTurn_flush hb' (hphase.trans hp), encFlush_besideEnc]

/-- Settles O48: the second state is the first beside another unit, other turns and other values read. -/
theorem unitsAreIndependent : Obligations.UnitsAreIndependent := by
  intro s s' t hplat hepoch
  refine ⟨fun hunit hturn => ?_, fun hunit hturn => ?_⟩
  · have hs' : s' = s.besideDec s.dec.window s'.enc s'.agenda s'.returned := by
      cases s'
      simp only at hplat hepoch hunit
      subst hplat hepoch hunit
      rfl
    have hbeside := next_of_mapNext (decTurn_besideDec (w := s.dec.window) (e := s'.enc)
      (ts := s'.agenda) (vs := s'.returned) fun _ => rfl) hturn
    rw [← hs'] at hbeside
    have hwindow := (decTurn_window hturn).symm
    exact ⟨_, hbeside, by rw [State.besideDec, hwindow]⟩
  · have hs' : s' = s.besideEnc s'.dec s'.agenda s'.returned := by
      cases s'
      simp only at hplat hepoch hunit
      subst hplat hepoch hunit
      rfl
    have hbeside := next_of_mapNext (encTurn_besideEnc (d := s'.dec) (ts := s'.agenda)
      (vs := s'.returned)) hturn
    rw [← hs'] at hbeside
    exact ⟨_, hbeside, rfl⟩

end Sys2Proof.Machine
end

section
/-! PROOF. Runs: a step and a run after it, and a run that a measure bounds. -/

namespace Sys2Proof.Machine

variable {s t : State}

theorem run_succ (h : step s = .next t) (k : Nat) : core.run (k + 1) s = core.run k t := by
  have h : core.step s = .next t := h
  have hrun := Host.Core.run.eq_2 core s k
  rwa [h] at hrun

/-- With no turn pending a `BUSY` decoder has the turn (00_scope.md R17). -/
theorem step_of_decBusy (ha : s.agenda = []) (hb : s.dec.runState = .busy) : step s = decTurn s := by
  rw [step_of_decMoves ⟨hb, .inl ha⟩, State.popped_of_nil ha]

/-- With no turn pending and the decoder at rest a `BUSY` encoder has the turn (00_scope.md R17). -/
theorem step_of_encBusy (ha : s.agenda = []) (hd : s.dec.runState ≠ .busy)
    (hb : s.enc.runState = .busy) : step s = encTurn s := by
  rw [step_of_encMoves ⟨hb, .inl ⟨ha, hd⟩⟩, State.popped_of_nil ha]

/-- A run in which every step keeps a property and lowers a measure until a goal is met meets it, within
as many steps as the measure says. -/
theorem run_of_measure {Keeps Goal : State → Prop} (measure : State → Nat)
    (hstep : ∀ s, Keeps s → ¬ Goal s → ∃ t, step s = .next t ∧ Keeps t ∧ measure t < measure s)
    (h : Keeps s) : ∃ k t, k ≤ measure s ∧ core.run k s = .next t ∧ Keeps t ∧ Goal t := by
  induction hn : measure s using Nat.strongRecOn generalizing s with
  | ind n ih =>
    subst hn
    by_cases hgoal : Goal s
    · exact ⟨0, s, Nat.zero_le _, rfl, h, hgoal⟩
    · obtain ⟨s', hs', hkeeps, hlt⟩ := hstep s h hgoal
      obtain ⟨k, t, hk, hrun, ht⟩ := ih _ hlt hkeeps rfl
      exact ⟨k + 1, t, by omega, (run_succ hs' k).trans hrun, ht⟩

end Sys2Proof.Machine
end

section
/-! PROOF. A decoder run ends (41_decoder.md R166). -/

namespace Sys2Proof.Machine

variable {s t : State} {d : Dec}

/-- A unit past `BEGIN` is `BUSY` (10_state.md R54). -/
theorem State.Inv.dec_busy (hinv : s.Inv) (hr : s.dec.running) : s.dec.runState = .busy := by
  by_contra hb
  have hhalt := hinv.dec_halt hb
  rcases hr with h | h | h | h <;> exact absurd (h.symm.trans hhalt) (by decide)

/-- A run of the unit has ended (60_exceptions.md R229). -/
abbrev Dec.ended (d : Dec) : Prop :=
  d.runState = .done ∨ d.runState = .error

/-- How many steps a run has left at most: three for an operation and one for a byte of output
(41_decoder.md R166). -/
def Dec.stepsLeft (d : Dec) : Nat :=
  let left := 3 * (d.opCount.toNat - d.opIdx.toNat) + (d.uncompSize.toNat - d.outPos.toNat)
  match d.phase with
  | .halt => 0
  | .begin_ => 0
  | .op => left + 1
  | .lit => left
  | .ref => left
  | .copy => left - 1

theorem Dec.stepsLeft_halt (h : d.phase = .halt) : d.stepsLeft = 0 := by
  simp [Dec.stepsLeft, h]

theorem Dec.stepsLeft_op (h : d.phase = .op) : d.stepsLeft =
    3 * (d.opCount.toNat - d.opIdx.toNat) + (d.uncompSize.toNat - d.outPos.toNat) + 1 := by
  simp [Dec.stepsLeft, h]

theorem Dec.stepsLeft_entry (h : d.phase = .lit ∨ d.phase = .ref) : d.stepsLeft =
    3 * (d.opCount.toNat - d.opIdx.toNat) + (d.uncompSize.toNat - d.outPos.toNat) := by
  rcases h with h | h <;> simp [Dec.stepsLeft, h]

theorem Dec.stepsLeft_copy (h : d.phase = .copy) : d.stepsLeft =
    3 * (d.opCount.toNat - d.opIdx.toNat) + (d.uncompSize.toNat - d.outPos.toNat) - 1 := by
  simp [Dec.stepsLeft, h]

/-- Past `BEGIN` a run in a state of the invariant has a step left. -/
theorem Dec.stepsLeft_pos (hcursors : d.cursorsOk) (hr : d.running) : 0 < d.stepsLeft := by
  obtain ⟨-, -, -, hop, -⟩ := hcursors
  rcases hr with h | h | h | h
  · rw [Dec.stepsLeft_op h]
    omega
  · have := hop (.inl h)
    rw [Dec.stepsLeft_entry (.inl h)]
    omega
  · have := hop (.inr (.inl h))
    rw [Dec.stepsLeft_entry (.inr h)]
    omega
  · have := hop (.inr (.inr h))
    rw [Dec.stepsLeft_copy h]
    omega

/-- A byte of output and the end of its operation, or of a part of it, lower the measure. -/
theorem Dec.Advanced.stepsLeft_lt {d' : Dec} (h : d.Advanced d')
    (hphase : d.phase = .lit ∨ d.phase = .copy) (hidx : d.opIdx.toNat < d.opCount.toNat)
    (hroom : d.outPos.toNat < d.uncompSize.toNat) : d'.stepsLeft < d.stepsLeft := by
  have hcount : d'.opCount = d.opCount := by rw [h.kept]
  have huncomp : d'.uncompSize = d.uncompSize := by rw [h.kept]
  have hout := h.outPos
  have hbefore : 3 * (d.opCount.toNat - d.opIdx.toNat) + (d.uncompSize.toNat - d.outPos.toNat) - 1
      ≤ d.stepsLeft := by
    rcases hphase with hp | hp
    · rw [Dec.stepsLeft_entry (.inl hp)]
      exact Nat.sub_le ..
    · exact Nat.le_of_eq (Dec.stepsLeft_copy hp).symm
  rcases h.next with ⟨hop, hnext⟩ | ⟨-, hcopy, hsame, -⟩
  · rw [Dec.stepsLeft_op hop, hcount, huncomp, hout, hnext]
    omega
  · rw [Dec.stepsLeft_copy hcopy, hcount, huncomp, hout, hsame]
    omega

/-- What a step of a run past `BEGIN` does to the run: it goes on, with fewer steps left, or ends. -/
theorem DecStep.goesOn_or_ends (h : DecStep s d) (hinv : s.Inv) (hr : s.dec.running) :
    (d.running ∨ d.ended) ∧ d.stepsLeft < s.dec.stepsLeft := by
  obtain ⟨-, hcursors, hcopy, -⟩ := hinv.dec_running hr
  obtain ⟨-, hfs, -, hop, hroom⟩ := id hcursors
  have hpos := Dec.stepsLeft_pos hcursors hr
  have ends (d' : Dec) (kind : ErrorKind) (p : Nat) :
      ((d'.failed kind p).running ∨ (d'.failed kind p).ended)
      ∧ (d'.failed kind p).stepsLeft < s.dec.stepsLeft :=
    ⟨.inr (.inr rfl), by rwa [Dec.stepsLeft_halt rfl]⟩
  have advanced {d' : Dec} (v : Byte) (hd : s.dec.Advanced d')
      (hphase : s.dec.phase = .lit ∨ s.dec.phase = .copy)
      (hroom : s.dec.outPos.toNat < s.dec.uncompSize.toNat) :
      ((s.withOutput d' v).dec.running ∨ (s.withOutput d' v).dec.ended)
      ∧ (s.withOutput d' v).dec.stepsLeft < s.dec.stepsLeft := by
    refine ⟨.inl ?_, hd.stepsLeft_lt hphase (hop (by rcases hphase with h | h <;> simp [h])) hroom⟩
    rcases hd.next with ⟨h, -⟩ | ⟨-, h, -⟩
    · exact .inl h
    · exact .inr (.inr (.inr h))
  cases h with
  | beginFails hphase | begins hphase =>
    rcases hr with h | h | h | h <;> exact absurd (h.symm.trans hphase) (by decide)
  | finish =>
    refine ⟨.inr ?_, ?_⟩
    · unfold Dec.finished
      split_ifs
      · exact .inl rfl
      · exact .inr rfl
      · exact .inl rfl
    · rwa [Dec.stepsLeft_halt (by rw [Dec.finished_eq])]
  | bitmapMissing | entryMissing | copyFails => exact ends ..
  | fetch hphase =>
    have hentry : (s.dec.fetched s.shiftedByte).phase = .lit
        ∨ (s.dec.fetched s.shiftedByte).phase = .ref := by
      rw [Dec.fetched]
      split
      · exact .inr rfl
      · exact .inl rfl
    refine ⟨.inl (hentry.elim (fun h => .inr (.inl h)) fun h => .inr (.inr (.inl h))), ?_⟩
    rw [Dec.stepsLeft_entry hentry, Dec.stepsLeft_op hphase]
    exact Nat.lt_succ_self _
  | ref hphase =>
    refine ⟨.inl (.inr (.inr (.inr rfl))), ?_⟩
    rw [Dec.stepsLeft_entry (.inr hphase)] at hpos ⊢
    rw [Dec.stepsLeft_copy rfl]
    exact Nat.sub_lt hpos Nat.one_pos
  | lit hphase hentry =>
    have hroom := hroom (.inl hphase)
    exact advanced _ (s.dec.afterLit_advanced (hop (.inl hphase)) hentry hroom) (.inl hphase) hroom
  | copy hphase hfits hremain =>
    have hroom := Nat.lt_of_not_le fun hle => hfits (.inl hle)
    exact advanced _ (s.dec.afterCopy_advanced hphase (hop (.inr (.inr hphase))) hfs hroom hremain)
      (.inr hphase) hroom
  | copyNothing hphase _ hremain =>
    obtain ⟨h1, -⟩ := hcopy hphase
    omega

/-- A state that a run past `BEGIN` from `s` passes through or ends in: nothing outside `DEC` has changed,
and a property holds. -/
def State.OnDecRun (s : State) (Keeps : State → Prop) (t : State) : Prop :=
  t.Inv ∧ s.onlyDec t ∧ Keeps t ∧ (t.dec.running ∨ t.dec.ended)

/-- What every step of a run keeps holds all along the run. -/
theorem State.OnDecRun.step {Keeps : State → Prop}
    (hkeep : ∀ s d, s.Inv → s.dec.running → DecStep s d → Keeps s → Keeps (s.setDec d))
    (ha : s.agenda = []) (ht : s.OnDecRun Keeps t) (hends : ¬ t.dec.ended) :
    ∃ t', step t = .next t' ∧ s.OnDecRun Keeps t' ∧ t'.dec.stepsLeft < t.dec.stepsLeft := by
  obtain ⟨hinv, ⟨henc, hplat, hagenda, hreturned, hepoch⟩, hkeeps, hr⟩ := ht
  have hr := hr.resolve_right hends
  have hb := hinv.dec_busy hr
  obtain ⟨t', ht'⟩ := decTurn_progress hinv
  obtain ⟨d, hd, rfl⟩ := decTurn_step hb ht'
  obtain ⟨hgoes, hlt⟩ := hd.goesOn_or_ends hinv hr
  exact ⟨_, (step_of_decBusy (hagenda.trans ha) hb).trans ht',
    ⟨hd.inv hinv hb, ⟨henc, hplat, hagenda, hreturned, hepoch⟩, hkeep t d hinv hr hd hkeeps, hgoes⟩, hlt⟩

/-- A run past `BEGIN` ends, and what every step of such a run keeps holds at its end
(41_decoder.md R166). -/
theorem decRun_ends {Keeps : State → Prop}
    (hkeep : ∀ s d, s.Inv → s.dec.running → DecStep s d → Keeps s → Keeps (s.setDec d))
    (hinv : s.Inv) (ha : s.agenda = []) (hr : s.dec.running) (h : Keeps s) :
    ∃ k t, k ≤ s.dec.stepsLeft ∧ core.run k s = .next t ∧ s.OnDecRun Keeps t ∧ t.dec.ended :=
  run_of_measure (Goal := fun t => t.dec.ended) (fun t => t.dec.stepsLeft)
    (fun _ ht hends => ht.step hkeep ha hends) ⟨hinv, ⟨rfl, rfl, rfl, rfl, rfl⟩, h, .inl hr⟩

/-- The bound of R166 is the measure where a run has all its operations to go. -/
theorem Dec.stepsLeft_le (hr : d.running) :
    d.stepsLeft ≤ 1 + 2 * d.opCount.toNat + 1 + d.uncompSize.toNat + d.opCount.toNat := by
  rcases hr with h | h | h | h
  · rw [Dec.stepsLeft_op h]
    omega
  · rw [Dec.stepsLeft_entry (.inl h)]
    omega
  · rw [Dec.stepsLeft_entry (.inr h)]
    omega
  · rw [Dec.stepsLeft_copy h]
    omega

/-- Settles O50: every step of the run lowers `Dec.stepsLeft`. -/
theorem decoderRunEnds : Obligations.DecoderRunEnds := by
  intro s hinv ha hr
  obtain ⟨k, t, hk, hrun, -, hends⟩ :=
    decRun_ends (Keeps := fun _ => True) (fun _ _ _ _ _ _ => trivial) hinv ha hr trivial
  exact ⟨k, t, hk.trans (Dec.stepsLeft_le hr), hrun, hends⟩

end Sys2Proof.Machine
end

section
/-! PROOF. A whole back-reference repeats the pattern before it (41_decoder.md R157 to R159). -/

namespace Sys2Proof.Machine

variable {s t : State}

/-- The registers after the rest of a copy (41_decoder.md R158). -/
def Dec.copied (d : Dec) (n : Nat) : Dec :=
  { d with
    curRemain := 0, outPos := toWord (d.outPos.toNat + n), opIdx := toWord (d.opIdx.toNat + 1)
    phase := .op }

theorem State.onlyDec.trans {r : State} (h : s.onlyDec t) (h' : t.onlyDec r) : s.onlyDec r := by
  obtain ⟨henc, hplat, hagenda, hreturned, hepoch⟩ := h
  obtain ⟨henc', hplat', hagenda', hreturned', hepoch'⟩ := h'
  exact ⟨henc'.trans henc, hplat'.trans hplat, hagenda'.trans hagenda, hreturned'.trans hreturned,
    hepoch'.trans hepoch⟩

/-- One step of a copy that has room and reaches back no further than the start of the output
(41_decoder.md R158). -/
theorem step_copy (hinv : s.Inv) (ha : s.agenda = []) (hphase : s.dec.phase = .copy)
    (hfits : ¬ s.dec.copyFails) :
    ∃ t, step s = .next t ∧ t.Inv ∧ s.onlyDec t
      ∧ t.dec = { s.dec.afterCopy with dout := t.dec.dout }
      ∧ t.byteAt .dout s.dec.outPos.toNat
          = s.byteAt .dout (s.dec.outPos.toNat - s.dec.curOffset.toNat)
      ∧ s.onlyBytes t .dout s.dec.outPos.toNat 1 := by
  obtain ⟨t, hstep, honly, hcopied⟩ := copyStepMovesOneByte s hinv
    ⟨hinv.dec_busy (.inr (.inr (.inr hphase))), .inl ha⟩ hphase
  rw [State.popped_of_nil ha] at honly
  rw [if_neg hfits] at hcopied
  exact ⟨t, hstep, stepKeepsTheInvariant s t hinv hstep, honly, hcopied⟩

/-- What is left of a copy takes one step for each of its bytes; each byte is the one `CUR_OFFSET` before
it, as it stands at the end (41_decoder.md R158, R159). -/
theorem run_copy {n : Nat} (hinv : s.Inv) (ha : s.agenda = []) (hphase : s.dec.phase = .copy)
    (hremain : s.dec.curRemain.toNat = n + 1) (h1 : 1 ≤ s.dec.curOffset.toNat)
    (hback : s.dec.curOffset.toNat ≤ s.dec.outPos.toNat)
    (hfits : s.dec.outPos.toNat + (n + 1) ≤ s.dec.uncompSize.toNat) :
    ∃ t, core.run (n + 1) s = .next t ∧ s.onlyDec t
      ∧ t.dec = { s.dec.copied (n + 1) with dout := t.dec.dout }
      ∧ (∀ k < n + 1, t.byteAt .dout (s.dec.outPos.toNat + k)
          = t.byteAt .dout (s.dec.outPos.toNat + k - s.dec.curOffset.toNat))
      ∧ s.onlyBytes t .dout s.dec.outPos.toNat (n + 1) := by
  have hlen := s.dec.uncompSize.isLt
  obtain ⟨s', hstep, hinv', honly, hdec, hbyte, hkept⟩ :=
    step_copy hinv ha hphase (not_or.mpr ⟨by omega, by omega⟩)
  induction n generalizing s s' with
  | zero =>
    refine ⟨s', run_succ hstep 0, honly, ?_, fun k hk => ?_, hkept⟩
    · simpa [hremain, Dec.copied, Dec.afterCopy, toCount] using hdec
    · obtain rfl : k = 0 := by omega
      rw [Nat.add_zero, hbyte]
      exact (hkept _ _ (by omega)).symm
  | succ n ih =>
    have ha' : s'.agenda = [] := by
      obtain ⟨-, -, hagenda, -⟩ := honly
      exact hagenda.trans ha
    have hlast : s.dec.curRemain.toNat ≠ 1 := by omega
    have hphase' : s'.dec.phase = .copy := (congrArg Dec.phase hdec).trans (if_neg hlast)
    have hoff' : s'.dec.curOffset = s.dec.curOffset := (congrArg Dec.curOffset hdec).trans rfl
    have hidx' : s'.dec.opIdx = s.dec.opIdx := (congrArg Dec.opIdx hdec).trans (if_neg hlast)
    have huncomp' : s'.dec.uncompSize = s.dec.uncompSize := (congrArg Dec.uncompSize hdec).trans rfl
    have hout' : s'.dec.outPos.toNat = s.dec.outPos.toNat + 1 :=
      (congrArg (·.outPos.toNat) hdec).trans (toNat_toWord (by omega))
    have hremain' : s'.dec.curRemain.toNat = n + 1 := by
      have := s.dec.curRemain.isLt
      refine (congrArg (·.curRemain.toNat) hdec).trans ((toNat_toCount ?_).trans ?_) <;> omega
    obtain ⟨s'', hstep', hinv'', honly', hdec', hbyte', hkept'⟩ :=
      step_copy hinv' ha' hphase'
        (not_or.mpr ⟨by rw [huncomp']; omega, by rw [hoff']; omega⟩)
    obtain ⟨t, hrun, honlyt, hdect, hpattern, hkeptt⟩ := ih hinv' ha' hphase'
      hremain' (hoff' ▸ h1) (by rw [hoff']; omega) (by rw [huncomp']; omega) s'.dec.uncompSize.isLt
      s'' hstep' hinv'' honly' hdec' hbyte' hkept'
    refine ⟨t, (run_succ hstep (n + 1)).trans hrun, honly.trans honlyt, ?_, fun k hk => ?_,
      fun sp x hx => ?_⟩
    · rw [hdect]
      simp only [Dec.copied, hout', hidx']
      rw [hdec]
      simp [Dec.afterCopy, Nat.add_assoc, Nat.add_comm 1]
    · cases k with
      | zero =>
        rw [Nat.add_zero, hkeptt _ _ (by omega), hbyte, hkeptt _ _ (by omega),
          hkept _ _ (by omega)]
      | succ k =>
        have := hpattern k (by omega)
        rwa [hout', hoff', Nat.add_right_comm, Nat.add_assoc] at this
    · rw [hkeptt sp x (hx.imp_right (by omega)), hkept sp x (hx.imp_right (by omega))]

/-- A copy of which each byte is the one `offset` before it repeats the first `offset` bytes. -/
theorem byteAt_of_pattern {out offset n k : Nat} (h1 : 1 ≤ offset) (hback : offset ≤ out)
    (hpattern : ∀ k < n, t.byteAt .dout (out + k) = t.byteAt .dout (out + k - offset)) (hk : k < n) :
    t.byteAt .dout (out + k) = t.byteAt .dout (out - offset + k % offset) := by
  induction k using Nat.strongRecOn with
  | ind k ih =>
    rw [hpattern k hk]
    rcases Nat.lt_or_ge k offset with hlt | hge
    · rw [Nat.mod_eq_of_lt hlt]
      congr 1
      omega
    · have := ih (k - offset) (by omega) (by omega)
      rw [Nat.mod_eq_sub_mod hge, ← this]
      congr 1
      omega

/-- Settles O13: the step `REF` and the copy, whose bytes repeat with the offset. -/
theorem wholeBackReferenceRepeatsThePattern : Obligations.WholeBackReferenceRepeatsThePattern := by
  intro s hinv ha hphase hentry offset length hback hfits
  have hr : s.dec.running := .inr (.inr (.inl hphase))
  have hb := hinv.dec_busy hr
  have hcopying := DecStep.ref hphase hentry
  have hstep := (step_of_decBusy ha hb).trans ((decTurn_ref hb hphase).trans
    (runOperation_ref_of_inv hinv hr (Nat.not_lt.mpr hentry)))
  rw [unpackOffset_eq, unpackLength_eq] at hcopying hstep
  obtain ⟨hoff, hlen⟩ := toNat_toCount_unpack s.dec.split.lengthBits
    (le16_lt (s.byteAt .dsrc s.dec.entryAddr) (s.byteAt .dsrc (s.dec.entryAddr + 1)))
  rw [unpackOffset_eq] at hoff
  rw [unpackLength_eq] at hlen
  have hoff : (toCount offset).toNat = offset := hoff
  have h1 : 1 ≤ (toCount offset).toNat := hoff.symm ▸ Nat.succ_pos _
  obtain ⟨t, hrun, honly, hdec, hpattern, hkept⟩ := run_copy
    (s := s.setDec (s.dec.copying offset length)) (n := length - 1)
    (hcopying.inv hinv hb) ha rfl hlen h1 (hoff.trans_le hback) hfits
  have hsame := State.byteAt_setDec (s := s) (d := s.dec.copying offset length) rfl rfl
  refine ⟨t, ?_, honly, hdec, fun k hk => ?_, fun sp x hx => ?_⟩
  · rw [Nat.add_comm]
    exact (run_succ hstep _).trans hrun
  · have hmod : k % offset < offset := Nat.mod_lt k (Nat.succ_pos _)
    have hbefore : s.dec.outPos.toNat - offset + k % offset < s.dec.outPos.toNat := by omega
    have hpattern : ∀ k < length, t.byteAt .dout (s.dec.outPos.toNat + k)
        = t.byteAt .dout (s.dec.outPos.toNat + k - offset) := hoff ▸ hpattern
    exact (byteAt_of_pattern (Nat.succ_pos _) hback hpattern hk).trans
      ((hkept _ _ (.inr (.inl hbefore))).trans (hsame ..))
  · exact (hkept sp x hx).trans (hsame sp x)

end Sys2Proof.Machine
end

section
/-! PROOF. The rounds of `Decode` (41_decoder.md R151). -/

namespace Sys2Proof.Machine

variable {l left op fp o : Nat} {strict : Bool} {b : Block} {out : List Byte}

/-- `Decode` after the copy of a back-reference, with `left` operations after it (41_decoder.md R151). -/
def decodeCopied (l : Nat) (strict : Bool) (b : Block) (left op fp : Nat) :
    Option (List Byte × Nat) → DecodeResult
  | none => .err .invalidBackReference
  | some (out, o) => decodeLoop l strict b.uncompSize b.bitmap b.fields left (op + 1) fp o out

/-- `Decode` from an operation whose control bit is known, with `left` operations after it
(41_decoder.md R151). -/
def decodeRound (l : Nat) (strict : Bool) (b : Block) (left op fp o : Nat) (out : List Byte) :
    Bool → DecodeResult
  | false =>
    match b.fields[fp]? with
    | none => .err .truncatedStream
    | some v =>
      decodeLoop l strict b.uncompSize b.bitmap b.fields left (op + 1) (fp + 1) (o + 1) (out.set o v)
  | true =>
    match b.fields[fp]?, b.fields[fp + 1]? with
    | some b0, some b1 =>
      decodeCopied l strict b left op (fp + 2)
        (copyLoop b.uncompSize (unpackOffset l (le16 b0 b1)) (unpackLength l (le16 b0 b1)) out o)
    | _, _ => .err .truncatedStream

/-- The operations are over, or the output is full. -/
theorem decodeLoop_over (h : left = 0 ∨ b.uncompSize ≤ o) :
    decodeLoop l strict b.uncompSize b.bitmap b.fields left op fp o out =
      decodeEnd strict b.uncompSize out o := by
  cases left with
  | zero => rfl
  | succ left => exact if_pos (h.resolve_left (Nat.succ_ne_zero left))

theorem decodeLoop_bitmapMissing (ho : o < b.uncompSize) (h : b.bitmap.length ≤ op / 8) :
    decodeLoop l strict b.uncompSize b.bitmap b.fields (left + 1) op fp o out =
      .err .truncatedStream := by
  rw [decodeLoop, if_neg (Nat.not_le.mpr ho), List.getElem?_eq_none h]

theorem decodeLoop_fetch {v : Byte} (ho : o < b.uncompSize) (h : b.bitmap[op / 8]? = some v) :
    decodeLoop l strict b.uncompSize b.bitmap b.fields (left + 1) op fp o out =
      decodeRound l strict b left op fp o out (ctrlBit v op) := by
  rw [decodeLoop, if_neg (Nat.not_le.mpr ho), h]
  dsimp only
  cases ctrlBit v op with
  | false => rfl
  | true =>
    rw [decodeRound]
    split
    · split <;> simp_all
    · rfl

theorem decodeRound_entryMissing {ctrl : Bool} (h : b.fields.length < fp + entryLength ctrl) :
    decodeRound l strict b left op fp o out ctrl = .err .truncatedStream := by
  cases ctrl with
  | false =>
    rw [decodeRound, List.getElem?_eq_none (Nat.le_of_lt_succ h)]
  | true =>
    have hmissing : b.fields[fp + 1]? = none := List.getElem?_eq_none (Nat.le_of_lt_succ h)
    rw [decodeRound, hmissing]
    cases b.fields[fp]? <;> rfl

theorem decodeRound_lit {v : Byte} (h : b.fields[fp]? = some v) :
    decodeRound l strict b left op fp o out false =
      decodeLoop l strict b.uncompSize b.bitmap b.fields left (op + 1) (fp + 1) (o + 1)
        (out.set o v) := by
  rw [decodeRound, h]

theorem decodeRound_ref {b0 b1 : Byte} (h0 : b.fields[fp]? = some b0)
    (h1 : b.fields[fp + 1]? = some b1) :
    decodeRound l strict b left op fp o out true =
      decodeCopied l strict b left op (fp + 2)
        (copyLoop b.uncompSize (unpackOffset l (le16 b0 b1)) (unpackLength l (le16 b0 b1)) out o) := by
  rw [decodeRound, h0, h1]

end Sys2Proof.Machine
end

section
/-! PROOF. A decoder run computes `Decode` (41_decoder.md R151, R170). -/

namespace Sys2Proof.Machine

variable {s t : State} {d : Dec}

/-- What `Decode` yields from where the run stands, for the block and the output so far; at the end of
the run, what the run has yielded (41_decoder.md R151). -/
def Dec.yields (d : Dec) (b : Block) (out : List Byte) : DecodeResult :=
  let l := d.cfg.lengthBits.toNat
  let strict := d.cfg.strict
  let left := d.opCount.toNat - d.opIdx.toNat
  let op := d.opIdx.toNat
  let fp := d.fsPos.toNat
  let o := d.outPos.toNat
  match d.phase with
  | .halt =>
    match d.err with
    | none => .ok out o d.underfill
    | some kind => .err kind
  | .begin_ => decodeBlock l strict b
  | .op => decodeLoop l strict b.uncompSize b.bitmap b.fields left op fp o out
  | .lit => decodeRound l strict b (left - 1) op fp o out false
  | .ref => decodeRound l strict b (left - 1) op fp o out true
  | .copy =>
    decodeCopied l strict b (left - 1) op fp
      (copyLoop b.uncompSize d.curOffset.toNat d.curRemain.toNat out o)

/-- The output so far (41_decoder.md R151). -/
def State.output (s : State) : List Byte :=
  s.slice .dout 0 s.dec.uncompSize.toNat

/-- What the run yields from the state on (41_decoder.md R170). -/
def State.yields (s : State) : DecodeResult :=
  s.dec.yields s.decBlock s.output

theorem Dec.yields_halt {b : Block} {out : List Byte} (h : d.phase = .halt) :
    d.yields b out = match d.err with
      | none => .ok out d.outPos.toNat d.underfill
      | some kind => .err kind := by
  simp only [Dec.yields, h]

theorem Dec.yields_op {b : Block} {out : List Byte} (h : d.phase = .op) :
    d.yields b out = decodeLoop d.cfg.lengthBits.toNat d.cfg.strict b.uncompSize b.bitmap b.fields
      (d.opCount.toNat - d.opIdx.toNat) d.opIdx.toNat d.fsPos.toNat d.outPos.toNat out := by
  simp only [Dec.yields, h]

theorem Dec.yields_entry {b : Block} {out : List Byte} {ctrl : Bool}
    (h : d.phase = if ctrl then .ref else .lit) :
    d.yields b out = decodeRound d.cfg.lengthBits.toNat d.cfg.strict b
      (d.opCount.toNat - d.opIdx.toNat - 1) d.opIdx.toNat d.fsPos.toNat d.outPos.toNat out ctrl := by
  cases ctrl <;> simp_all [Dec.yields]

theorem Dec.yields_copy {b : Block} {out : List Byte} (h : d.phase = .copy) :
    d.yields b out = decodeCopied d.cfg.lengthBits.toNat d.cfg.strict b
      (d.opCount.toNat - d.opIdx.toNat - 1) d.opIdx.toNat d.fsPos.toNat
      (copyLoop b.uncompSize d.curOffset.toNat d.curRemain.toNat out d.outPos.toNat) := by
  simp only [Dec.yields, h]

/-- A byte of output sets a byte of the output so far. -/
theorem State.output_withOutput (hsrc : d.dsrc = s.dec.dsrc) (huncomp : d.uncompSize = s.dec.uncompSize)
    (v : Byte) : (s.withOutput d v).output = s.output.set s.dec.outPos.toNat v := by
  refine List.ext_getElem (by simp [State.output, State.withOutput, huncomp]) fun j hj hj' => ?_
  rw [List.getElem_set]
  simp only [State.output, State.slice, List.getElem_map, List.getElem_range, Nat.zero_add,
    State.byteAt_withOutput hsrc, true_and]
  simp only [eq_comm]

/-- `Finish` yields what the end of `Decode` does (41_decoder.md R160). -/
theorem Dec.yields_finished {b : Block} {out : List Byte} (herr : d.err = none)
    (huncomp : b.uncompSize = d.uncompSize.toNat) :
    d.finished.yields b out = decodeEnd d.cfg.strict b.uncompSize out d.outPos.toNat := by
  have hfull : d.outPos.toNat = d.uncompSize.toNat ↔ d.outPos = d.uncompSize :=
    ⟨BitVec.eq_of_toNat_eq, fun h => congrArg BitVec.toNat h⟩
  rw [decodeEnd, huncomp, Dec.finished]
  by_cases hout : d.outPos = d.uncompSize
  · rw [if_pos hout, Dec.yields_halt rfl, herr]
    simp [hout]
  by_cases hstrict : d.cfg.strict
  · rw [if_neg hout, if_pos hstrict]
    simp [hfull, hout, hstrict, Dec.yields, Dec.failed]
  · rw [if_neg hout, if_neg hstrict, Dec.yields_halt rfl, herr]
    simp [hfull, hout, hstrict]

/-- What step `OP` fetches is what a round of `Decode` looks at (41_decoder.md R155). -/
theorem State.bitmap_getElem? (h : s.dec.opIdx.toNat / 8 < s.dec.bmLen.toNat) :
    s.decBlock.bitmap[s.dec.opIdx.toNat / 8]? = some s.bitmapByte :=
  State.getElem?_slice s _ _ h

theorem State.fields_getElem? {j : Nat} (h : j < s.dec.fsLen.toNat) :
    s.decBlock.fields[j]? = some (s.byteAt .dsrc (s.dec.fsBase.toNat + j)) :=
  State.getElem?_slice s _ _ h

/-- The number of operations left is that of the operation at `OP_IDX` and those after it. -/
theorem Dec.left_eq_succ (h : d.opIdx.toNat < d.opCount.toNat) :
    d.opCount.toNat - d.opIdx.toNat = d.opCount.toNat - d.opIdx.toNat - 1 + 1 := by omega

/-- The rounds of `Decode` in phase `OP`, with an operation to start. -/
theorem State.yields_op_fetch (hinv : s.Inv) (hphase : s.dec.phase = .op) (hover : ¬ s.dec.runOver)
    (hthere : ¬ s.dec.bitmapMissing) :
    (s.setDec (s.dec.fetched s.shiftedByte)).yields = s.yields := by
  obtain ⟨hop, hroom⟩ := room_of_not_runOver hinv (.inl hphase) hover
  have hbyte := State.bitmap_getElem? (bitmap_has_byte hinv hphase hthere)
  rw [shiftedByte_of_inv hinv hphase, Dec.fetched_shift, State.yields, State.yields,
    Dec.yields_op hphase, Dec.left_eq_succ hop, decodeLoop_fetch hroom hbyte]
  exact Dec.yields_entry rfl

/-- The block is the same after a byte of output, and the output has the byte. -/
theorem State.yields_withOutput (hd : s.dec.Advanced d) (v : Byte) :
    (s.withOutput d v).yields = d.yields s.decBlock (s.output.set s.dec.outPos.toNat v) := by
  obtain ⟨hout, -, hkept, -⟩ := hd
  have houtput := State.output_withOutput (s := s) (d := d) (by rw [hkept]) (by rw [hkept]) v
  have hblock : (s.withOutput d v).decBlock = s.decBlock := by rw [hkept]; rfl
  rw [State.yields, hblock, houtput]
  rfl

/-- Where an operation ends with a byte of output, the next round of `Decode` begins. -/
theorem Dec.Advanced.yields_op (hd : s.dec.Advanced d) (hphase : d.phase = .op)
    (hidx : d.opIdx.toNat = s.dec.opIdx.toNat + 1) {b : Block} {out : List Byte} :
    d.yields b out = decodeLoop s.dec.cfg.lengthBits.toNat s.dec.cfg.strict b.uncompSize b.bitmap
      b.fields (s.dec.opCount.toNat - s.dec.opIdx.toNat - 1) (s.dec.opIdx.toNat + 1) d.fsPos.toNat
      (s.dec.outPos.toNat + 1) out := by
  have hcfg : d.cfg = s.dec.cfg := by rw [hd.kept]
  have hcount : d.opCount = s.dec.opCount := by rw [hd.kept]
  rw [Dec.yields_op hphase, hcfg, hcount, hidx, hd.outPos, Nat.sub_add_eq]

/-- A literal's byte joins the output (41_decoder.md R156). -/
theorem State.yields_lit (hphase : s.dec.phase = .lit)
    (hop : s.dec.opIdx.toNat < s.dec.opCount.toNat)
    (hroom : s.dec.outPos.toNat < s.dec.uncompSize.toNat)
    (hentry : s.dec.fsPos.toNat + 1 ≤ s.dec.fsLen.toNat) :
    (s.withOutput s.dec.afterLit (s.byteAt .dsrc s.dec.entryAddr)).yields = s.yields := by
  have hd := s.dec.afterLit_advanced hop hentry hroom
  have hidx : s.dec.afterLit.opIdx.toNat = s.dec.opIdx.toNat + 1 :=
    toNat_toWord (lt_of_le_of_lt hop s.dec.opCount.isLt)
  have hfs : s.dec.afterLit.fsPos.toNat = s.dec.fsPos.toNat + 1 :=
    toNat_toWord (lt_of_le_of_lt hentry s.dec.fsLen.isLt)
  rw [State.yields_withOutput hd, hd.yields_op rfl hidx, hfs, State.yields,
    Dec.yields_entry (ctrl := false) hphase, decodeRound_lit (State.fields_getElem? hentry)]
  rfl

/-- The operands are what `Decode` unpacks (41_decoder.md R157). -/
theorem State.yields_ref (hphase : s.dec.phase = .ref)
    (hentry : s.dec.fsPos.toNat + 2 ≤ s.dec.fsLen.toNat) :
    (s.setDec (s.dec.copying (unpackOffset s.dec.split.lengthBits s.fieldAtCursor)
      (unpackLength s.dec.split.lengthBits s.fieldAtCursor))).yields = s.yields := by
  have := s.dec.fsLen.isLt
  obtain ⟨hoff, hlen⟩ := toNat_toCount_unpack s.dec.split.lengthBits
    (le16_lt (s.byteAt .dsrc s.dec.entryAddr) (s.byteAt .dsrc (s.dec.entryAddr + 1)))
  rw [← unpackOffset_eq] at hoff
  rw [← unpackLength_eq] at hlen
  have hfs' : (toWord (s.dec.fsPos.toNat + 2)).toNat = s.dec.fsPos.toNat + 2 :=
    toNat_toWord (by omega)
  rw [State.yields, State.yields, Dec.yields_entry (ctrl := true) hphase,
    decodeRound_ref (State.fields_getElem? (Nat.lt_of_succ_lt hentry)) (State.fields_getElem? hentry),
    Dec.yields_copy rfl]
  simp only [State.setDec_dec, Dec.copying, hfs', State.fieldAtCursor, hoff, hlen]
  rfl

/-- A byte of a copy is a round of the copy loop (41_decoder.md R158). -/
theorem State.yields_copy (hphase : s.dec.phase = .copy) (hfits : ¬ s.dec.copyFails)
    (hop : s.dec.opIdx.toNat < s.dec.opCount.toNat) (hfs : s.dec.fsPos.toNat ≤ s.dec.fsLen.toNat)
    (hremain : 1 ≤ s.dec.curRemain.toNat) :
    (s.withOutput s.dec.afterCopy
      (s.byteAt .dout (s.dec.outPos.toNat - s.dec.curOffset.toNat))).yields = s.yields := by
  have hroom := Nat.lt_of_not_le (not_or.mp hfits).1
  have hd := s.dec.afterCopy_advanced hphase hop hfs hroom hremain
  obtain ⟨n, hn⟩ := Nat.exists_eq_add_of_le' hremain
  have hbyte : s.output.getD (s.dec.outPos.toNat - s.dec.curOffset.toNat) 0 =
      s.byteAt .dout (s.dec.outPos.toNat - s.dec.curOffset.toNat) := by
    rw [List.getD_eq_getElem?_getD, State.output,
      State.getElem?_slice s _ _ (lt_of_le_of_lt (Nat.sub_le ..) hroom), Nat.zero_add,
      Option.getD_some]
  have hround : copyLoop s.decBlock.uncompSize s.dec.curOffset.toNat (n + 1) s.output
      s.dec.outPos.toNat = copyLoop s.decBlock.uncompSize s.dec.curOffset.toNat n
        (s.output.set s.dec.outPos.toNat
          (s.byteAt .dout (s.dec.outPos.toNat - s.dec.curOffset.toNat)))
        (s.dec.outPos.toNat + 1) := by
    rw [← hbyte]
    exact if_neg hfits
  rw [State.yields_withOutput hd, State.yields, Dec.yields_copy hphase, hn, hround]
  rcases hd.next with ⟨hphase', hidx⟩ | ⟨-, hphase', hidx, h1, -⟩
  · have hlast : s.dec.curRemain.toNat = 1 := by
      by_contra h
      exact absurd (hphase'.symm.trans (if_neg h)) (by decide)
    obtain rfl : n = 0 := by omega
    exact hd.yields_op hphase' hidx
  · have hremain' : s.dec.afterCopy.curRemain.toNat = n := by
      have := s.dec.curRemain.isLt
      refine (toNat_toCount ?_).trans ?_ <;> omega
    rw [Dec.yields_copy hphase', hremain', hidx, hd.outPos]
    rfl

/-- No step of a run past `BEGIN` changes what the run yields. -/
theorem DecStep.yields_eq (h : DecStep s d) (hinv : s.Inv) (hr : s.dec.running) :
    (s.setDec d).yields = s.yields := by
  obtain ⟨-, ⟨hidx, hfs, hout, hop, hroom⟩, hcopy, -⟩ := hinv.dec_running hr
  have hbusy := hinv.dec_busy hr
  cases h with
  | beginFails hphase | begins hphase =>
    rcases hr with h | h | h | h <;> exact absurd (h.symm.trans hphase) (by decide)
  | finish hphase hover =>
    obtain ⟨-, -, ⟨⟨-, herr, -⟩, -⟩, -⟩ := hinv
    have herr : s.dec.err = none := herr.mpr (by rw [hbusy]; decide)
    have hblock : (s.setDec s.dec.finished).decBlock = s.decBlock := by rw [Dec.finished_eq]; rfl
    have houtput : (s.setDec s.dec.finished).output = s.output := by rw [Dec.finished_eq]; rfl
    have hleft : s.dec.opCount.toNat - s.dec.opIdx.toNat = 0
        ∨ s.decBlock.uncompSize ≤ s.dec.outPos.toNat :=
      hover.imp_left fun h => by rw [h, Nat.sub_self]
    rw [State.yields, State.yields, hblock, houtput, Dec.yields_op hphase, decodeLoop_over hleft]
    exact Dec.yields_finished herr rfl
  | bitmapMissing hphase hover hmissing =>
    obtain ⟨hop, hroom⟩ := room_of_not_runOver hinv hr hover
    rw [State.yields, State.yields, Dec.yields_op hphase, Dec.left_eq_succ hop,
      decodeLoop_bitmapMissing hroom ((State.slice_length ..).trans_le hmissing.2)]
    rfl
  | fetch hphase hover hthere => exact State.yields_op_fetch hinv hphase hover hthere
  | entryMissing hphase hmissing =>
    rw [State.yields, State.yields, Dec.yields_entry hphase,
      decodeRound_entryMissing ((State.slice_length ..).trans_lt hmissing)]
    rfl
  | lit hphase hentry =>
    exact State.yields_lit hphase (hop (.inl hphase)) (hroom (.inl hphase)) hentry
  | ref hphase hentry => exact State.yields_ref hphase hentry
  | copyFails hphase hfails =>
    obtain ⟨h1, -⟩ := hcopy hphase
    obtain ⟨n, hn⟩ := Nat.exists_eq_add_of_le' h1
    have hround : copyLoop s.decBlock.uncompSize s.dec.curOffset.toNat (n + 1) s.output
        s.dec.outPos.toNat = none := if_pos hfails
    rw [State.yields, State.yields, Dec.yields_copy hphase, hn, hround]
    rfl
  | copy hphase hfits hremain =>
    exact State.yields_copy hphase hfits (hop (.inr (.inr hphase))) hfs hremain
  | copyNothing hphase _ hremain =>
    obtain ⟨h1, -⟩ := hcopy hphase
    omega

/-- A `BEGIN` that raises nothing leaves the run at its first operation, with the output clear, so the run
yields what `Decode` does (42_host_commands.md R195). -/
theorem DecStep.yields_begins (h : DecStep s d) (hinv : s.Inv) (hphase : s.dec.phase = .begin_)
    (hb : d.runState = .busy) :
    d.phase = .op ∧ (s.setDec d).yields =
      decodeBlock d.cfg.lengthBits.toNat d.cfg.strict (s.setDec d).decBlock := by
  have hinv' : (s.setDec d).Inv := h.inv hinv (by
    by_contra hrest
    exact absurd (hphase.symm.trans (hinv.dec_halt hrest)) (by decide))
  obtain ⟨-, -, ⟨-, hbegin, -⟩, -⟩ := hinv
  obtain ⟨hidx, hfs, hout, -⟩ := hbegin hphase
  cases h with
  | beginFails => cases hb
  | @begins d _ hd =>
    have hop : d.outputCleared.phase = .op := rfl
    obtain ⟨-, -, -, -, hzero⟩ := hinv'.dec_running (.inl hop)
    obtain ⟨_, _, _, _, _, _, heq⟩ := hd.same
    have hidx : d.outputCleared.opIdx = 0 := by rw [heq]; exact hidx
    have hfs : d.outputCleared.fsPos = 0 := by rw [heq]; exact hfs
    have hout : d.outputCleared.outPos = 0 := by rw [heq]; exact hout
    have houtput : (s.setDec d.outputCleared).output =
        List.replicate d.outputCleared.uncompSize.toNat 0 := by
      refine List.eq_replicate_iff.mpr ⟨State.slice_length .., fun b hb => ?_⟩
      obtain ⟨j, hj, rfl⟩ := List.mem_map.mp hb
      refine hzero _ ?_ ?_
      · rw [Nat.zero_add]
        exact List.mem_range.mp hj
      · rw [State.setDec_dec, hout]
        exact Nat.zero_le _
    refine ⟨hop, ?_⟩
    rw [State.yields, State.setDec_dec, Dec.yields_op hop, houtput, hidx, hfs, hout]
    rfl
  | finish h | bitmapMissing h | fetch h | lit h | ref h | copyFails h | copy h | copyNothing h =>
    exact absurd (hphase.symm.trans h) (by decide)
  | @entryMissing ctrl h => cases ctrl <;> exact absurd (hphase.symm.trans h) (by decide)

/-- No step writes `DSRC` (20_memory.md R66). -/
theorem DecStep.dsrc_eq (h : DecStep s d) : d.dsrc = s.dec.dsrc := by
  obtain ⟨-, -, -, -, hsrc⟩ := h.frame
  exact hsrc

/-- Settles O52: `BEGIN` leaves a run that yields what `Decode` does, and no step changes what it yields. -/
theorem decoderComputesDecode : Obligations.DecoderComputesDecode := by
  intro s s₁ hinv ha hphase hstep hbusy
  have hb : s.dec.runState = .busy := by
    by_contra hrest
    exact absurd (hphase.symm.trans (hinv.dec_halt hrest)) (by decide)
  rw [step_of_decBusy ha hb] at hstep
  obtain ⟨d, hd, rfl⟩ := decTurn_step hb hstep
  obtain ⟨hop, hyields⟩ := hd.yields_begins hinv hphase hbusy
  obtain ⟨k, t, -, hrun, ⟨hinv', honly, ⟨hyields', hsrc'⟩, -⟩, hended⟩ := decRun_ends
    (Keeps := fun t => t.yields = (s.setDec d).yields ∧ t.dec.dsrc = s.dec.dsrc)
    (fun t d hinv hr hd ⟨hyields, hsrc⟩ =>
      ⟨(hd.yields_eq hinv hr).trans hyields, hd.dsrc_eq.trans hsrc⟩)
    (hd.inv hinv hb) ha (.inl hop) ⟨rfl, hd.dsrc_eq⟩
  obtain ⟨-, -, -, -, hepoch⟩ := id honly
  refine ⟨k, t, hrun, honly, State.byteAt_congr (sp := .dsrc) hsrc' hepoch, ?_⟩
  have hhalt := hinv'.dec_halt (hended.elim (fun h => by rw [h]; decide) fun h => by rw [h]; decide)
  obtain ⟨-, -, ⟨⟨-, herr, -⟩, -⟩, -⟩ := hinv'
  have hyields := (Dec.yields_halt hhalt).symm.trans (hyields'.trans hyields)
  rw [State.setDec_dec, ← hyields]
  cases hkind : t.dec.err with
  | none => exact ⟨hended.resolve_right (herr.mp hkind), rfl, rfl, rfl⟩
  | some kind =>
    refine ⟨?_, rfl⟩
    by_contra hne
    rw [herr.mpr hne] at hkind
    cases hkind

end Sys2Proof.Machine
end

section
/-! PROOF. An encoder run ends (40_encoder.md R143). -/

namespace Sys2Proof.Machine

variable {s t : State} {e : Enc}

/-- A unit past `BEGIN` is `BUSY` (10_state.md R55). -/
theorem State.Inv.enc_busy (hinv : s.Inv) (hr : s.enc.phase ≠ .halt) : s.enc.runState = .busy := by
  by_contra hb
  exact hr (hinv.enc_halt hb)

/-- A run of the unit has ended (60_exceptions.md R229). -/
abbrev Enc.ended (e : Enc) : Prop :=
  e.runState = .done ∨ e.runState = .error

/-- How many steps a run has left at most: a round for a byte of the input, of one step for each offset of
the window and three more (40_encoder.md R143). -/
def Enc.stepsLeft (e : Enc) : Nat :=
  let round := e.window.toNat + 3
  let left := e.inLen.toNat - e.pos.toNat
  match e.phase with
  | .halt => 0
  | .begin_ => e.inLen.toNat * round + 3
  | .pos => left * round + 2
  | .scan => (left - 1) * round + 4 + (e.dmax.toNat + 1 - e.scanD.toNat)
  | .emit => (left - 1) * round + 3
  | .flush => 1

theorem Enc.stepsLeft_halt (h : e.phase = .halt) : e.stepsLeft = 0 := by
  simp only [Enc.stepsLeft, h]

theorem Enc.stepsLeft_begin (h : e.phase = .begin_) :
    e.stepsLeft = e.inLen.toNat * (e.window.toNat + 3) + 3 := by
  simp only [Enc.stepsLeft, h]

theorem Enc.stepsLeft_pos (h : e.phase = .pos) :
    e.stepsLeft = (e.inLen.toNat - e.pos.toNat) * (e.window.toNat + 3) + 2 := by
  simp only [Enc.stepsLeft, h]

theorem Enc.stepsLeft_scan (h : e.phase = .scan) :
    e.stepsLeft = (e.inLen.toNat - e.pos.toNat - 1) * (e.window.toNat + 3) + 4
      + (e.dmax.toNat + 1 - e.scanD.toNat) := by
  simp only [Enc.stepsLeft, h]

theorem Enc.stepsLeft_emit (h : e.phase = .emit) :
    e.stepsLeft = (e.inLen.toNat - e.pos.toNat - 1) * (e.window.toNat + 3) + 3 := by
  simp only [Enc.stepsLeft, h]

theorem Enc.stepsLeft_flush (h : e.phase = .flush) : e.stepsLeft = 1 := by
  simp only [Enc.stepsLeft, h]

/-- A byte of the input is a round. -/
theorem Enc.round_succ (h : e.pos.toNat < e.inLen.toNat) :
    (e.inLen.toNat - e.pos.toNat) * (e.window.toNat + 3) =
      (e.inLen.toNat - e.pos.toNat - 1) * (e.window.toNat + 3) + (e.window.toNat + 3) := by
  rw [← Nat.succ_mul]
  congr 1
  omega

/-- An emission ends a round. -/
theorem stepsLeft_emitted (hphase : s.enc.phase = .emit) (hsame : s.enc.SameConfig e)
    (hphase' : e.phase = .pos) (h1 : s.enc.pos.toNat + 1 ≤ e.pos.toNat) :
    e.stepsLeft < s.enc.stepsLeft := by
  rw [Enc.stepsLeft_pos hphase', Enc.stepsLeft_emit hphase, hsame.window, hsame.inLen]
  have hle : s.enc.inLen.toNat - e.pos.toNat ≤ s.enc.inLen.toNat - s.enc.pos.toNat - 1 := by omega
  exact Nat.lt_succ_of_le (Nat.add_le_add_right (Nat.mul_le_mul_right _ hle) 2)

theorem State.emitted_runState (s : State) (c : Bool) (n advance : Nat) :
    (s.emitted c n advance).enc.runState = s.enc.runState := rfl

/-- An emission inside the input does not wrap `POS`. -/
theorem State.emitted_pos {c : Bool} {n advance : Nat}
    (h : s.enc.pos.toNat + advance ≤ s.enc.inLen.toNat) :
    (s.emitted c n advance).enc.pos.toNat = s.enc.pos.toNat + advance :=
  toNat_toWord (lt_of_le_of_lt h s.enc.inLen.isLt)

/-- In phase `EMIT` a byte of the input is left, and a match of `CAP` bytes ends inside it. -/
theorem limits_of_emit (hinv : s.Inv) (hphase : s.enc.phase = .emit) :
    s.enc.pos.toNat + 1 ≤ s.enc.inLen.toNat
      ∧ s.enc.pos.toNat + s.enc.cap.toNat ≤ s.enc.inLen.toNat := by
  obtain ⟨-, -, hlimits, -⟩ := hinv.enc_running (.inr (.inr (.inl hphase)))
  obtain ⟨hlt, hcap, -⟩ := hlimits (.inr hphase)
  omega

/-- What a step of a run does to the run: it goes on, with fewer steps left, or ends. -/
theorem EncStep.goesOn_or_ends (h : EncStep s e) (hinv : s.Inv) (hb : s.enc.runState = .busy) :
    (e.runState = .busy ∨ e.ended) ∧ e.stepsLeft < s.enc.stepsLeft := by
  have hframe := h.frame
  cases h with
  | beginFails hphase =>
    refine ⟨.inr (.inr rfl), ?_⟩
    rw [Enc.stepsLeft_halt rfl, Enc.stepsLeft_begin hphase]
    exact Nat.succ_pos _
  | begins hphase =>
    refine ⟨.inl hb, ?_⟩
    rw [Enc.stepsLeft_begin hphase, Enc.stepsLeft_pos rfl]
    exact Nat.lt_succ_self _
  | atEnd hphase =>
    refine ⟨.inl hb, ?_⟩
    rw [Enc.stepsLeft_flush rfl, Enc.stepsLeft_pos hphase]
    omega
  | search hphase hend =>
    obtain ⟨⟨hcfg, -⟩, ⟨hle, -⟩, -⟩ := hinv.enc_running (.inl hphase)
    have hlt := Nat.lt_of_le_of_ne hle fun h => hend (BitVec.eq_of_toNat_eq h)
    obtain ⟨-, hdmax⟩ := Enc.searching_limits hcfg
    refine ⟨.inl hb, ?_⟩
    rw [Enc.stepsLeft_pos hphase, Enc.round_succ hlt, Enc.stepsLeft_scan rfl, hdmax]
    show (s.enc.inLen.toNat - s.enc.pos.toNat - 1) * (s.enc.window.toNat + 3) + 4
      + (min s.enc.pos.toNat s.enc.window.toNat + 1 - 1) < _
    omega
  | scanOver hphase =>
    refine ⟨.inl hb, ?_⟩
    rw [Enc.stepsLeft_emit rfl, Enc.stepsLeft_scan hphase]
    show (s.enc.inLen.toNat - s.enc.pos.toNat - 1) * (s.enc.window.toNat + 3) + 3 < _
    omega
  | scan hphase hover =>
    obtain ⟨-, hdmax⟩ := limits_lt_of_inv hinv (.inl hphase)
    have hd : s.enc.scanD.toNat ≤ s.enc.dmax.toNat := Nat.le_of_not_lt fun h => hover (.inl h)
    have hnext : (toCount (s.enc.scanD.toNat + 1)).toNat = s.enc.scanD.toNat + 1 :=
      toNat_toCount (by omega)
    rw [State.scanned_eq]
    refine ⟨.inl hb, ?_⟩
    refine lt_of_eq_of_lt (Enc.stepsLeft_scan hphase) ?_
    rw [Enc.stepsLeft_scan hphase, hnext]
    have hlt : s.enc.dmax.toNat + 1 - (s.enc.scanD.toNat + 1) <
        s.enc.dmax.toNat + 1 - s.enc.scanD.toNat := by omega
    exact Nat.add_lt_add_left hlt _
  | emitLit hphase =>
    obtain ⟨hlt, -⟩ := limits_of_emit hinv hphase
    refine ⟨.inl ((State.emitted_runState ..).trans hb), stepsLeft_emitted hphase hframe rfl ?_⟩
    exact Nat.le_of_eq (State.emitted_pos (s := s.litStored) hlt).symm
  | emitRef hphase hle =>
    obtain ⟨hlt, hcap⟩ := limits_of_emit hinv hphase
    obtain ⟨h2, hlen, -⟩ := emit_operands hinv hphase hle
    refine ⟨.inl ((State.emitted_runState ..).trans hb), stepsLeft_emitted hphase hframe rfl ?_⟩
    have hin : s.enc.pos.toNat + s.enc.bestLen.toNat ≤ s.enc.inLen.toNat := by omega
    have hnext : s.enc.pos.toNat + 1 ≤ s.enc.pos.toNat + s.enc.bestLen.toNat := by omega
    exact hnext.trans_eq (State.emitted_pos (s := s.refStored) hin).symm
  | flush hphase =>
    refine ⟨.inr (.inl rfl), ?_⟩
    rw [Enc.stepsLeft_halt rfl, Enc.stepsLeft_flush hphase]
    exact Nat.one_pos

/-- The bound of R143 is the measure where a run has all its input to go. -/
theorem Enc.stepsLeft_le (hinv : s.Inv) :
    s.enc.stepsLeft ≤ s.enc.inLen.toNat * (s.enc.window.toNat + 3) + 3 := by
  have hrest : (s.enc.inLen.toNat - s.enc.pos.toNat) * (s.enc.window.toNat + 3) ≤
      s.enc.inLen.toNat * (s.enc.window.toNat + 3) := Nat.mul_le_mul_right _ (Nat.sub_le ..)
  cases hphase : s.enc.phase with
  | halt =>
    rw [Enc.stepsLeft_halt hphase]
    exact Nat.zero_le _
  | begin_ => exact Nat.le_of_eq (Enc.stepsLeft_begin hphase)
  | pos =>
    rw [Enc.stepsLeft_pos hphase]
    omega
  | scan =>
    obtain ⟨-, -, hlimits, hscan, -⟩ := hinv.enc_running (.inr (.inl hphase))
    obtain ⟨hlt, -, hdmax⟩ := hlimits (.inl hphase)
    obtain ⟨h1, -⟩ := hscan hphase
    rw [Enc.round_succ hlt] at hrest
    rw [Enc.stepsLeft_scan hphase]
    omega
  | emit =>
    obtain ⟨hlt, -⟩ := limits_of_emit hinv hphase
    rw [Enc.round_succ hlt] at hrest
    rw [Enc.stepsLeft_emit hphase]
    omega
  | flush =>
    rw [Enc.stepsLeft_flush hphase]
    omega

/-- A state that a run from `s` passes through or ends in: nothing outside `ENC` has changed, and a
property holds. -/
def State.OnEncRun (s : State) (Keeps : State → Prop) (t : State) : Prop :=
  t.Inv ∧ s.onlyEnc t ∧ Keeps t ∧ (t.enc.runState = .busy ∨ t.enc.ended)

/-- What every step of a run keeps holds all along the run. -/
theorem State.OnEncRun.step {Keeps : State → Prop}
    (hkeep : ∀ s e, s.Inv → s.enc.runState = .busy → EncStep s e → Keeps s → Keeps (s.setEnc e))
    (ha : s.agenda = []) (hdec : s.dec.runState ≠ .busy) (ht : s.OnEncRun Keeps t)
    (hends : ¬ t.enc.ended) :
    ∃ t', step t = .next t' ∧ s.OnEncRun Keeps t' ∧ t'.enc.stepsLeft < t.enc.stepsLeft := by
  obtain ⟨hinv, ⟨hd, hplat, hagenda, hreturned, hepoch⟩, hkeeps, hb⟩ := ht
  have hb := hb.resolve_right hends
  obtain ⟨t', ht'⟩ := encTurn_progress hinv
  obtain ⟨e, he, rfl⟩ := encTurn_step hb ht'
  obtain ⟨hgoes, hlt⟩ := he.goesOn_or_ends hinv hb
  exact ⟨_, (step_of_encBusy (hagenda.trans ha) (hd ▸ hdec) hb).trans ht',
    ⟨he.inv hinv hb, ⟨hd, hplat, hagenda, hreturned, hepoch⟩, hkeep t e hinv hb he hkeeps, hgoes⟩, hlt⟩

/-- A run ends, and what every step of such a run keeps holds at its end (40_encoder.md R143). -/
theorem encRun_ends {Keeps : State → Prop}
    (hkeep : ∀ s e, s.Inv → s.enc.runState = .busy → EncStep s e → Keeps s → Keeps (s.setEnc e))
    (hinv : s.Inv) (ha : s.agenda = []) (hdec : s.dec.runState ≠ .busy) (hb : s.enc.runState = .busy)
    (h : Keeps s) :
    ∃ k t, k ≤ s.enc.stepsLeft ∧ core.run k s = .next t ∧ s.OnEncRun Keeps t ∧ t.enc.ended :=
  run_of_measure (Goal := fun t => t.enc.ended) (fun t => t.enc.stepsLeft)
    (fun _ ht hends => ht.step hkeep ha hdec hends) ⟨hinv, ⟨rfl, rfl, rfl, rfl, rfl⟩, h, .inl hb⟩

/-- Settles O51: every step of the run lowers `Enc.stepsLeft`. -/
theorem encoderRunEnds : Obligations.EncoderRunEnds := by
  intro s hinv ha hdec hb
  obtain ⟨k, t, hk, hrun, -, hends⟩ :=
    encRun_ends (Keeps := fun _ => True) (fun _ _ _ _ _ _ => trivial) hinv ha hdec hb trivial
  exact ⟨k, t, hk.trans (Enc.stepsLeft_le hinv), hrun, hends⟩

end Sys2Proof.Machine
end

section
/-! PROOF. `Compress` from a position on, and the block of what has been emitted and what is left
(40_encoder.md R121, R125). -/

namespace Sys2Proof.Machine

variable {input : List Byte} {l w minm pos u : Nat}

/-- The number of rounds does not matter when there are enough for the input (40_encoder.md R143). -/
theorem greedyOps_fuel (hm : 2 ≤ minm) {fuel fuel' : Nat} (hpos : pos ≤ input.length)
    (h : input.length - pos ≤ fuel) (h' : input.length - pos ≤ fuel') :
    greedyOps input l w minm fuel pos = greedyOps input l w minm fuel' pos := by
  induction fuel generalizing fuel' pos with
  | zero =>
    have hend : pos = input.length := by omega
    rw [greedyOps_of_eq _ hend, greedyOps_of_eq _ hend]
  | succ fuel ih =>
    rcases Nat.eq_or_lt_of_le hpos with hend | hlt
    · rw [greedyOps_of_eq _ hend, greedyOps_of_eq _ hend]
    · obtain ⟨hcovers, hadvance⟩ := greedyOp_covers (l := l) (w := w) hm hlt
      have h1 := hcovers.produces_pos hm
      have hin := hcovers.inside
      rw [← hadvance] at h1 hin
      obtain ⟨n, rfl⟩ : ∃ n, fuel' = n + 1 := Nat.exists_eq_add_of_le' (by omega)
      rw [greedyOps_of_lt hlt, greedyOps_of_lt hlt, ih (fuel' := n) hin (by omega) (by omega)]

/-- The operations from a position on are the chosen one and those from where it ends on. -/
theorem greedyOps_eq_cons (hm : 2 ≤ minm) (hpos : pos < input.length) {op : Operation} {n : Nat}
    (hop : greedyOp input l w minm pos = (op, n)) :
    greedyOps input l w minm (input.length - pos) pos =
      op :: greedyOps input l w minm (input.length - (pos + n)) (pos + n) := by
  obtain ⟨hcovers, hadvance⟩ := greedyOp_covers (l := l) (w := w) hm hpos
  have h1 := hcovers.produces_pos hm
  have hin := hcovers.inside
  rw [← hadvance, hop] at h1 hin
  have hsucc : input.length - pos = input.length - pos - 1 + 1 := by omega
  rw [hsucc, greedyOps_of_lt hpos, hop,
    greedyOps_fuel hm hin (fuel' := input.length - (pos + n)) (by omega) (Nat.le_refl _)]

/-- The block whose first control bits and entries are given, with the operations that follow
(30_encoding.md R111). -/
def resume (l u : Nat) (bits : List Bool) (fields : List Byte) (ops : List Operation) : Block where
  uncompSize := u
  opCount := bits.length + ops.length
  bitmap := bitmapOf (bits ++ ops.map Operation.ctrl)
  fields := fields ++ fieldsOf l ops

/-- With nothing given this is the assembled listing. -/
theorem resume_nil_nil (l u : Nat) (ops : List Operation) :
    resume l u [] [] ops = assemble l u ops := by
  simp [resume, assemble, fieldsOf]

/-- An operation that follows may as well be given. -/
theorem resume_cons (l u : Nat) (bits : List Bool) (fields : List Byte) (op : Operation)
    (ops : List Operation) :
    resume l u bits fields (op :: ops) =
      resume l u (bits ++ [op.ctrl]) (fields ++ op.entry l) ops := by
  simp [resume, fieldsOf, Nat.add_assoc, Nat.add_comm 1]

end Sys2Proof.Machine
end

section
/-! PROOF. The control bits emitted so far, in `EBM` and `BM_ACC` (40_encoder.md R128). -/

namespace Sys2Proof.Machine

variable {s t : State} {c : Bool} {i : Nat}

/-- Control bit `i` of those emitted so far: in its bitmap byte when that is complete, else in `BM_ACC`
(40_encoder.md R128). -/
def State.controlBit (s : State) (i : Nat) : Bool :=
  if i / 8 < s.enc.opCount.toNat / 8 then ctrlBit (s.byteAt .ebm (i / 8)) i
  else ctrlBit s.enc.bmAcc i

/-- The control bits emitted so far. -/
def State.controlBits (s : State) : List Bool :=
  (List.range s.enc.opCount.toNat).map s.controlBit

@[simp] theorem State.controlBits_length (s : State) :
    s.controlBits.length = s.enc.opCount.toNat := by
  simp [State.controlBits]

theorem State.getD_controlBits (s : State) (i : Nat) :
    s.controlBits.getD i false = if i < s.enc.opCount.toNat then s.controlBit i else false := by
  rw [State.controlBits, List.getD_eq_getElem?_getD, List.getElem?_map]
  split
  case isTrue h => rw [List.getElem?_range h]; rfl
  case isFalse h => rw [List.getElem?_eq_none (by simpa using h)]; rfl

/-- The places of `BM_ACC` from the next control bit's on are 0. -/
theorem Enc.getLsbD_bmAcc {e : Enc} (h : e.bmAcc.toNat < 2 ^ (e.opCount.toNat % 8)) {j : Nat}
    (hj : e.opCount.toNat % 8 ≤ j) : e.bmAcc.getLsbD j = false :=
  Nat.testBit_lt_two_pow (lt_of_lt_of_le h (Nat.pow_le_pow_right Nat.two_pos hj))

/-- The next control bit joins those of its byte (40_encoder.md R128). -/
theorem Enc.ctrlBit_accWith {e : Enc} (h : e.bmAcc.toNat < 2 ^ (e.opCount.toNat % 8))
    (hi : i ≤ e.opCount.toNat) (hbyte : i / 8 = e.opCount.toNat / 8) :
    ctrlBit (e.accWith c) i = if i = e.opCount.toNat then c else ctrlBit e.bmAcc i := by
  rw [ctrlBit, ctrlBit, Enc.accWith, BitVec.getLsbD_or, BitVec.getLsbD_shiftLeft]
  rcases Nat.lt_or_eq_of_le hi with hlt | rfl
  · have hlt' : i % 8 < e.opCount.toNat % 8 := by omega
    simp [hlt', Nat.ne_of_lt hlt]
  · rw [Enc.getLsbD_bmAcc h (Nat.le_refl _), if_pos rfl]
    have hlt := Nat.mod_lt e.opCount.toNat (show 0 < 8 by decide)
    cases c <;> simp [hlt]

/-- After an emission each control bit is in its byte, complete or not (40_encoder.md R128). -/
theorem State.controlBit_emitted (h : s.enc.bmAcc.toNat < 2 ^ (s.enc.opCount.toNat % 8))
    (hlt : s.enc.opCount.toNat + 1 < 2 ^ 32) (hi : i ≤ s.enc.opCount.toNat) (c : Bool)
    (n advance : Nat) :
    (s.emitted c n advance).controlBit i =
      if i = s.enc.opCount.toNat then c else s.controlBit i := by
  have hcount : (s.emitted c n advance).enc.opCount.toNat = s.enc.opCount.toNat + 1 :=
    toNat_toWord hlt
  have hacc : (s.emitted c n advance).enc.bmAcc =
      if s.enc.opCount.toNat % 8 = 7 then 0 else s.enc.accWith c := rfl
  have hbefore (hb : i / 8 < s.enc.opCount.toNat / 8) :
      (s.emitted c n advance).byteAt .ebm (i / 8) = s.byteAt .ebm (i / 8) := by
    rw [State.byteAt_emitted, if_neg (by omega)]
  rw [State.controlBit, hcount, State.controlBit]
  by_cases hb : i / 8 < s.enc.opCount.toNat / 8
  · rw [if_pos hb, if_pos (by omega), if_neg (by omega), hbefore hb]
  · have hbyte : i / 8 = s.enc.opCount.toNat / 8 := by omega
    rw [if_neg hb, ← Enc.ctrlBit_accWith h hi hbyte]
    by_cases h7 : s.enc.opCount.toNat % 8 = 7
    · rw [if_pos (by omega), State.byteAt_emitted, if_pos ⟨rfl, hbyte, h7⟩]
    · rw [if_neg (by omega), hacc, if_neg h7]

theorem State.controlBits_emitted (h : s.enc.bmAcc.toNat < 2 ^ (s.enc.opCount.toNat % 8))
    (hlt : s.enc.opCount.toNat + 1 < 2 ^ 32) (c : Bool) (n advance : Nat) :
    (s.emitted c n advance).controlBits = s.controlBits ++ [c] := by
  have hcount : (s.emitted c n advance).enc.opCount.toNat = s.enc.opCount.toNat + 1 :=
    toNat_toWord hlt
  rw [State.controlBits, hcount, List.range_succ, List.map_append, State.controlBits]
  congr 1
  · refine List.map_congr_left fun i hi => ?_
    have hi := List.mem_range.mp hi
    rw [State.controlBit_emitted h hlt (Nat.le_of_lt hi), if_neg (Nat.ne_of_lt hi)]
  · rw [List.map_singleton, State.controlBit_emitted h hlt (Nat.le_refl _), if_pos rfl]

/-- `FLUSH` completes the bitmap of the control bits emitted (40_encoder.md R136). -/
theorem byteAt_flushed_bitmap (h : s.enc.bmAcc.toNat < 2 ^ (s.enc.opCount.toNat % 8)) {k : Nat}
    (hk : k < ceil8 s.enc.opCount.toNat) :
    (s.setEnc s.enc.flushed).byteAt .ebm k = bitmapByte s.controlBits k := by
  have hk : k < (s.enc.opCount.toNat + 7) / 8 := hk
  refine BitVec.eq_of_getLsbD_eq fun j hj => ?_
  have hdiv : (8 * k + j) / 8 = k := by omega
  have hmod : (8 * k + j) % 8 = j := by omega
  rw [getLsbD_bitmapByte _ _ hj, State.getD_controlBits, State.controlBit, ctrlBit, ctrlBit, hdiv, hmod,
    State.byteAt_flushed]
  by_cases hcomplete : k < s.enc.opCount.toNat / 8
  · rw [if_neg (by omega), if_pos hcomplete, if_pos (by omega)]
  · rw [if_pos ⟨rfl, by omega, by omega⟩, if_neg hcomplete]
    split
    · rfl
    · exact Enc.getLsbD_bmAcc h (by omega)

end Sys2Proof.Machine
end

section
/-! PROOF. An encoder run computes `Compress` (40_encoder.md R121, R140). -/

namespace Sys2Proof.Machine

variable {s t r : State} {e : Enc}

/-- The operations that `Compress` yields from `POS` on (40_encoder.md R121). -/
def State.opsLeft (s : State) : List Operation :=
  greedyOps s.encInput s.enc.cfg.lengthBits.toNat s.enc.window.toNat s.enc.minMatch.toNat
    (s.encInput.length - s.enc.pos.toNat) s.enc.pos.toNat

/-- The block of a run in progress: what it has emitted and what `Compress` yields from `POS` on; at the
end of the run, the block it delivers (40_encoder.md R140). -/
def State.compresses (s : State) : Block :=
  if s.enc.phase = .halt then s.encBlock
  else resume s.enc.cfg.lengthBits.toNat s.enc.inLen.toNat s.controlBits
    (s.slice .efs 0 s.enc.fsLen.toNat) s.opsLeft

theorem State.compresses_running (h : s.enc.phase ≠ .halt) :
    s.compresses = resume s.enc.cfg.lengthBits.toNat s.enc.inLen.toNat s.controlBits
      (s.slice .efs 0 s.enc.fsLen.toNat) s.opsLeft := if_neg h

/-- How many bytes of `EBM`, from address 0, a run past `BEGIN` has written (40_encoder.md R128, R136). -/
def Enc.bitmapEnd (e : Enc) : Nat :=
  if e.phase = .halt then e.bmLen.toNat else e.opCount.toNat / 8

/-- The second state lies on a run past `BEGIN` from the first: the run is configured as before and
compresses to the same block, has raised nothing, and has written only what it has emitted
(40_encoder.md R136, R140). -/
structure State.Compressing (s t : State) : Prop where
  past : t.enc.phase ≠ .begin_
  noError : t.enc.runState ≠ .error
  config : s.enc.SameConfig t.enc
  block : t.compresses = s.compresses
  fsLen_le : s.enc.fsLen.toNat ≤ t.enc.fsLen.toNat
  efs : ∀ x, t.enc.fsLen.toNat ≤ x → t.byteAt .efs x = s.byteAt .efs x
  bitmapEnd_le : s.enc.bitmapEnd ≤ t.enc.bitmapEnd
  ebm : ∀ x, t.enc.bitmapEnd ≤ x → t.byteAt .ebm x = s.byteAt .ebm x

theorem State.Compressing.trans (h : s.Compressing t) (h' : t.Compressing r) : s.Compressing r where
  past := h'.past
  noError := h'.noError
  config := h.config.trans h'.config
  block := h'.block.trans h.block
  fsLen_le := h.fsLen_le.trans h'.fsLen_le
  efs x hx := (h'.efs x hx).trans (h.efs x (h'.fsLen_le.trans hx))
  bitmapEnd_le := h.bitmapEnd_le.trans h'.bitmapEnd_le
  ebm x hx := (h'.ebm x hx).trans (h.ebm x (h'.bitmapEnd_le.trans hx))

/-- A step of the search emits nothing (40_encoder.md R133, R134). -/
theorem State.compressing_search (hb : s.enc.runState = .busy) (hphase : s.enc.phase ≠ .halt)
    {phase : EncPhase} (hhalt : phase ≠ .halt) (hbegin : phase ≠ .begin_)
    (cap dmax scanD bestLen bestOff : Count) :
    s.Compressing (s.setEnc { s.enc with
      phase := phase, cap := cap, dmax := dmax, scanD := scanD, bestLen := bestLen
      bestOff := bestOff }) where
  past := hbegin
  noError h := absurd (hb.symm.trans h) (by decide)
  config := ⟨rfl, rfl, rfl, rfl, rfl⟩
  block := (if_neg hhalt).trans (State.compresses_running hphase).symm
  fsLen_le := Nat.le_refl _
  efs _ _ := rfl
  bitmapEnd_le := by
    rw [Enc.bitmapEnd, if_neg hphase, State.setEnc_enc, Enc.bitmapEnd, if_neg hhalt]
  ebm _ _ := rfl

/-! An emission. -/

theorem State.slice_congr {sp : Space} {a n : Nat}
    (h : ∀ j < n, t.byteAt sp (a + j) = s.byteAt sp (a + j)) : t.slice sp a n = s.slice sp a n :=
  List.map_congr_left fun j hj => h j (List.mem_range.mp hj)

/-- In the second state an operation's entry has been stored at the end of the field stream, and nothing
else has changed (40_encoder.md R126, R127). -/
structure State.EntryStored (s t : State) (entry : List Byte) : Prop where
  efs : ∃ m, t = s.setMem .efs m
  stored : t.slice .efs s.enc.fsLen.toNat entry.length = entry
  others : s.onlyBytes t .efs s.enc.fsLen.toNat entry.length

variable {entry : List Byte} {c : Bool} {n advance : Nat}

/-- The field stream after an emission. -/
theorem State.EntryStored.slice_efs (h : s.EntryStored t entry) :
    (t.emitted c n advance).slice .efs 0 (s.enc.fsLen.toNat + entry.length) =
      s.slice .efs 0 s.enc.fsLen.toNat ++ entry := by
  have hbyte (x : Nat) : (t.emitted c n advance).byteAt .efs x = t.byteAt .efs x := by
    rw [State.byteAt_emitted, if_neg (by simp)]
  have hbefore : t.slice .efs 0 s.enc.fsLen.toNat = s.slice .efs 0 s.enc.fsLen.toNat :=
    State.slice_congr fun j hj => h.others _ _ (.inr (.inl (by omega)))
  rw [State.slice_congr (s := t) fun j _ => hbyte _, State.slice_append, hbefore,
    Nat.zero_add, h.stored]

/-- An emission stores the chosen operation's entry and its control bit, so the block of the run is the
same (40_encoder.md R126 to R128). -/
theorem compressing_emitted {op : Operation} (hinv : s.Inv) (hphase : s.enc.phase = .emit)
    (hop : greedyOp s.encInput s.enc.cfg.lengthBits.toNat s.enc.window.toNat s.enc.minMatch.toNat
      s.enc.pos.toNat = (op, advance))
    (hstored : s.EntryStored t (op.entry s.enc.cfg.lengthBits.toNat)) (hc : op.ctrl = c)
    (hn : entryLength c = n) : s.Compressing (t.emitted c n advance) := by
  subst hc hn
  obtain ⟨m, rfl⟩ := hstored.efs
  obtain ⟨⟨-, hmin, -⟩, ⟨-, hfs, hcount, hacc, -⟩, -⟩ := hinv.enc_running (.inr (.inr (.inl hphase)))
  obtain ⟨hlt, -⟩ := limits_of_emit hinv hphase
  have hhalt : s.enc.phase ≠ .halt := by rw [hphase]; decide
  have hb : s.enc.runState = .busy := hinv.enc_busy hhalt
  have hlen : s.encInput.length = s.enc.inLen.toNat := State.slice_length ..
  have hmax := s.enc.inLen.isLt
  have hpos : s.enc.pos.toNat < s.encInput.length := hlen.symm ▸ hlt
  obtain ⟨hcovers, hadvance⟩ := greedyOp_covers (l := s.enc.cfg.lengthBits.toNat)
    (w := s.enc.window.toNat) hmin hpos
  have hin := hcovers.inside
  have hentry := hcovers.entryLength_le hmin
  rw [← hadvance, hop, hlen] at hin
  rw [← hadvance, hop] at hentry
  dsimp only at hin hentry
  have hbits := State.controlBits_emitted (s := s.setMem .efs m) hacc
    (show s.enc.opCount.toNat + 1 < 2 ^ 32 by omega) op.ctrl (entryLength op.ctrl) advance
  have hfields := hstored.slice_efs (c := op.ctrl) (n := entryLength op.ctrl) (advance := advance)
  have hbyte := State.byteAt_emitted (s.setMem .efs m) op.ctrl (entryLength op.ctrl) advance
  have hpos' := State.emitted_pos (s := s.setMem .efs m) (c := op.ctrl) (n := entryLength op.ctrl) hin
  generalize ht : (s.setMem .efs m).emitted op.ctrl (entryLength op.ctrl) advance = t at *
  have hphase' : t.enc.phase = .pos := by rw [← ht]; rfl
  have hconfig : s.enc.SameConfig t.enc := by rw [← ht]; exact ⟨rfl, rfl, rfl, rfl, rfl⟩
  have hhalt' : t.enc.phase ≠ .halt := by rw [hphase']; decide
  have hfs' : t.enc.fsLen.toNat =
      s.enc.fsLen.toNat + (op.entry s.enc.cfg.lengthBits.toNat).length := by
    rw [← ht, Operation.entry_length]
    exact toNat_toWord (show s.enc.fsLen.toNat + _ < 2 ^ 32 by omega)
  have hend : t.enc.bitmapEnd = (s.enc.opCount.toNat + 1) / 8 := by
    rw [Enc.bitmapEnd, if_neg hhalt', ← ht]
    exact congrArg (· / 8) (toNat_toWord (show s.enc.opCount.toNat + 1 < 2 ^ 32 by omega))
  have hinput : t.encInput = s.encInput := by
    rw [State.encInput, State.encInput, hconfig.inLen]
    refine State.slice_congr fun j _ => ?_
    rw [hbyte, if_neg (by simp)]
    rfl
  have hops : s.opsLeft = op :: t.opsLeft := by
    rw [State.opsLeft, greedyOps_eq_cons hmin hpos hop, State.opsLeft, hinput, hpos', hconfig.cfg,
      hconfig.window, hconfig.minMatch]
    rfl
  refine ⟨by rw [hphase']; decide, ?_, hconfig, ?_, ?_, fun x hx => ?_, ?_, fun x hx => ?_⟩
  · rw [← ht, State.emitted_runState]
    exact fun h => absurd (hb.symm.trans h) (by decide)
  · rw [State.compresses_running hhalt', State.compresses_running hhalt, hops, resume_cons, hfs',
      hfields, hbits, hconfig.cfg, hconfig.inLen]
    rfl
  · rw [hfs']
    exact Nat.le_add_right ..
  · rw [hbyte, if_neg (by simp)]
    exact hstored.others _ _ (.inr (.inr (hfs' ▸ hx)))
  · rw [hend, Enc.bitmapEnd, if_neg hhalt]
    omega
  · rw [hend] at hx
    refine (hbyte .ebm x).trans (if_neg fun ⟨_, hat, h7⟩ => ?_)
    have hat : x = s.enc.opCount.toNat / 8 := hat
    have h7 : s.enc.opCount.toNat % 8 = 7 := h7
    omega

/-- The unit's best match is that of `Compress` (40_encoder.md R124). -/
theorem bestMatch_encInput (hinv : s.Inv) (hphase : s.enc.phase = .emit) :
    bestMatch s.encInput s.enc.cfg.lengthBits.toNat s.enc.window.toNat s.enc.pos.toNat =
      (s.enc.bestLen.toNat, s.enc.bestOff.toNat) :=
  (searchFindsTheBestMatch s hinv hphase).symm

/-- The unit emits a literal where `Compress` does (40_encoder.md R125, R135). -/
theorem greedyOp_lit (hinv : s.Inv) (hphase : s.enc.phase = .emit)
    (hlt : s.enc.bestLen.toNat < s.enc.minMatch.toNat) :
    greedyOp s.encInput s.enc.cfg.lengthBits.toNat s.enc.window.toNat s.enc.minMatch.toNat
      s.enc.pos.toNat = (.lit (s.byteAt .esrc s.enc.pos.toNat), 1) := by
  obtain ⟨hpos, -⟩ := limits_of_emit hinv hphase
  rw [greedyOp_of_lt (by rw [bestMatch_encInput hinv hphase]; exact hlt),
    List.getD_eq_getElem?_getD, State.encInput, State.getElem?_slice s _ _ hpos, Nat.zero_add,
    Option.getD_some]

/-- The unit emits the back-reference that `Compress` does (40_encoder.md R125, R135). -/
theorem greedyOp_ref (hinv : s.Inv) (hphase : s.enc.phase = .emit)
    (hle : s.enc.minMatch.toNat ≤ s.enc.bestLen.toNat) :
    greedyOp s.encInput s.enc.cfg.lengthBits.toNat s.enc.window.toNat s.enc.minMatch.toNat
      s.enc.pos.toNat = (.ref s.enc.bestOff.toNat s.enc.bestLen.toNat, s.enc.bestLen.toNat) := by
  rw [greedyOp_of_le (by rw [bestMatch_encInput hinv hphase]; exact hle),
    bestMatch_encInput hinv hphase]

/-- A byte holds the low byte of a natural. -/
theorem toByte_mod (v : Nat) : toByte (v % 256) = toByte v :=
  BitVec.eq_of_toNat_eq (by simp [toByte])

theorem compressing_emitLit (hinv : s.Inv) (hphase : s.enc.phase = .emit)
    (hlt : s.enc.bestLen.toNat < s.enc.minMatch.toNat) :
    s.Compressing (s.litStored.emitted false 1 1) := by
  refine compressing_emitted hinv hphase (greedyOp_lit hinv hphase hlt) ⟨⟨_, rfl⟩, ?_, fun sp x hx => ?_⟩
    rfl rfl
  · rw [Operation.entry, List.length_singleton, State.slice_succ, State.slice_zero]
    congr 1
    exact (s.byteAt_litStored .efs _).trans (if_pos ⟨rfl, rfl⟩)
  · refine (s.byteAt_litStored sp x).trans (if_neg ?_)
    rintro ⟨rfl, rfl⟩
    simp [Operation.entry] at hx

theorem compressing_emitRef (hinv : s.Inv) (hphase : s.enc.phase = .emit)
    (hle : s.enc.minMatch.toNat ≤ s.enc.bestLen.toNat) :
    s.Compressing (s.refStored.emitted true 2 s.enc.bestLen.toNat) := by
  refine compressing_emitted hinv hphase (greedyOp_ref hinv hphase hle) ⟨⟨_, rfl⟩, ?_, fun sp x hx => ?_⟩
    rfl rfl
  · rw [Operation.entry, le16Bytes, List.length_cons, List.length_singleton, State.slice_succ,
      State.slice_succ, State.slice_zero]
    congr 1
    · refine (s.byteAt_refStored .efs _).trans ((if_pos ⟨rfl, rfl⟩).trans ?_)
      exact toByte_mod _
    · congr 1
      exact (s.byteAt_refStored .efs _).trans ((if_neg (by simp)).trans (if_pos ⟨rfl, rfl⟩))
  · refine (s.byteAt_refStored sp x).trans ((if_neg ?_).trans (if_neg ?_))
    · rintro ⟨rfl, rfl⟩
      simp [Operation.entry, le16Bytes] at hx
    · rintro ⟨rfl, rfl⟩
      simp [Operation.entry, le16Bytes] at hx

/-! The end of the run. -/

/-- `FLUSH` delivers the block (40_encoder.md R136). -/
theorem compressing_flushed (hinv : s.Inv) (hphase : s.enc.phase = .flush) :
    s.Compressing (s.setEnc s.enc.flushed) := by
  have hhalt : s.enc.phase ≠ .halt := by rw [hphase]; decide
  obtain ⟨-, ⟨-, -, hcount, hacc, hend⟩, -⟩ := hinv.enc_running (.inr (.inr (.inr hphase)))
  have hlen := s.enc.inLen.isLt
  have hend := congrArg BitVec.toNat (hend hphase)
  have hbmLen : s.enc.flushed.bmLen.toNat = ceil8 s.enc.opCount.toNat :=
    toNat_toWord (show (s.enc.opCount.toNat + 7) / 8 < 2 ^ 32 by omega)
  have hcomplete : s.enc.bitmapEnd = s.enc.opCount.toNat / 8 := if_neg hhalt
  have hbyte := s.byteAt_flushed
  refine ⟨nofun, nofun, ⟨rfl, rfl, rfl, rfl, rfl⟩, ?_, Nat.le_refl _, fun x _ => ?_, ?_, fun x hx => ?_⟩
  · have hops : s.opsLeft = [] := greedyOps_of_eq _ (hend.trans (State.slice_length ..).symm)
    have hbitmap : (s.setEnc s.enc.flushed).slice .ebm 0 s.enc.flushed.bmLen.toNat =
        bitmapOf s.controlBits := by
      rw [hbmLen, bitmapOf, State.controlBits_length]
      refine List.map_congr_left fun k hk => ?_
      rw [Nat.zero_add]
      exact byteAt_flushed_bitmap hacc (List.mem_range.mp hk)
    have hfields : (s.setEnc s.enc.flushed).slice .efs 0 s.enc.fsLen.toNat =
        s.slice .efs 0 s.enc.fsLen.toNat :=
      State.slice_congr fun j _ => (hbyte .efs _).trans (if_neg (by simp))
    rw [State.compresses_running hhalt, hops]
    refine (if_pos rfl).trans ?_
    simp only [State.encBlock, resume, State.setEnc_enc, hbitmap, List.map_nil, List.append_nil,
      List.length_nil, Nat.add_zero, State.controlBits_length, fieldsOf, List.flatten_nil, ← hfields]
    rfl
  · exact (hbyte .efs x).trans (if_neg (by simp))
  · refine hcomplete.trans_le ((Nat.div_le_div_right (Nat.le_add_right _ 7)).trans_eq hbmLen.symm)
  · have hx : s.enc.flushed.bmLen.toNat ≤ x := hx
    rw [hbmLen] at hx
    have hx : (s.enc.opCount.toNat + 7) / 8 ≤ x := hx
    exact (hbyte .ebm x).trans (if_neg (by omega))

/-- Every step of a run past `BEGIN` stays on it. -/
theorem EncStep.compressing (h : EncStep s e) (hinv : s.Inv) (hb : s.enc.runState = .busy)
    (hpast : s.enc.phase ≠ .begin_) : s.Compressing (s.setEnc e) := by
  cases h with
  | beginFails hphase | begins hphase => exact absurd hphase hpast
  | atEnd hphase =>
    exact State.compressing_search hb (by rw [hphase]; decide) (by decide) (by decide) ..
  | search hphase =>
    exact State.compressing_search hb (by rw [hphase]; decide) (by decide) (by decide) ..
  | scanOver hphase =>
    exact State.compressing_search hb (by rw [hphase]; decide) (by decide) (by decide) ..
  | scan hphase =>
    rw [State.scanned_eq]
    exact State.compressing_search hb (by rw [hphase]; decide) (by rw [hphase]; decide)
      (by rw [hphase]; decide) ..
  | emitLit hphase hlt =>
    rw [← State.eq_setEnc_of_onlyEnc (State.onlyEnc_emitted (State.onlyEnc_litStored s))]
    exact compressing_emitLit hinv hphase hlt
  | emitRef hphase hle =>
    rw [← State.eq_setEnc_of_onlyEnc (State.onlyEnc_emitted (State.onlyEnc_refStored s))]
    exact compressing_emitRef hinv hphase hle
  | flush hphase => exact compressing_flushed hinv hphase

/-- A run that has just begun compresses the whole input (40_encoder.md R132). -/
theorem State.compresses_begun (s : State) :
    (s.setEnc s.enc.begun).compresses =
      compress s.encInput s.enc.cfg.lengthBits.toNat s.enc.window.toNat s.enc.minMatch.toNat := by
  have hinput : (s.setEnc s.enc.begun).encInput = s.encInput := rfl
  have hlen : s.encInput.length = s.enc.inLen.toNat := State.slice_length ..
  rw [State.compresses_running (s := s.setEnc s.enc.begun) nofun, compress_eq, ← resume_nil_nil, hlen,
    State.opsLeft, hinput]
  rfl

theorem State.compressing_begun (hb : s.enc.runState = .busy) :
    (s.setEnc s.enc.begun).Compressing (s.setEnc s.enc.begun) where
  past := nofun
  noError h := absurd (hb.symm.trans h) (by decide)
  config := ⟨rfl, rfl, rfl, rfl, rfl⟩
  block := rfl
  fsLen_le := Nat.le_refl _
  efs _ _ := rfl
  bitmapEnd_le := Nat.le_refl _
  ebm _ _ := rfl

/-- A `BEGIN` that raises nothing leaves the run at the start of the input. -/
theorem EncStep.eq_begun (h : EncStep s e) (hphase : s.enc.phase = .begin_)
    (hb : e.runState = .busy) : e = s.enc.begun := by
  cases h with
  | beginFails => cases hb
  | begins => rfl
  | atEnd h | search h | scanOver h | scan h | emitLit h | emitRef h | flush h =>
    exact absurd (hphase.symm.trans h) (by decide)

/-- Settles O53: `BEGIN` leaves a run that compresses the whole input, and every step stays on it. -/
theorem encoderComputesCompress : Obligations.EncoderComputesCompress := by
  intro s s₁ hinv ha hdec hphase hstep hbusy
  have hb : s.enc.runState = .busy := hinv.enc_busy (by rw [hphase]; decide)
  rw [step_of_encBusy ha hdec hb] at hstep
  obtain ⟨e, he, rfl⟩ := encTurn_step hb hstep
  obtain rfl := he.eq_begun hphase hbusy
  obtain ⟨k, t, -, hrun, ⟨hinv', honly, ht, -⟩, hended⟩ := encRun_ends
    (Keeps := (s.setEnc s.enc.begun).Compressing)
    (fun t e hinv hb he ht => ht.trans (he.compressing hinv hb ht.past))
    (he.inv hinv hb) ha hdec hb (State.compressing_begun hb)
  have hdone := hended.resolve_right ht.noError
  have hhalt := hinv'.enc_halt (by rw [hdone]; decide)
  have hend : t.enc.bitmapEnd = t.enc.bmLen.toNat := if_pos hhalt
  obtain ⟨-, -, -, -, hepoch⟩ := id honly
  exact ⟨k, t, hrun, honly, hdone,
    State.byteAt_congr (s := s) (sp := .esrc) ht.config.esrc hepoch,
    fun x hx => ht.ebm x (hend.trans_le hx), ht.efs,
    (if_pos hhalt).symm.trans (ht.block.trans s.compresses_begun)⟩

end Sys2Proof.Machine
end
